-- ==== Sys2Proof/Word.lean ====
section
/-!
DEFINITION. The word types of SFHC (rules R11, R12): 32-bit register words, 8-bit bytes, and bit strings.
Every arithmetic helper over them is in a file under Machine/.
-/

namespace Sys2Proof

/-- A byte value (R11, R12): 8 bits. -/
abbrev Byte := BitVec 8

/-- A host-visible register or a command word (R11, R80): 32 bits. -/
abbrev Word := BitVec 32

/-- A bit string (R12): a finite sequence over 0 and 1, first element first; `true` is 1. -/
abbrev Bits := List Bool

end Sys2Proof
end

