-- ==== Sys2Proof/Machine/Types.lean ====
section
/-!
DEFINITION. The plain data types the state is made of: stages, error codes, tree nodes, buffer names
and the moves of the host.
-/

namespace Sys2Proof.Machine

/-- The values of STAGE (R23); the values 7 and 12 to 15 never occur. -/
inductive Stage where
  | empty
  | cFreq
  | cQueue
  | cTree
  | cCodes
  | cPacked
  | cDone
  | dParsed
  | dTable
  | dUnpacked
  | dDone
  deriving DecidableEq, Repr

/-- The values of ERR (R240); the codes 9 to 15 never occur. -/
inductive Err where
  | noError
  | fmtNoDelim
  | fmtHeader
  | fmtTable
  | fmtPadding
  | decIncomplete
  | capacity
  | illegalCmd
  | sequence
  deriving DecidableEq, Repr

/-- A record of the tree store (R25). `left` and `right` are node identifiers, 0 in a leaf. -/
structure Node where
  live : Bool
  leaf : Bool
  sym : Byte
  freq : Nat
  left : BitVec 9
  right : BitVec 9
  deriving DecidableEq, Repr

/-- The four byte buffers (R29). -/
inductive BufId where
  | dbuf
  | nbuf
  | cbuf
  | pbuf
  deriving DecidableEq, Repr

/-- The scalar registers that become unspecified at a reset (PEND) or at fault entry (all of them): the
index under which `Config.freeScalar` draws them (R51, R247). -/
inductive Scalar where
  | pend
  | dlen
  | nlen
  | clen
  | plen
  | padding
  | nbits
  | sel
  | root
  | rootV
  | next
  | nlive
  deriving DecidableEq, Repr

/-- The width of a host access. Only word accesses to the register block and byte accesses to a buffer are
moves of the host (R63, R64). -/
inductive Width where
  | byte
  | half
  | word
  deriving DecidableEq, Repr

/-- One move of the host (R84, R85), or the reset event of the platform (R270). A register is named by its
offset from REG_BASE, a buffer byte by its buffer and index: no flat address is formed (R60). -/
inductive HostMove where
  /-- WR: write `v` to the register at `off`; CMD is offset 0. -/
  | regWrite (width : Width) (off : Nat) (v : Word)
  /-- RD: read the register at `off`. -/
  | regRead (width : Width) (off : Nat)
  /-- WB: write `v` at index `i` of the buffer. -/
  | bufWrite (width : Width) (buf : BufId) (i : Nat) (v : Byte)
  /-- RB: read index `i` of the buffer. -/
  | bufRead (width : Width) (buf : BufId) (i : Nat)
  /-- WAIT (R85): read STATUS until BUSY is 0. -/
  | wait
  /-- RESET: hardware reset. -/
  | reset
  deriving DecidableEq, Repr

end Sys2Proof.Machine
end

