-- ==== Sys2Proof/Config.lean ====
section
/-!
DEFINITION. What one SFHC instance fixes, the three capacities of rule R9, and the FREE VALUES: constants
without a body, one draw for each number, for everything the spec calls `unspecified` (R12: a free draw
under no law, never zero). Nothing can be proved about a draw.
-/

namespace Sys2Proof

/-- The capacities of R9, parameters of the instance and constant for its life (R32). -/
structure Config where
  dMax : Nat
  nMax : Nat
  cMax : Nat
  deriving DecidableEq, Repr

namespace Config

/-- `HDR_MAX` (R9): an upper bound on the header length in bytes. -/
def hdrMax (c : Config) : Nat := 67629 + 6 * c.nMax

/-- The constraints of R9. -/
abbrev ok (c : Config) : Prop :=
  1 ≤ c.dMax ∧ c.dMax ≤ 2 ^ 23 ∧ c.nMax ≤ 2 ^ 16 ∧
    c.hdrMax + 1 + 32 * c.dMax ≤ c.cMax ∧ c.cMax < 2 ^ 29

/-- The reference instantiation (R10). No rule depends on it. -/
def reference : Config := ⟨65536, 255, 2166312⟩

/-- The byte at an index of a buffer that nothing has written since its contents became unspecified, by the
number of that event (R29, R51, R69, R247). -/
opaque freeByte : Nat → Machine.BufId → Nat → Byte

/-- A scalar register after an event that leaves it unspecified (R51, R247). -/
opaque freeScalar : Nat → Machine.Scalar → Word

/-- `FREQ[b]` after such an event. -/
opaque freeCount : Nat → Nat → Word

/-- `NODE[i]` after such an event: invalid or any record (R51). The record's `freq` is drawn apart, as a
32-bit number. -/
opaque freeNode : Nat → Nat → Option (Bool × Bool × Byte × Word × BitVec 9 × BitVec 9)

/-- `CT[b]` after such an event: invalid or a bit string. -/
opaque freeCode : Nat → Nat → Option Bits

/-- What a host read returns while the core is busy or faulted (R66, R67). -/
opaque freeRead : Nat → Word

/-- How many moves the host makes between the acceptance of a command and the core's step: finite and
otherwise free (R117, R283). -/
opaque freeDelay : Nat → Nat

end Config

end Sys2Proof
end

