-- ==== Sys2Proof/Syntax.lean ====
section
/-!
DEFINITION. The commands of SFHC (rule R82): one constructor per row of spec/opcode_table.json.
No command has an operand, an immediate, a register specifier or a mode field (rule R81).
-/

namespace Sys2Proof

/-- The fourteen commands of R82, in the order of the table. -/
inductive Instr where
  | sreset
  | compress
  | freq
  | tinit
  | tmerge
  | tbuild
  | assign
  | encode
  | serialize
  | decompress
  | parse
  | chktab
  | unpack
  | decode
  deriving DecidableEq, Repr

end Sys2Proof
end

