-- ==== Sys2Proof/WellFormed.lean ====
section
/-!
DEFINITION. Well-formedness: of a command (none carries an operand, so there is nothing to check, R81), of
a host move (R63, R64), and of an instance's capacities (R9, `Config.ok`).
-/

namespace Sys2Proof

/-- A command has no operand, immediate, register specifier or mode field (R81): every one is well formed. -/
def Instr.wf : Instr → Bool
  | .sreset => true
  | .compress => true
  | .freq => true
  | .tinit => true
  | .tmerge => true
  | .tbuild => true
  | .assign => true
  | .encode => true
  | .serialize => true
  | .decompress => true
  | .parse => true
  | .chktab => true
  | .unpack => true
  | .decode => true

namespace Machine

/-- The moves the model gives the host (R63, R64): aligned 32-bit register accesses, byte accesses to a
buffer, WAIT and the reset event. -/
def HostMove.wf : HostMove → Bool
  | .regWrite width off _ => width == .word && off % 4 == 0
  | .regRead width off => width == .word && off % 4 == 0
  | .bufWrite width _ _ _ => width == .byte
  | .bufRead width _ _ => width == .byte
  | .wait => true
  | .reset => true

end Machine

end Sys2Proof
end

