-- ==== Sys2Proof/Decode.lean ====
section
/-!
DEFINITION. The command encoding of rules R80 to R83: the opcode table, the decoder (total, rejecting by
name) and, after it, the encoder.
-/

namespace Sys2Proof

/-- Why a command word is not a command (R83). -/
inductive Reject where
  /-- some of the bits [31:8] is set -/
  | highBitsSet
  /-- bits [31:8] are zero and the opcode byte is in no row of R82 -/
  | unlistedOpcode
  /-- not the four bytes of one 32-bit command word -/
  | notOneWord
  deriving DecidableEq, Repr

/-- One row of the opcode table: `w` is the command when `w &&& mask = pattern`. -/
structure OpcodeRow where
  mask : Word
  pattern : Word
  instr : Instr
  deriving DecidableEq, Repr

/-- The opcode table of R82: match is the opcode, mask is all ones. -/
def opcodeTable : List OpcodeRow :=
  [⟨0xFFFFFFFF#32, 0x00000001#32, .sreset⟩,
   ⟨0xFFFFFFFF#32, 0x00000010#32, .compress⟩,
   ⟨0xFFFFFFFF#32, 0x00000011#32, .freq⟩,
   ⟨0xFFFFFFFF#32, 0x00000012#32, .tinit⟩,
   ⟨0xFFFFFFFF#32, 0x00000013#32, .tmerge⟩,
   ⟨0xFFFFFFFF#32, 0x00000014#32, .tbuild⟩,
   ⟨0xFFFFFFFF#32, 0x00000015#32, .assign⟩] ++
  [⟨0xFFFFFFFF#32, 0x00000016#32, .encode⟩,
   ⟨0xFFFFFFFF#32, 0x00000017#32, .serialize⟩,
   ⟨0xFFFFFFFF#32, 0x00000020#32, .decompress⟩,
   ⟨0xFFFFFFFF#32, 0x00000021#32, .parse⟩,
   ⟨0xFFFFFFFF#32, 0x00000022#32, .chktab⟩,
   ⟨0xFFFFFFFF#32, 0x00000023#32, .unpack⟩,
   ⟨0xFFFFFFFF#32, 0x00000024#32, .decode⟩]

/-- The row a command word selects. -/
def OpcodeRow.selects (w : Word) (r : OpcodeRow) : Bool := w &&& r.mask == r.pattern

/-- The decoder of R82: every other word is illegal (R83). -/
def decode (w : Word) : Except Reject Instr :=
  match opcodeTable.find? (OpcodeRow.selects w) with
  | some r => .ok r.instr
  | none => if w >>> 8 == 0#32 then .error .unlistedOpcode else .error .highBitsSet

/-- The decoder on the bytes of a command word, bits [7:0] at the lowest address (R62, R80). -/
def decodeBytes : List Byte → Except Reject Instr
  | [b0, b1, b2, b3] => decode (b3 ++ b2 ++ b1 ++ b0)
  | _ => .error .notOneWord

/-- The opcode of a command, bits [7:0] (R80, R82). -/
def opcode : Instr → BitVec 8
  | .sreset => 0x01#8
  | .compress => 0x10#8
  | .freq => 0x11#8
  | .tinit => 0x12#8
  | .tmerge => 0x13#8
  | .tbuild => 0x14#8
  | .assign => 0x15#8
  | .encode => 0x16#8
  | .serialize => 0x17#8
  | .decompress => 0x20#8
  | .parse => 0x21#8
  | .chktab => 0x22#8
  | .unpack => 0x23#8
  | .decode => 0x24#8

/-- The encoder: bits [31:8] are zero (R80). -/
def encode (i : Instr) : Word := 0#24 ++ opcode i

/-- The four bytes of a command word, bits [7:0] first (R62). -/
def encodeBytes (i : Instr) : List Byte := [opcode i, 0#8, 0#8, 0#8]

/-- The command word a row of the opcode table stands for: the low `nbits` bits of `w`, the rest zero; none
where the bits do not fit a command word. -/
def tableWord (nbits w : Nat) : Option Word :=
  if nbits ≤ 32 ∧ w < 2 ^ nbits then some (BitVec.ofNat 32 w) else none

/-- The decoder's answer on a word of spec/opcode_table.json. -/
def decodeTableWord (nbits w : Nat) : Option Instr :=
  match tableWord nbits w with
  | some c =>
    match decodeBytes [c.extractLsb' 0 8, c.extractLsb' 8 8, c.extractLsb' 16 8, c.extractLsb' 24 8] with
    | .ok i => some i
    | .error _ => none
  | none => none

end Sys2Proof
end

