-- ==== Sys2Proof/Machine/Sparse.lean ====
section
/-!
DEFINITION. Sparse arrays: a list of (index, entry) pairs in ONE canonical form, indices strictly rising. An
index that is not listed has no entry. Memory, FREQ, NODE and CT are held so.
-/

namespace Sys2Proof.Machine

/-- A sparse array of entries of type `α`. -/
abbrev Sparse (α : Type) := List (Nat × α)

namespace Sparse

variable {α : Type}

/-- The canonical form: indices strictly rising. -/
abbrev wf (m : Sparse α) : Prop := (m.map Prod.fst).Pairwise (· < ·)

/-- The entry at index `i`. -/
def get : Sparse α → Nat → Option α
  | [], _ => none
  | (k, v) :: m, i => if i = k then some v else get m i

/-- Make `v` the entry at index `i`. -/
def put : Sparse α → Nat → α → Sparse α
  | [], i, v => [(i, v)]
  | (k, w) :: m, i, v =>
    if i < k then (i, v) :: (k, w) :: m
    else if i = k then (i, v) :: m
    else (k, w) :: put m i v

/-- The array whose entry at `i < n` is `f i`. -/
def tabulate (n : Nat) (f : Nat → Option α) : Sparse α :=
  (List.range n).filterMap fun i => (f i).map fun v => (i, v)

/-- The array that lists the elements of `l` from index `i` on. -/
def enumFrom (i : Nat) : List α → Sparse α
  | [] => []
  | v :: l => (i, v) :: enumFrom (i + 1) l

end Sparse

end Sys2Proof.Machine
end

