-- ==== Sys2Proof/Machine/State.lean ====
section
/-!
DEFINITION. The state of SFHC (spec/10_state.md), the reasons a step can stop, and the state after reset (R51).
Every field is plain data.
-/

namespace Sys2Proof.Machine

/-- Why the machine stops. Every constructor names a situation no run from reset reaches and to which the
spec gives no effect; the machine stops where the hardware has no behaviour to be compared with: SAFE. The
errors of the spec (R240) are NOT here: raising one is a next state, `faultEntry`. -/
inductive Fault where
  /-- TMERGE, TBUILD, COMPRESS: `min_live()` of an empty LIVE, which R141 leaves undefined. SAFE. -/
  | emptyQueue
  /-- TMERGE, TBUILD, COMPRESS: the new node's identifier is not one of 0 to 510 (R25). SAFE. -/
  | noSuchNode
  /-- TBUILD, COMPRESS: the merge loop does not end within the 255 rounds of R144. SAFE. -/
  | mergeLoopBound
  /-- ASSIGN, COMPRESS: the walk meets an invalid node or goes deeper than 255 (R161). SAFE. -/
  | brokenTree
  /-- A command reads or writes a buffer at or beyond its capacity, an address R60 says does not exist. SAFE. -/
  | beyondCapacity
  /-- DECODE, DECOMPRESS: NBITS names more bits than PBUF[0..PLEN) holds (R177). SAFE. -/
  | beyondPayload
  /-- The core's step with BUSY = 1 and a PEND that is no opcode, which R110 never stores. SAFE. -/
  | pendingNotACommand
  deriving DecidableEq, Repr

/-- What the model refuses. -/
inductive Refusal where
  /-- An instruction without a meaning, by its mnemonic: raised only by an arm of `exec` (there is none). SAFE. -/
  | notModelled (mnemonic : String)
  /-- A host access to the register block that is not an aligned 32-bit access: not a move the spec gives the
  host (R63). Raised by the host's moves. SAFE. -/
  | registerAccess
  /-- A host access to a buffer that is not a byte access (R64). Raised by the host's moves. SAFE. -/
  | bufferAccess
  deriving DecidableEq, Repr

/-- The contents of a byte memory: (index, byte) pairs, indices strictly rising; an index that is not listed
has no known byte. -/
abbrev Memory := List Host.Cell

namespace Memory

/-- The canonical form of a memory. An unlisted index reads as no byte, so no entry can equal it. -/
abbrev wf (m : Memory) : Prop := Sparse.wf m

/-- What an unlisted index reads as: no byte (R29: `unspecified`). -/
abbrev unlisted : Option Byte := none

/-- The byte listed at an index. -/
def read (m : Memory) (i : Nat) : Option Byte :=
  match Sparse.get m i with
  | some v => some v
  | none => unlisted

end Memory

/-- One byte buffer (R29): the bytes written since its contents last became unspecified, and the number of
that event, which names the free bytes of all other indices. -/
structure Buffer where
  cells : Memory
  epoch : Nat
  deriving DecidableEq, Repr

/-- The whole state of one SFHC and of the host that drives it. The fields from `cfg` on its own line and from
`host` on are the MODEL's own (INVENTORY.md); all others are the spec's. -/
structure State where
  /-- the capacities (R9, R32); no step changes them -/
  cfg : Config
  /-- a command has been accepted and has not completed (R24) -/
  busy : Bool
  /-- opcode of the accepted command (R110) -/
  pend : BitVec 8
  /-- a fault has been recorded (R24) -/
  fault : Bool
  /-- error code of the recorded fault (R240) -/
  err : Err
  /-- progress of the current flow (R23) -/
  stage : Stage
  /-- uncompressed data -/
  dbuf : Buffer
  dlen : Nat
  /-- file name -/
  nbuf : Buffer
  nlen : Nat
  /-- container -/
  cbuf : Buffer
  clen : Nat
  /-- packed payload -/
  pbuf : Buffer
  plen : Nat
  /-- padding count, 0 to 8 (R30) -/
  padding : Nat
  /-- number of code bits (R30) -/
  nbits : Nat
  /-- `FREQ[0..255]`: an unlisted count is 0 (R21) -/
  freq : Sparse Nat
  /-- `NODE[0..510]`: an unlisted node is invalid (R25) -/
  node : Sparse Node
  root : BitVec 9
  rootV : Bool
  next : Nat
  nlive : Nat
  /-- `CT[0..255]`: an unlisted code is invalid (R28) -/
  ct : Sparse Bits
  /-- index of the read windows (R42) -/
  sel : BitVec 9
  /-- the moves the host has still to make, in the order it issues them (R70) -/
  host : List HostMove
  /-- the values the host's reads returned, oldest first -/
  answers : List Word
  /-- how many moves the host still makes before a busy core takes its step (R117) -/
  delay : Nat
  /-- how many free values have been drawn -/
  draws : Nat
  deriving DecidableEq, Repr

/-- `FREQ` after an event numbered `n` that leaves it unspecified. -/
def freeFreq (n : Nat) : Sparse Nat :=
  Sparse.tabulate 256 fun b =>
    if (Config.freeCount n b).toNat = 0 then none else some (Config.freeCount n b).toNat

/-- `NODE` after such an event. -/
def freeNode (n : Nat) : Sparse Node :=
  Sparse.tabulate 511 fun i =>
    (Config.freeNode n i).map fun (live, leaf, sym, freq, left, right) =>
      ⟨live, leaf, sym, freq.toNat, left, right⟩

/-- `CT` after such an event: codes are at most 255 bits (R28). -/
def freeCt (n : Nat) : Sparse Bits :=
  Sparse.tabulate 256 fun b => (Config.freeCode n b).map (List.take 255)

/-- The reset values of R51, on an instance with the capacities `cfg`: what R51 calls unspecified is draw
number `n`. -/
def State.resetWith (cfg : Config) (n : Nat) (host : List HostMove) (answers : List Word) : State where
  cfg := cfg
  busy := false
  pend := (Config.freeScalar n .pend).setWidth 8
  fault := false
  err := .noError
  stage := .empty
  dbuf := ⟨[], n⟩
  dlen := 0
  nbuf := ⟨[], n⟩
  nlen := 0
  cbuf := ⟨[], n⟩
  clen := 0
  pbuf := ⟨[], n⟩
  plen := 0
  padding := 0
  nbits := 0
  freq := freeFreq n
  node := freeNode n
  root := 0#9
  rootV := false
  next := 256
  nlive := 0
  ct := freeCt n
  sel := 0#9
  host := host
  answers := answers
  delay := 0
  draws := n + 1

/-- The machine right after hardware reset (R51, R270), on the reference instantiation (R10), with a host
that has no move to make. -/
def State.reset : State := State.resetWith Config.reference 0 [] []

end Sys2Proof.Machine
end

