-- ==== Sys2Proof/Machine/Flags.lean ====
section
/-!
DEFINITION. The flags (R24): the numbers of STAGE and ERR, the STATUS word (R35), the execution states (R256)
and the sequencing rule (R113). SFHC has no arithmetic condition codes.
-/

namespace Sys2Proof.Machine

/-- The number of a STAGE (R23). -/
def Stage.code : Stage → BitVec 4
  | .empty => 0#4
  | .cFreq => 1#4
  | .cQueue => 2#4
  | .cTree => 3#4
  | .cCodes => 4#4
  | .cPacked => 5#4
  | .cDone => 6#4
  | .dParsed => 8#4
  | .dTable => 9#4
  | .dUnpacked => 10#4
  | .dDone => 11#4

/-- The number of an error (R240). -/
def Err.code : Err → BitVec 4
  | .noError => 0#4
  | .fmtNoDelim => 1#4
  | .fmtHeader => 2#4
  | .fmtTable => 3#4
  | .fmtPadding => 4#4
  | .decIncomplete => 5#4
  | .capacity => 6#4
  | .illegalCmd => 7#4
  | .sequence => 8#4

/-- One bit. -/
def bit (b : Bool) : BitVec 1 := BitVec.ofBool b

/-- The STATUS word (R35): [0] BUSY, [1] FAULT, [7:4] ERR, [11:8] STAGE, all else 0. -/
def statusWord (s : State) : Word :=
  0#20 ++ s.stage.code ++ s.err.code ++ 0#2 ++ bit s.fault ++ bit s.busy

/-- The idle execution state (R256). -/
def idle (s : State) : Bool := !s.busy && !s.fault

/-- The STAGE a command needs (R113); none: any, the start commands and SRESET. -/
def needs : Instr → Option Stage
  | .sreset => none
  | .compress => none
  | .freq => none
  | .tinit => some .cFreq
  | .tmerge => some .cQueue
  | .tbuild => some .cFreq
  | .assign => some .cTree
  | .encode => some .cCodes
  | .serialize => some .cPacked
  | .decompress => none
  | .parse => none
  | .chktab => some .dParsed
  | .unpack => some .dTable
  | .decode => some .dUnpacked

/-- Whether a command is legal at a STAGE (R113). -/
def legalAt (i : Instr) (g : Stage) : Bool :=
  match needs i with
  | none => true
  | some n => n == g

end Sys2Proof.Machine
end

