-- ==== Sys2Proof/Machine/Ops.lean ====
section
/-!
DEFINITION. The named operations every command is written over: buffers and their length registers, fault
entry (R246) and the return from a fault (R251, R115), the outcome of a command's pseudocode, completion (R112)
and the frame of every command (`runCommand`).
-/

namespace Sys2Proof.Machine

/-! ### Buffers (R29, R60) -/

/-- The capacity of a buffer (R29). -/
def capacity (c : Config) : BufId → Nat
  | .dbuf => c.dMax
  | .nbuf => c.nMax
  | .cbuf => c.cMax
  | .pbuf => c.cMax

namespace State

/-- A buffer of the state. -/
def buf (s : State) : BufId → Buffer
  | .dbuf => s.dbuf
  | .nbuf => s.nbuf
  | .cbuf => s.cbuf
  | .pbuf => s.pbuf

/-- The length register of a buffer (R29). -/
def len (s : State) : BufId → Nat
  | .dbuf => s.dlen
  | .nbuf => s.nlen
  | .cbuf => s.clen
  | .pbuf => s.plen

/-- Replace a buffer's contents. -/
def setBuf (s : State) (b : BufId) (x : Buffer) : State :=
  match b with
  | .dbuf => { s with dbuf := x }
  | .nbuf => { s with nbuf := x }
  | .cbuf => { s with cbuf := x }
  | .pbuf => { s with pbuf := x }

/-- Write a length register. -/
def setLen (s : State) (b : BufId) (n : Nat) : State :=
  match b with
  | .dbuf => { s with dlen := n }
  | .nbuf => { s with nlen := n }
  | .cbuf => { s with clen := n }
  | .pbuf => { s with plen := n }

/-- `MemRead(B, i)` (R12): the byte stored at index `i`; a byte nothing has written is free (R29). -/
def byteAt (s : State) (b : BufId) (i : Nat) : Byte :=
  ((s.buf b).cells.read i).getD (Config.freeByte (s.buf b).epoch b i)

/-- `MemWrite(B, i, v)` (R12). -/
def writeByte (s : State) (b : BufId) (i : Nat) (v : Byte) : State :=
  s.setBuf b { s.buf b with cells := Sparse.put (s.buf b).cells i v }

/-- `B[0..LEN)`: the meaningful bytes of a buffer (R29, R69). -/
def bytes (s : State) (b : BufId) : List Byte := (List.range (s.len b)).map (s.byteAt b)

end State

/-! ### What a command's pseudocode ends in -/

/-- How a command's pseudocode ends before its last line: `raise Fault(c)` (R12), or a situation to which the
spec gives no effect. -/
inductive Stop where
  | raise (e : Err)
  | stuck (f : Fault)
  deriving DecidableEq, Repr

/-- The result of a command's pseudocode. -/
abbrev Run := Except Stop State

/-- `B[0..LEN)` as a command reads it: byte by byte, below the length, inside the buffer (R69). -/
def loadBuffer (s : State) (b : BufId) : Except Stop (List Byte) :=
  if s.len b ≤ capacity s.cfg b then .ok (s.bytes b) else .error (.stuck .beyondCapacity)

/-- `for i in 0..|x|: B[i] <- x[i]` and `LEN <- |x|`. The bytes at and above the new length are unspecified
afterwards (R69). -/
def storeBuffer (b : BufId) (x : List Byte) (s : State) : Run :=
  if x.length ≤ capacity s.cfg b then
    .ok { (s.setBuf b ⟨Sparse.enumFrom 0 x, s.draws⟩).setLen b x.length with draws := s.draws + 1 }
  else .error (.stuck .beyondCapacity)

/-! ### Fault entry and the way out of it -/

/-- Fault entry (R246), the one way every fault of the spec is taken: BUSY is cleared, FAULT and ERR are set,
STAGE is EMPTY and every other piece of state is unspecified (R247), drawn afresh, each register in its own range
(log 8, DESIGN CHOICE). -/
def faultEntry (e : Err) (s : State) : State :=
  { s with
    busy := false
    fault := true
    err := e
    stage := .empty
    pend := (Config.freeScalar s.draws .pend).setWidth 8
    dbuf := ⟨[], s.draws⟩
    dlen := (Config.freeScalar s.draws .dlen).toNat
    nbuf := ⟨[], s.draws⟩
    nlen := (Config.freeScalar s.draws .nlen).toNat
    cbuf := ⟨[], s.draws⟩
    clen := (Config.freeScalar s.draws .clen).toNat
    pbuf := ⟨[], s.draws⟩
    plen := (Config.freeScalar s.draws .plen).toNat
    padding := (Config.freeScalar s.draws .padding).toNat % 9
    nbits := (Config.freeScalar s.draws .nbits).toNat
    freq := freeFreq s.draws
    node := freeNode s.draws
    root := (Config.freeScalar s.draws .root).setWidth 9
    rootV := (Config.freeScalar s.draws .rootV).getLsbD 0
    next := 256 + (Config.freeScalar s.draws .next).toNat % 256
    nlive := (Config.freeScalar s.draws .nlive).toNat % 257
    ct := freeCt s.draws
    sel := (Config.freeScalar s.draws .sel).setWidth 9
    delay := 0
    draws := s.draws + 1 }

/-- The reset of R270 and R115 (one effect, R271), the only exit from a fault (R251): every piece of the core's
state takes its reset value (R51). The instance's capacities and the host are not the core's state. -/
def hardReset (s : State) : State := State.resetWith s.cfg s.draws s.host s.answers

/-! ### Completion and the frame of a command -/

/-- Completion (R112): BUSY is cleared; PEND is unspecified while BUSY = 0 (R51). -/
def complete (s : State) : State :=
  { s with
    busy := false
    pend := (Config.freeScalar s.draws .pend).setWidth 8
    delay := 0
    draws := s.draws + 1 }

/-- The end of a command issued in state `s`: completion, fault entry, or a stop. -/
def settle (s : State) : Run → Host.Outcome State Fault Refusal
  | .ok t => .next (complete t)
  | .error (.raise e) => .next (faultEntry e s)
  | .error (.stuck f) => .fault f

/-- One command as one atomic step of the core (R111). The issue rule lets a command start only at a STAGE that
R113 allows; a command that finds another STAGE is a sequence error (R245), as at issue. -/
def runCommand (i : Instr) (body : State → Run) (s : State) : Host.Outcome State Fault Refusal :=
  if legalAt i s.stage then settle s (body s) else .next (faultEntry .sequence s)

end Sys2Proof.Machine
end

