-- ==== Sys2Proof/Machine/Control.lean ====
section
/-!
DEFINITION. Command issue and SRESET (spec/40_control.md).
-/

namespace Sys2Proof.Machine

/-- SRESET (R115): legal whatever BUSY, FAULT and STAGE are; a pending command is abandoned. -/
def execSreset (s : State) : Host.Outcome State Fault Refusal := .next (hardReset s)

/-- Acceptance of a command (R110): BUSY and PEND are set; how many host moves pass before the core takes its
step is free (R117). -/
def accept (w : Word) (s : State) : State :=
  { s with
    busy := true
    pend := w.extractLsb' 0 8
    delay := Config.freeDelay s.draws
    draws := s.draws + 1 }

/-- What the machine does next: run one command, or a step that is already decided. -/
inductive Turn where
  | run (i : Instr) (s : State)
  | done (o : Host.Outcome State Fault Refusal)

/-- Command issue (R110): the host writes `w` to CMD. SRESET runs at once; every other command is ignored,
faulted or accepted. -/
def issue (w : Word) (s : State) : Turn :=
  if w = 0x00000001#32 then .run .sreset s
  else if s.busy || s.fault then .done (.next s)
  else
    match decode w with
    | .error _ => .done (.next (faultEntry .illegalCmd s))
    | .ok i =>
      if legalAt i s.stage then .done (.next (accept w s))
      else .done (.next (faultEntry .sequence s))

end Sys2Proof.Machine
end

