-- ==== Sys2Proof/Machine/Bits.lean ====
section
/-!
DEFINITION. Bits and bytes: the most-significant-bit-first order of rule R61, and bit strings read as numbers.
-/

namespace Sys2Proof.Machine

/-- The number a bit string spells, first bit most significant, after `acc`. -/
def bitsToNat (acc : Nat) : Bits → Nat
  | [] => acc
  | x :: r => bitsToNat (2 * acc + x.toNat) r

/-- The eight bits of a byte, bit 7 first (R61). -/
def byteBits (b : Byte) : Bits :=
  [b.getLsbD 7, b.getLsbD 6, b.getLsbD 5, b.getLsbD 4, b.getLsbD 3, b.getLsbD 2, b.getLsbD 1, b.getLsbD 0]

/-- All bits of a payload, byte by byte (R177). -/
def payloadBits (p : List Byte) : Bits := p.flatMap byteBits

/-- `bit(P, i)` of R177: bit `7 - (i mod 8)` of byte `i div 8`; none beyond the payload. -/
def payloadBit (p : List Byte) (i : Nat) : Option Bool :=
  p[i / 8]?.map fun b => b.getLsbD (7 - i % 8)

/-- `bits[at .. at+32)` of a code as a word, first bit at bit 31, absent bits 0 (R48). -/
def codeWord (c : Bits) (start : Nat) : Word :=
  BitVec.ofNat 32 (bitsToNat 0 ((List.range 32).map fun j => c.getD (start + j) false))

end Sys2Proof.Machine
end

