-- ==== Sys2Proof/Machine/Operands.lean ====
section
/-!
DEFINITION. The operands of the commands. No command names one (R81): each takes its inputs from the state its
rule names, the data, the name, the container, the payload and the arrays FREQ, NODE and CT.
-/

namespace Sys2Proof.Machine

namespace State

/-- `data` (R81): `DBUF[0..DLEN)`. -/
def data (s : State) : List Byte := s.bytes .dbuf

/-- `originalFileName` (R81): `NBUF[0..NLEN)`. -/
def name (s : State) : List Byte := s.bytes .nbuf

/-- `container bytes` (R81): `CBUF[0..CLEN)`. -/
def container (s : State) : List Byte := s.bytes .cbuf

/-- `payload` (R190): `PBUF[0..PLEN)`. -/
def payload (s : State) : List Byte := s.bytes .pbuf

/-- `FREQ[b]` (R21). -/
def freqAt (s : State) (b : Nat) : Nat := (Sparse.get s.freq b).getD 0

/-- `NODE[i]` (R25). -/
def nodeAt (s : State) (i : Nat) : Option Node := Sparse.get s.node i

/-- `CT[b]` (R28). -/
def codeAt (s : State) (b : Nat) : Option Bits := Sparse.get s.ct b

/-- The pairs `(b, CT[b])` of the valid entries, `b` ascending (R190). -/
def table (s : State) : List (Nat × Bits) := Sparse.tabulate 256 s.codeAt

end State

end Sys2Proof.Machine
end

