-- ==== Sys2Proof/Machine/Assign.lean ====
section
/-!
DEFINITION. CodeAssigner (spec/43_code_assigner.md): the command ASSIGN.
-/

namespace Sys2Proof.Machine

/-- `walk(i, p)` (R161), depth first, left before right; `depth` bounds how much deeper the walk may go. -/
def walk (nodes : Sparse Node) : Nat → Nat → Bits → Sparse Bits → Except Stop (Sparse Bits)
  | 0, _, _, _ => .error (.stuck .brokenTree)
  | depth + 1, i, p, ct =>
    match Sparse.get nodes i with
    | none => .error (.stuck .brokenTree)
    | some n =>
      if n.leaf then .ok (Sparse.put ct n.sym.toNat p)
      else do
        let ct ← walk nodes depth n.left.toNat (p ++ [false]) ct
        walk nodes depth n.right.toNat (p ++ [true]) ct

/-- The code table of the tree (R160): no code, the one code "0" (R162), or the codes of the walk. A code has
at most 255 bits, so the walk visits at most 256 levels. -/
def assignCodes (s : State) : Except Stop (Sparse Bits) :=
  if s.rootV then
    match s.nodeAt s.root.toNat with
    | none => .error (.stuck .brokenTree)
    | some n => if n.leaf then .ok [(n.sym.toNat, [false])] else walk s.node 256 s.root.toNat [] []
  else .ok []

/-- The pseudocode of ASSIGN (R160); the tree is discarded (R165). -/
def runAssign (s : State) : Run := do
  let ct ← assignCodes s
  .ok { s with ct := ct, node := [], root := 0#9, rootV := false, next := 256, nlive := 0, stage := .cCodes }

/-- ASSIGN (R160). -/
def execAssign (s : State) : Host.Outcome State Fault Refusal := runCommand .assign runAssign s

end Sys2Proof.Machine
end

