-- ==== Sys2Proof/Machine/Text.lean ====
section
/-!
DEFINITION. The header text (spec/30_encoding.md part B): what the serializer emits (R91, R92) and the parser
that accepts exactly the grammar of R94.
-/

namespace Sys2Proof.Machine

/-! ### ASCII (R12) -/

/-- `asc`: one byte for each ASCII character. -/
def asc (cs : List Char) : List Byte := cs.map fun c => BitVec.ofNat 8 c.toNat

/-- The quotation mark, `DQ` of R94. -/
def dquote : Byte := 0x22#8
/-- The backslash. -/
def backslash : Byte := 0x5C#8
/-- The comma. -/
def comma : Byte := 0x2C#8
/-- The colon. -/
def colon : Byte := 0x3A#8
/-- The opening brace. -/
def openBrace : Byte := 0x7B#8
/-- The closing brace. -/
def closeBrace : Byte := 0x7D#8

/-- A name in quotation marks, followed by a colon. -/
def member (cs : List Char) : List Byte := [dquote] ++ asc cs ++ [dquote, colon]

/-- The fixed text before the padding integer (R91), 11 bytes. -/
def textPadding : List Byte := [openBrace] ++ member ['p', 'a', 'd', 'd', 'i', 'n', 'g']
/-- The fixed text between the padding integer and the entries (R91), 10 bytes. -/
def textCodes : List Byte := [comma] ++ member ['c', 'o', 'd', 'e', 's'] ++ [openBrace]
/-- The fixed text between the entries and the name (R91), 22 bytes. -/
def textName : List Byte :=
  [closeBrace, comma] ++
    member ['o', 'r', 'i', 'g', 'i', 'n', 'a', 'l', 'F', 'i', 'l', 'e', 'N', 'a', 'm', 'e'] ++ [dquote]
/-- The fixed text after the name (R91), 2 bytes. -/
def textEnd : List Byte := [dquote, closeBrace]

/-- The decimal digit of a number below 10. -/
def digit (v : Nat) : Byte := BitVec.ofNat 8 (0x30 + v)

/-- The decimal digits of `v`, at most `n` of them, most significant first. -/
def decDigits : Nat → Nat → List Byte
  | 0, _ => []
  | n + 1, v => if v < 10 then [digit v] else decDigits n (v / 10) ++ [digit (v % 10)]

/-- `dec(v)` (R12): the canonical decimal spelling. -/
def dec (v : Nat) : List Byte := decDigits (v + 1) v

/-- A lower-case hexadecimal digit of a number below 16. -/
def hexDigit (v : Nat) : Byte := if v < 10 then digit v else BitVec.ofNat 8 (0x57 + v)

/-- `hex2(v)` (R12): two lower-case hexadecimal digits, high nibble first. -/
def hex2 (v : Nat) : List Byte := [hexDigit (v / 16), hexDigit (v % 16)]

/-! ### The serializer -/

/-- `esc1(x)` (R92). -/
def esc1 (x : Byte) : List Byte :=
  if x = dquote then [backslash, dquote]
  else if x = backslash then [backslash, backslash]
  else if x.toNat < 0x20 then [backslash] ++ asc ['u', '0', '0'] ++ hex2 x.toNat
  else [x]

/-- `esc(nm)` (R92). -/
def esc (nm : List Byte) : List Byte := nm.flatMap esc1

/-- `txt(c)` (R86): a bit string as ASCII text. -/
def txt (c : Bits) : List Byte := c.map fun x => if x then 0x31#8 else 0x30#8

/-- `entry(b, c)` (R91). -/
def entry (b : Nat) (c : Bits) : List Byte :=
  [dquote] ++ dec b ++ [dquote, colon, dquote] ++ txt c ++ [dquote]

/-- The entries of a table in the order given, joined by commas (R91). -/
def entries : List (Nat × Bits) → List Byte
  | [] => []
  | [(b, c)] => entry b c
  | (b, c) :: r => entry b c ++ [comma] ++ entries r

/-- `ser_header(p, T, nm)` (R91). -/
def serHeader (p : Nat) (t : List (Nat × Bits)) (nm : List Byte) : List Byte :=
  textPadding ++ dec p ++ textCodes ++ entries t ++ textName ++ esc nm ++ textEnd

/-! ### The parser (R94). Each function reads its piece off the front of the text. -/

/-- Literal text. -/
def expect : List Byte → List Byte → Option (List Byte)
  | [], r => some r
  | _ :: _, [] => none
  | x :: xs, y :: r => if x = y then expect xs r else none

/-- A decimal digit, 0x30 to 0x39. -/
def isDigit (b : Byte) : Bool := 0x30 ≤ b.toNat && b.toNat ≤ 0x39

/-- The digits that follow, appended to the number `v` read so far. -/
def takeDigits (v : Nat) : List Byte → Nat × List Byte
  | [] => (v, [])
  | b :: r => if isDigit b then takeDigits (10 * v + (b.toNat - 0x30)) r else (v, b :: r)

/-- `int`: 0, or digits that do not begin with 0. -/
def parseInt : List Byte → Option (Nat × List Byte)
  | [] => none
  | b :: r =>
    if b = 0x30#8 then some (0, r)
    else if isDigit b then some (takeDigits (b.toNat - 0x30) r)
    else none

/-- `*bit`. -/
def takeBits : List Byte → Bits × List Byte
  | [] => ([], [])
  | b :: r =>
    if b = 0x30#8 then (false :: (takeBits r).1, (takeBits r).2)
    else if b = 0x31#8 then (true :: (takeBits r).1, (takeBits r).2)
    else ([], b :: r)

/-- `entry`. -/
def parseEntry (h : List Byte) : Option ((Nat × Bits) × List Byte) := do
  let h ← expect [dquote] h
  let (b, h) ← parseInt h
  let h ← expect [dquote, colon, dquote] h
  let h' ← expect [dquote] (takeBits h).2
  some ((b, (takeBits h).1), h')

/-- `entry *( "," entry )`, at most `n` entries. -/
def parseEntries : Nat → List Byte → Option (List (Nat × Bits) × List Byte)
  | 0, _ => none
  | n + 1, h => do
    let (e, h) ← parseEntry h
    match expect [comma] h with
    | some h => do
      let (es, h) ← parseEntries n h
      some (e :: es, h)
    | none => some ([e], h)

/-- `[ entry *( "," entry ) ]`: nothing when the text goes on with the closing brace. -/
def parseTable (h : List Byte) : Option (List (Nat × Bits) × List Byte) :=
  match expect [closeBrace] h with
  | some _ => some ([], h)
  | none => parseEntries h.length h

/-- The value of `lhex`. -/
def hexValue (b : Byte) : Option Nat :=
  if isDigit b then some (b.toNat - 0x30)
  else if 0x61 ≤ b.toNat && b.toNat ≤ 0x66 then some (b.toNat - 0x57)
  else none

/-- `plain`: 0x20, 0x21, 0x23 to 0x5B, 0x5D to 0xFF. -/
def isPlain (b : Byte) : Bool := 0x20 ≤ b.toNat && b != dquote && b != backslash

/-- `esc-ctl` after its backslash: the text `u00`, the digit 0 or 1, a lower-case hexadecimal digit. -/
def parseControl : List Byte → Option (Byte × List Byte)
  | u :: z0 :: z1 :: d :: x :: r =>
    if [u, z0, z1] = asc ['u', '0', '0'] && (d == 0x30#8 || d == 0x31#8) then
      (hexValue x).map fun v => (BitVec.ofNat 8 (16 * (d.toNat - 0x30) + v), r)
    else none
  | _ => none

/-- `nchar`: one byte of the name. -/
def parseNchar : List Byte → Option (Byte × List Byte)
  | [] => none
  | b :: r =>
    if isPlain b then some (b, r)
    else if b = backslash then
      match r with
      | [] => none
      | y :: r' => if y = dquote || y = backslash then some (y, r') else parseControl r
    else none

/-- `*nchar` up to the quotation mark that ends the name, at most `n` bytes. -/
def parseName : Nat → List Byte → Option (List Byte × List Byte)
  | 0, h => some ([], h)
  | n + 1, h =>
    match parseNchar h with
    | some (x, r) => (parseName n r).map fun (nm, r) => (x :: nm, r)
    | none => some ([], h)

/-- The value of a well-formed header (R95). -/
structure Header where
  padding : Nat
  codes : List (Nat × Bits)
  name : List Byte
  deriving DecidableEq, Repr

/-- Conditions (i) and (ii) of R94: every key is a byte value and no key is repeated. -/
def keysOk (t : List (Nat × Bits)) : Bool := t.all (fun e => e.1 ≤ 255) && decide (t.map Prod.fst).Nodup

/-- `parse_header(h)` (R95); none when the header region is not well formed (R94, R97). -/
def parseHeader (h : List Byte) : Option Header := do
  let r ← expect textPadding h
  let (v, r) ← parseInt r
  let r ← expect textCodes r
  let (t, r) ← parseTable r
  let r ← expect textName r
  let (nm, r) ← parseName r.length r
  let r ← expect textEnd r
  if r = [] && keysOk t then some ⟨v, t, nm⟩ else none

end Sys2Proof.Machine
end

