-- ==== Sys2Proof/Machine/Container.lean ====
section
/-!
DEFINITION. ContainerCodec (spec/45_container.md): SERIALIZE and PARSE.
-/

namespace Sys2Proof.Machine

/-! ### SERIALIZE -/

/-- The container of R88: header, one delimiter byte 0x00, payload. -/
def containerOf (header payload : List Byte) : List Byte := header ++ [0#8] ++ payload

/-- The pseudocode of SERIALIZE (R191). -/
def runSerialize (s : State) : Run := do
  let name ← loadBuffer s .nbuf
  let payload ← loadBuffer s .pbuf
  let t ← storeBuffer .cbuf (containerOf (serHeader s.padding s.table name) payload) s
  .ok { t with stage := .cDone }

/-- SERIALIZE (R191). -/
def execSerialize (s : State) : Host.Outcome State Fault Refusal := runCommand .serialize runSerialize s

/-! ### PARSE -/

/-- The split at the first 0x00 byte (R194): the header region and the payload; none without a delimiter. -/
def splitContainer : List Byte → Option (List Byte × List Byte)
  | [] => none
  | x :: r => if x = 0#8 then some ([], r) else (splitContainer r).map fun (h, p) => (x :: h, p)

/-- The code table that holds the entries of a header (R195): by key, all other entries invalid. -/
def tableOf (t : List (Nat × Bits)) : Sparse Bits := Sparse.tabulate 256 (Sparse.get t)

/-- The pseudocode of PARSE (R195): the faults in the order of precedence 1, 2, 6. -/
def runParse (s : State) : Run := do
  let c ← loadBuffer s .cbuf
  match splitContainer c with
  | none => .error (.raise .fmtNoDelim)
  | some (h, payload) =>
    match parseHeader h with
    | none => .error (.raise .fmtHeader)
    | some hd =>
      if hd.codes.any fun e => e.2.length > 255 then .error (.raise .capacity)
      else if hd.name.length > s.cfg.nMax then .error (.raise .capacity)
      else do
        let t ← storeBuffer .nbuf hd.name { s with padding := min hd.padding 8, ct := tableOf hd.codes }
        let t ← storeBuffer .pbuf payload t
        .ok { t with stage := .dParsed }

/-- PARSE (R195). -/
def execParse (s : State) : Host.Outcome State Fault Refusal := runCommand .parse runParse s

end Sys2Proof.Machine
end

