-- ==== Sys2Proof/Machine/Frequency.lean ====
section
/-!
DEFINITION. FrequencyTable (spec/41_frequency.md): the command FREQ.
-/

namespace Sys2Proof.Machine

/-- `FREQ[b] <- FREQ[b] + 1` for every byte of the data, in order (R130). -/
def countBytes (f : Sparse Nat) : List Byte → Sparse Nat
  | [] => f
  | x :: r => countBytes (Sparse.put f x.toNat ((Sparse.get f x.toNat).getD 0 + 1)) r

/-- The pseudocode of FREQ (R130). -/
def runFreq (s : State) : Run := do
  let data ← loadBuffer s .dbuf
  .ok { s with freq := countBytes [] data, stage := .cFreq }

/-- FREQ (R130). -/
def execFreq (s : State) : Host.Outcome State Fault Refusal := runCommand .freq runFreq s

end Sys2Proof.Machine
end

