-- ==== Sys2Proof/Machine/Packer.lean ====
section
/-!
DEFINITION. BitPacker and BitUnpacker (spec/44_bit_packer.md): ENCODE and UNPACK.
-/

namespace Sys2Proof.Machine

/-! ### The packer (R170) -/

/-- The packer's local variables (R31, R170) with the bytes it has stored, newest first, and the count NBITS. -/
structure Packer where
  acc : Byte
  nacc : Nat
  nbits : Nat
  stored : List Byte
  deriving DecidableEq, Repr

namespace Packer

/-- The packer at the start of ENCODE (R172). -/
def start : Packer := ⟨0#8, 0, 0, []⟩

/-- `push(x)` (R170): shift left, the new bit enters at bit 0; a full accumulator is stored. -/
def push (p : Packer) (x : Bool) : Packer :=
  let acc : Byte := p.acc <<< 1 ||| BitVec.setWidth 8 (BitVec.ofBool x)
  if p.nacc + 1 = 8 then ⟨0#8, 0, p.nbits + 1, acc :: p.stored⟩
  else ⟨acc, p.nacc + 1, p.nbits + 1, p.stored⟩

/-- Push the bits of a bit string in order. -/
def pushAll (p : Packer) : Bits → Packer
  | [] => p
  | x :: r => (p.push x).pushAll r

/-- The padding count of `flush()` (R170). -/
def padding (p : Packer) : Nat := (8 - p.nacc) % 8

/-- The bytes stored after `flush()` (R170), in order: the last partial byte is left-aligned. -/
def flushed (p : Packer) : List Byte :=
  (if p.nacc > 0 then (p.acc <<< (8 - p.nacc)) :: p.stored else p.stored).reverse

end Packer

/-- `pack(s)` (R171): the payload bytes and the padding of a bit sequence. -/
def pack (x : Bits) : List Byte × Nat :=
  ((Packer.start.pushAll x).flushed, (Packer.start.pushAll x).padding)

/-! ### ENCODE -/

/-- The loop of ENCODE (R172): push the code of every data byte. A byte without a code is `Fault(8)` (R173). -/
def pushCodes (ct : Sparse Bits) (p : Packer) : List Byte → Except Stop Packer
  | [] => .ok p
  | x :: r =>
    match Sparse.get ct x.toNat with
    | some c => pushCodes ct (p.pushAll c) r
    | none => .error (.raise .sequence)

/-- The pseudocode of ENCODE (R172). -/
def runEncode (s : State) : Run := do
  let data ← loadBuffer s .dbuf
  let p ← pushCodes s.ct Packer.start data
  let t ← storeBuffer .pbuf p.flushed s
  .ok { t with padding := p.padding, nbits := p.nbits, stage := .cPacked }

/-- ENCODE (R172). -/
def execEncode (s : State) : Host.Outcome State Fault Refusal := runCommand .encode runEncode s

/-! ### UNPACK -/

/-- `unpack(P, L, p)` (R177): every byte expanded, the last `p` bits dropped. -/
def unpack (payload : List Byte) (p : Nat) : Bits :=
  (payloadBits payload).take (8 * payload.length - p)

/-- The pseudocode of UNPACK (R178). -/
def runUnpack (s : State) : Run :=
  if s.padding > 7 then .error (.raise .fmtPadding)
  else if s.padding > 8 * s.plen then .error (.raise .fmtPadding)
  else .ok { s with nbits := 8 * s.plen - s.padding, stage := .dUnpacked }

/-- UNPACK (R178). -/
def execUnpack (s : State) : Host.Outcome State Fault Refusal := runCommand .unpack runUnpack s

end Sys2Proof.Machine
end

