-- ==== Sys2Proof/Machine/Tree.lean ====
section
/-!
DEFINITION. CodeTreeBuilder (spec/42_tree_builder.md), the minimum-merge priority queue: TINIT, TMERGE, TBUILD.
-/

namespace Sys2Proof.Machine

/-! ### The queue (R26, R141) -/

/-- `key(i) < key(j)`: the smaller frequency first, then the smaller identifier (R141). -/
def keyLt (fi i fj j : Nat) : Bool := fi < fj || (fi == fj && i < j)

/-- `min_live()` (R141): the live node with the smallest key, with its identifier; none when LIVE is empty. -/
def minLive : Sparse Node → Option (Nat × Node)
  | [] => none
  | (i, n) :: r =>
    if n.live then
      match minLive r with
      | some (j, m) => if keyLt m.freq j n.freq i then some (j, m) else some (i, n)
      | none => some (i, n)
    else minLive r

/-- `a <- min_live() ; NODE[a].live <- 0` (R142): one extraction. -/
def extractMin (nodes : Sparse Node) : Except Stop (Nat × Node × Sparse Node) :=
  match minLive nodes with
  | some (i, n) => .ok (i, n, Sparse.put nodes i { n with live := false })
  | none => .error (.stuck .emptyQueue)

/-! ### TINIT -/

/-- The leaf of a byte value that occurs `c` times; none when it does not occur (R140). -/
def leafOf (b c : Nat) : Option Node :=
  if c > 0 then some ⟨true, true, BitVec.ofNat 8 b, c, 0#9, 0#9⟩ else none

/-- The byte values that occur, ascending; `k` is their number (R131). -/
def occurring (s : State) : List Nat := (List.range 256).filter fun b => s.freqAt b > 0

/-- The pseudocode of TINIT (R140), the edge cases of R146 and R147 included. -/
def runTinit (s : State) : Run :=
  let t := { s with
    node := Sparse.tabulate 511 fun i => if i < 256 then leafOf i (s.freqAt i) else none
    next := 256
    nlive := (occurring s).length }
  match occurring s with
  | [] => .ok { t with root := 0#9, rootV := false, stage := .cTree }
  | [b] => .ok { t with root := BitVec.ofNat 9 b, rootV := true, stage := .cTree }
  | _ :: _ :: _ => .ok { t with root := 0#9, rootV := false, stage := .cQueue }

/-- TINIT (R140). -/
def execTinit (s : State) : Host.Outcome State Fault Refusal := runCommand .tinit runTinit s

/-! ### TMERGE -/

/-- The node that combines the two extracted ones: the first is LEFT, the second RIGHT (R142). -/
def combine (a : Nat) (na : Node) (b : Nat) (nb : Node) : Node :=
  ⟨true, false, 0#8, na.freq + nb.freq, BitVec.ofNat 9 a, BitVec.ofNat 9 b⟩

/-- The pseudocode of TMERGE (R142). -/
def runTmerge (s : State) : Run := do
  let (a, na, nodes) ← extractMin s.node
  let (b, nb, nodes) ← extractMin nodes
  if s.next ≤ 510 then
    let t := { s with
      node := Sparse.put nodes s.next (combine a na b nb)
      next := s.next + 1
      nlive := s.nlive - 1 }
    if t.nlive = 1 then
      .ok { t with root := BitVec.ofNat 9 (t.next - 1), rootV := true, stage := .cTree }
    else .ok { t with stage := .cQueue }
  else .error (.stuck .noSuchNode)

/-- TMERGE (R142). -/
def execTmerge (s : State) : Host.Outcome State Fault Refusal := runCommand .tmerge runTmerge s

/-! ### TBUILD -/

/-- `while STAGE = C_QUEUE: perform TMERGE` (R144), for at most `rounds` rounds. -/
def mergeLoop : Nat → State → Run
  | 0, s => if s.stage = .cQueue then .error (.stuck .mergeLoopBound) else .ok s
  | n + 1, s => if s.stage = .cQueue then runTmerge s >>= mergeLoop n else .ok s

/-- The pseudocode of TBUILD (R144): the loop body runs at most 255 times. -/
def runTbuild (s : State) : Run := runTinit s >>= mergeLoop 255

/-- TBUILD (R144). -/
def execTbuild (s : State) : Host.Outcome State Fault Refusal := runCommand .tbuild runTbuild s

end Sys2Proof.Machine
end

