-- ==== Sys2Proof/Machine/Facade.lean ====
section
/-!
DEFINITION. The codec facade (spec/46_facade.md): CHKTAB, DECODE, COMPRESS, DECOMPRESS.
-/

namespace Sys2Proof.Machine

/-! ### CHKTAB -/

/-- `is_prefix(a, b)` (R12); every string is a prefix of itself. -/
def isPrefix : Bits → Bits → Bool
  | [], _ => true
  | _ :: _, [] => false
  | x :: a, y :: b => x == y && isPrefix a b

/-- A *decodable* table (R210): no code is empty, and no code is a prefix of another entry's code. -/
def decodable (t : List (Nat × Bits)) : Bool :=
  t.all (fun e => !e.2.isEmpty) &&
    t.all fun e => t.all fun e' => e.1 == e'.1 || !isPrefix e.2 e'.2

/-- The pseudocode of CHKTAB (R211). -/
def runChktab (s : State) : Run :=
  if decodable s.table then .ok { s with stage := .dTable } else .error (.raise .fmtTable)

/-- CHKTAB (R211). -/
def execChktab (s : State) : Host.Outcome State Fault Refusal := runCommand .chktab runChktab s

/-! ### DECODE -/

/-- `INV(c)` (R212): the byte value whose code is `c`; the smallest, in a table that is not decodable. -/
def invert (t : List (Nat × Bits)) (c : Bits) : Option Nat :=
  (t.find? fun e => e.2 == c).map Prod.fst

/-- The decode loop (R214) over the bits still to read: `cand` is CAND, `dlen` is DLEN, `out` the bytes decoded
so far, newest first. -/
def decodeLoop (t : List (Nat × Bits)) (dMax : Nat) : Bits → Bits → Nat → List Byte → Except Stop (List Byte)
  | [], cand, _, out => if cand = [] then .ok out.reverse else .error (.raise .decIncomplete)
  | x :: bits, cand, dlen, out =>
    match invert t (cand ++ [x]) with
    | some b =>
      if dlen = dMax then .error (.raise .capacity)
      else decodeLoop t dMax bits [] (dlen + 1) (BitVec.ofNat 8 b :: out)
    | none => decodeLoop t dMax bits (cand ++ [x]) dlen out

/-- The pseudocode of DECODE (R214). -/
def runDecode (s : State) : Run := do
  let payload ← loadBuffer s .pbuf
  if s.nbits ≤ 8 * s.plen then do
    let data ← decodeLoop s.table s.cfg.dMax ((payloadBits payload).take s.nbits) [] 0 []
    let t ← storeBuffer .dbuf data s
    .ok { t with stage := .dDone }
  else .error (.stuck .beyondPayload)

/-- DECODE (R214). -/
def execDecode (s : State) : Host.Outcome State Fault Refusal := runCommand .decode runDecode s

/-! ### The composite commands -/

/-- The pseudocode of COMPRESS (R216): the compress chain, one stage after the other. -/
def runCompress (s : State) : Run :=
  runFreq s >>= runTbuild >>= runAssign >>= runEncode >>= runSerialize

/-- COMPRESS (R216). -/
def execCompress (s : State) : Host.Outcome State Fault Refusal := runCommand .compress runCompress s

/-- The pseudocode of DECOMPRESS (R218): the decompress chain, abandoned at the first fault. -/
def runDecompress (s : State) : Run :=
  runParse s >>= runChktab >>= runUnpack >>= runDecode

/-- DECOMPRESS (R218). -/
def execDecompress (s : State) : Host.Outcome State Fault Refusal := runCommand .decompress runDecompress s

end Sys2Proof.Machine
end

