-- ==== Sys2Proof/Machine/Dispatch.lean ====
section
/-!
DEFINITION. The dispatch of the fourteen commands to their meanings, one arm each.
-/

namespace Sys2Proof.Machine

def exec (i : Instr) (s : State) : Host.Outcome State Fault Refusal :=
  match i with
  | .sreset => Sys2Proof.Machine.execSreset s
  | .compress => Sys2Proof.Machine.execCompress s
  | .freq => Sys2Proof.Machine.execFreq s
  | .tinit => Sys2Proof.Machine.execTinit s
  | .tmerge => Sys2Proof.Machine.execTmerge s
  | .tbuild => Sys2Proof.Machine.execTbuild s
  | .assign => Sys2Proof.Machine.execAssign s
  | .encode => Sys2Proof.Machine.execEncode s
  | .serialize => Sys2Proof.Machine.execSerialize s
  | .decompress => Sys2Proof.Machine.execDecompress s
  | .parse => Sys2Proof.Machine.execParse s
  | .chktab => Sys2Proof.Machine.execChktab s
  | .unpack => Sys2Proof.Machine.execUnpack s
  | .decode => Sys2Proof.Machine.execDecode s

end Sys2Proof.Machine
end

