-- ==== Sys2Proof/Machine/HostPort.lean ====
section
/-!
DEFINITION. The host's side (spec/10_state.md section 8, spec/20_memory.md): the register map, the read windows,
buffer accesses, and whose turn it is.
-/

namespace Sys2Proof.Machine

/-! ### The read windows (R43 to R48) -/

/-- The node `SEL[8:0]` names; identifier 511 is no node (R44). -/
def selectedNode (s : State) : Option Node := if s.sel.toNat ≤ 510 then s.nodeAt s.sel.toNat else none

/-- The byte value `SEL[7:0]` names (R43, R47). -/
def selectedByte (s : State) : Nat := (s.sel.setWidth 8).toNat

/-- `FREQ_DATA` (R43). -/
def freqData (s : State) : Word := BitVec.ofNat 32 (s.freqAt (selectedByte s))

/-- `NODE_FREQ` (R44). -/
def nodeFreq (s : State) : Word :=
  match selectedNode s with
  | some n => BitVec.ofNat 32 n.freq
  | none => 0#32

/-- `NODE_INFO` (R45): [0] V, [1] LIVE, [2] LEAF, [10:3] SYM, [19:11] LEFT, [28:20] RIGHT. -/
def nodeInfo (s : State) : Word :=
  match selectedNode s with
  | some n => 0#3 ++ n.right ++ n.left ++ n.sym ++ bit n.leaf ++ bit n.live ++ 1#1
  | none => 0#32

/-- `TREE_INFO` (R46): [8:0] ROOT, [9] ROOT_V, [18:10] NEXT, [27:19] NLIVE. -/
def treeInfo (s : State) : Word :=
  0#4 ++ BitVec.ofNat 9 s.nlive ++ BitVec.ofNat 9 s.next ++ bit s.rootV ++ s.root

/-- The code `SEL[7:0]` names (R47, R48). -/
def selectedCode (s : State) : Option Bits := s.codeAt (selectedByte s)

/-- `CT_INFO` (R47): [0] V, [8:1] LEN. -/
def ctInfo (s : State) : Word :=
  match selectedCode s with
  | some c => 0#23 ++ BitVec.ofNat 8 c.length ++ 1#1
  | none => 0#32

/-- `CT_BITS<w>` (R48). -/
def ctBits (s : State) (w : Nat) : Word :=
  match selectedCode s with
  | some c => codeWord c (32 * w)
  | none => 0#32

/-! ### Register reads and writes (R33 to R49, R67) -/

/-- What the register at an offset holds, in an idle core (R33 to R49); CMD and the reserved offsets read 0. -/
def readReg (s : State) (off : Nat) : Word :=
  if off = 0x04 then statusWord s
  else if off = 0x08 then BitVec.ofNat 32 s.dlen
  else if off = 0x0C then BitVec.ofNat 32 s.nlen
  else if off = 0x10 then BitVec.ofNat 32 s.clen
  else if off = 0x14 then BitVec.ofNat 32 s.plen
  else if off = 0x18 then BitVec.ofNat 32 s.padding
  else if off = 0x1C then BitVec.ofNat 32 s.nbits
  else if off = 0x20 then s.sel.setWidth 32
  else if off = 0x24 then freqData s
  else if off = 0x28 then nodeFreq s
  else if off = 0x2C then nodeInfo s
  else if off = 0x30 then treeInfo s
  else if off = 0x34 then ctInfo s
  else if 0x40 ≤ off ∧ off < 0x60 then ctBits s ((off - 0x40) / 4)
  else 0#32

/-- An accepted write of a length register (R36, R37, R38): the new length, and STAGE is EMPTY. A length above
the capacity is ignored. -/
def writeLen (b : BufId) (v : Word) (s : State) : State :=
  if v.toNat ≤ capacity s.cfg b then { s.setLen b v.toNat with stage := .empty } else s

/-- A write of a register other than CMD (R36 to R42, R49, R67): ignored unless the core is idle and the
register can be written. -/
def writeReg (off : Nat) (v : Word) (s : State) : State :=
  if !idle s then s
  else if off = 0x08 then writeLen .dbuf v s
  else if off = 0x0C then writeLen .nbuf v s
  else if off = 0x10 then writeLen .cbuf v s
  else if off = 0x20 then { s with sel := v.extractLsb' 0 9 }
  else s

/-- A host write to a buffer (R65): ignored unless the core is idle, the index is below the capacity and the
buffer is not PBUF; an accepted write sets STAGE to EMPTY. -/
def hostWrite (b : BufId) (i : Nat) (v : Byte) (s : State) : State :=
  if idle s && decide (i < capacity s.cfg b) && b != .pbuf then
    { s.writeByte b i v with stage := .empty }
  else s

/-- The host's read returned `w`. -/
def answer (w : Word) (s : State) : State := { s with answers := s.answers ++ [w] }

/-- A read that returns an unspecified value (R66, R67): a fresh draw. -/
def answerFree (width : Nat) (s : State) : State :=
  { answer (((Config.freeRead s.draws).setWidth width).setWidth 32) s with draws := s.draws + 1 }

/-- A host read of a register (R67): STATUS is exact in every state. -/
def hostReadReg (off : Nat) (s : State) : State :=
  if off = 0x04 ∨ idle s then answer (readReg s off) s else answerFree 32 s

/-- A host read of a buffer (R66). -/
def hostReadBuf (b : BufId) (i : Nat) (s : State) : State :=
  if idle s then
    if i < capacity s.cfg b then answer ((s.byteAt b i).setWidth 32) s else answer 0#32 s
  else answerFree 8 s

/-! ### Whose turn it is (R70, R110, R111) -/

/-- The host has made its next move: it is taken off the list, and a busy core's delay counts down. -/
def hostTook (rest : List HostMove) (s : State) : State := { s with host := rest, delay := s.delay - 1 }

/-- One move of the host (R63 to R67, R84, R110, R270). -/
def hostMove (m : HostMove) (s : State) : Turn :=
  match m with
  | .regWrite _ off v =>
    if m.wf then if off = 0 then issue v s else .done (.next (writeReg off v s))
    else .done (.refused .registerAccess)
  | .regRead _ off => if m.wf then .done (.next (hostReadReg off s)) else .done (.refused .registerAccess)
  | .bufWrite _ b i v => if m.wf then .done (.next (hostWrite b i v s)) else .done (.refused .bufferAccess)
  | .bufRead _ b i => if m.wf then .done (.next (hostReadBuf b i s)) else .done (.refused .bufferAccess)
  | .wait => .done (.next (answer (statusWord s) s))
  | .reset => .done (.next (hardReset s))

/-- The host makes no move of its own while the core is busy: it has none left, or it polls STATUS (R85). -/
def hostWaits (s : State) : Bool :=
  match s.host with
  | [] => true
  | .wait :: _ => true
  | _ => false

/-- A busy core takes its step (R111) when the host waits for it, or when its delay is over (R117). -/
def coreTurn (s : State) : Bool := s.busy && (hostWaits s || s.delay == 0)

/-- The command the core has accepted: PEND, decoded as the command word it came from (R110). -/
def pendingInstr (s : State) : Except Reject Instr := decode (s.pend.setWidth 32)

/-- Whose turn it is, and what happens: the core runs PEND (R111), the host makes its next move (R70), or
nothing happens, because neither agent has a step: the same state again (log 16, DESIGN CHOICE). -/
def turn (s : State) : Turn :=
  if coreTurn s then
    match pendingInstr s with
    | .ok i => .run i s
    | .error _ => .done (.fault .pendingNotACommand)
  else
    match s.host with
    | [] => .done (.next s)
    | m :: rest => hostMove m (hostTook rest s)

/-- `s` with the command word `w` where the machine takes its next command from: accepted, so that the core's
step is next. A word that is no command is put on the bus instead, as the host's next move. -/
def placeCommand (s : State) (w : Word) : State :=
  match decode w with
  | .ok _ => { s with busy := true, pend := w.extractLsb' 0 8, delay := 0 }
  | .error _ => { s with busy := false, fault := false, host := .regWrite .word 0 w :: s.host }

end Sys2Proof.Machine
end

