-- ==== Sys2Proof/Machine/Step.lean ====
section
/-!
DEFINITION. One step of the machine: whichever agent's turn it is (`turn`) takes one atomic step (R70, R111).
-/

namespace Sys2Proof.Machine

/-- One step: a command run by the core (or SRESET, run by the host's write), or one move of the host. -/
def step (s : State) : Host.Outcome State Fault Refusal :=
  match turn s with
  | .run i t => exec i t
  | .done o => o

/-- `s` with the command word of an opcode-table row accepted, so that the very next step runs it. -/
def State.withFetchWord (s : State) (nbits w : Nat) : State :=
  match tableWord nbits w with
  | some c => placeCommand s c
  | none => s

end Sys2Proof.Machine
end

