-- ==== Sys2Proof/Safety.lean ====
section
/-!
DEFINITION. What a good state and a safe run are, and the terms the statements use: the invariants of the spec
(R25 to R30, R256), the meaning of STAGE (R23), the invariants of the tree store (R143), the reset state (R51)
and what a command leaves alone (R52).
-/

namespace Sys2Proof.Machine

namespace State

/-! ### Legal states -/

/-- The invariant of R29: no length is above its buffer's capacity. -/
abbrev LengthsFit (s : State) : Prop :=
  s.dlen ≤ s.cfg.dMax ∧ s.nlen ≤ s.cfg.nMax ∧ s.clen ≤ s.cfg.cMax ∧ s.plen ≤ s.cfg.cMax

/-- Every memory is in canonical form and lists no byte at or beyond its capacity (R29, R60). -/
abbrev MemWf (s : State) : Prop :=
  ∀ b, (s.buf b).cells.wf ∧ ∀ c ∈ (s.buf b).cells, c.1 < capacity s.cfg b

/-- The arrays are in canonical form and hold what R21, R25 and R28 let them hold. -/
abbrev ArraysWf (s : State) : Prop :=
  (Sparse.wf s.freq ∧ ∀ e ∈ s.freq, e.1 < 256 ∧ 0 < e.2) ∧
    (Sparse.wf s.node ∧ ∀ e ∈ s.node, e.1 ≤ 510) ∧
    (Sparse.wf s.ct ∧ ∀ e ∈ s.ct, e.1 < 256 ∧ e.2.length ≤ 255)

/-- The scalar registers hold values of R27 and R30. -/
abbrev ScalarsWf (s : State) : Prop :=
  s.padding ≤ 8 ∧ 256 ≤ s.next ∧ s.next ≤ 511 ∧ s.nlive ≤ 256

/-- The flags (R24, R240, R256): never busy and faulted, an error code exactly while faulted, STAGE EMPTY while
faulted. -/
abbrev FlagsWf (s : State) : Prop :=
  ¬(s.busy = true ∧ s.fault = true) ∧ (s.fault = true ↔ s.err ≠ .noError) ∧
    (s.fault = true → s.stage = .empty)

/-- A busy core has accepted a command other than SRESET that is legal at the STAGE (R110, R113). -/
def PendingLegal (s : State) : Prop :=
  s.busy = true → ∃ i, i ≠ Instr.sreset ∧ pendingInstr s = .ok i ∧ legalAt i s.stage = true

/-- The legal states: what holds in every state a run from reset reaches, whatever the host does. While faulted, all but
the flags is unspecified (R247): that ArraysWf and ScalarsWf hold there too is the model's DESIGN CHOICE (log 8). -/
def Inv (s : State) : Prop :=
  s.cfg.ok ∧ s.MemWf ∧ s.ArraysWf ∧ s.ScalarsWf ∧ s.FlagsWf ∧ s.PendingLegal ∧
    (s.fault = false → s.LengthsFit)

/-! ### The tree store (R26, R143) -/

/-- The identifiers of LIVE (R26). -/
def live (s : State) : List Nat := (s.node.filter fun e => e.2.live).map Prod.fst

/-- Node `c` is a child of the internal node `n`. -/
def ChildOf (n : Node) (c : Nat) : Prop := n.leaf = false ∧ (n.left.toNat = c ∨ n.right.toNat = c)

/-- R143 item 1: the valid nodes are the leaves of the occurring byte values and the internal nodes 256 to
`NEXT - 1`. -/
def NodesAreTheLeavesAndMerges (s : State) : Prop :=
  ∀ i, (s.nodeAt i).isSome = true ↔ (i < 256 ∧ 0 < s.freqAt i) ∨ (256 ≤ i ∧ i < s.next)

/-- R25: identifiers 0 to 255 are leaves with their byte value and count, the others internal nodes. -/
def LeavesHoldTheCounts (s : State) : Prop :=
  ∀ i n, s.nodeAt i = some n →
    (n.leaf = true ↔ i < 256) ∧
      (n.leaf = true → n.sym.toNat = i ∧ n.freq = s.freqAt i ∧ n.left = 0#9 ∧ n.right = 0#9)

/-- R143 items 2 and 5: an internal node has two different, older, valid children that are not live, and its
frequency is their sum. -/
def InternalNodesCombine (s : State) : Prop :=
  ∀ i n, s.nodeAt i = some n → n.leaf = false →
    n.left ≠ n.right ∧ n.left.toNat < i ∧ n.right.toNat < i ∧
      ∃ l r, s.nodeAt n.left.toNat = some l ∧ s.nodeAt n.right.toNat = some r ∧
        l.live = false ∧ r.live = false ∧ n.freq = l.freq + r.freq

/-- R143 item 3: no node is the child of two nodes, and the live nodes are those that are nobody's child. -/
def ChildrenAreNotShared (s : State) : Prop :=
  (∀ i j n m c, s.nodeAt i = some n → s.nodeAt j = some m → ChildOf n c → ChildOf m c → i = j) ∧
    ∀ c k, s.nodeAt c = some k →
      (k.live = true ↔ ¬∃ i n, s.nodeAt i = some n ∧ ChildOf n c)

/-- R26 and R143 item 4: NLIVE counts the live nodes and is `k` less the merges done. -/
def LiveIsCounted (s : State) : Prop :=
  s.nlive = s.live.length ∧ s.nlive + (s.next - 256) = (occurring s).length ∧ 256 ≤ s.next

/-- R143 item 5: the frequencies of LIVE add up to DLEN. -/
def LiveFrequenciesAddUp (s : State) : Prop :=
  ((s.node.filter fun e => e.2.live).map fun e => e.2.freq).sum = s.dlen

/-- The invariants of the tree store (R143). -/
def Forest (s : State) : Prop :=
  s.NodesAreTheLeavesAndMerges ∧ s.LeavesHoldTheCounts ∧ s.InternalNodesCombine ∧
    s.ChildrenAreNotShared ∧ s.LiveIsCounted ∧ s.LiveFrequenciesAddUp

/-- The walk of R161 along a bit string: the byte value of the leaf it ends in, '0' to the left and '1' to the
right; none where it does not end in a leaf. -/
def followPath (s : State) (i : Nat) : Bits → Option Nat
  | [] =>
    match s.nodeAt i with
    | some n => if n.leaf then some n.sym.toNat else none
    | none => none
  | x :: r =>
    match s.nodeAt i with
    | some n => if n.leaf then none else s.followPath (if x then n.right.toNat else n.left.toNat) r
    | none => none

/-! ### What STAGE means (R23) -/

/-- FREQ is the histogram of the data (R131). -/
def Histogram (s : State) : Prop := ∀ b, b < 256 → s.freqAt b = s.data.count (BitVec.ofNat 8 b)

/-- Tree building is over (R23, R27, R143 item 6): one root, the one live node, or none. -/
def TreeBuilt (s : State) : Prop :=
  s.nlive ≤ 1 ∧ (s.rootV = true ↔ s.nlive = 1) ∧ (s.rootV = true → s.live = [s.root.toNat]) ∧
    (s.rootV = false → s.root = 0#9)

/-- CT is a decodable table with a code for exactly the occurring byte values (R164), and the tree has been
discarded (R165). -/
def CodesAssigned (s : State) : Prop :=
  (∀ b, b < 256 → ((s.codeAt b).isSome = true ↔ 0 < s.freqAt b)) ∧ decodable s.table = true ∧
    s.node = [] ∧ s.root = 0#9 ∧ s.rootV = false ∧ s.next = 256 ∧ s.nlive = 0

/-- The bit sequence of some bytes under a code table (R172): the concatenation of their codes. -/
def encodedBits (s : State) (x : List Byte) : Bits := x.flatMap fun b => (s.codeAt b.toNat).getD []

/-- PBUF, PADDING and NBITS are the packed payload of the data (R171, R172). -/
def Packed (s : State) : Prop :=
  (s.payload, s.padding) = pack (s.encodedBits s.data) ∧ s.nbits = (s.encodedBits s.data).length

/-- CBUF is the container of the data (R191). -/
def Serialized (s : State) : Prop :=
  s.container = containerOf (serHeader s.padding s.table s.name) s.payload

/-- PADDING, CT, NBUF and PBUF are the four fields parsed from CBUF (R190, R195). -/
def Parsed (s : State) : Prop :=
  ∃ h hd, splitContainer s.container = some (h, s.payload) ∧ parseHeader h = some hd ∧
    s.padding = min hd.padding 8 ∧ s.name = hd.name ∧ ∀ b, s.codeAt b = Sparse.get hd.codes b

/-- The padding is in range and NBITS is what it leaves (R178). -/
def Unpacked (s : State) : Prop :=
  s.padding ≤ 7 ∧ s.padding ≤ 8 * s.plen ∧ s.nbits = 8 * s.plen - s.padding

/-- DBUF is the decoded data (R215): the bits are the codes of the data. -/
def Decoded (s : State) : Prop :=
  s.encodedBits s.data = unpack s.payload s.padding ∧ ∀ x ∈ s.data, (s.codeAt x.toNat).isSome = true

/-- The meaning of each value of STAGE (R23). -/
def StageMeaning (s : State) : Prop :=
  match s.stage with
  | .empty => True
  | .cFreq => s.Histogram
  | .cQueue => s.Histogram ∧ s.Forest ∧ 2 ≤ s.nlive ∧ s.rootV = false ∧ s.root = 0#9
  | .cTree => s.Histogram ∧ s.Forest ∧ s.TreeBuilt
  | .cCodes => s.Histogram ∧ s.CodesAssigned
  | .cPacked => s.Histogram ∧ s.CodesAssigned ∧ s.Packed
  | .cDone => s.Histogram ∧ s.CodesAssigned ∧ s.Packed ∧ s.Serialized
  | .dParsed => s.Parsed
  | .dTable => s.Parsed ∧ decodable s.table = true
  | .dUnpacked => s.Parsed ∧ decodable s.table = true ∧ s.Unpacked
  | .dDone => s.Parsed ∧ decodable s.table = true ∧ s.Unpacked ∧ s.Decoded

/-- A state of a safe run: legal, with what STAGE says is valid being valid, and a host that makes only moves
the spec gives it (R63, R64). -/
def Safe (s : State) : Prop := s.Inv ∧ s.StageMeaning ∧ ∀ m ∈ s.host, m.wf = true

end State

/-! ### Comparing states -/

/-- Every byte of every buffer reads in `t` as in `s`, but for the buffers named (R52, R69). -/
def BytesKept (s t : State) (written : List BufId) : Prop :=
  ∀ b, b ∉ written → ∀ i, t.byteAt b i = s.byteAt b i

/-- The two states agree in everything the spec specifies, PEND apart (R217): every register and array, and the
bytes of every buffer below its length. -/
def SameSpecified (s t : State) : Prop :=
  s.cfg = t.cfg ∧ s.busy = t.busy ∧ s.fault = t.fault ∧ s.err = t.err ∧ s.stage = t.stage ∧
    (∀ b, s.len b = t.len b ∧ s.bytes b = t.bytes b) ∧ s.padding = t.padding ∧ s.nbits = t.nbits ∧
    s.freq = t.freq ∧ s.node = t.node ∧ s.root = t.root ∧ s.rootV = t.rootV ∧ s.next = t.next ∧
    s.nlive = t.nlive ∧ s.ct = t.ct ∧ s.sel = t.sel

/-- The values R51 gives for reset; what R51 leaves unspecified is left open. -/
def ResetValues (s : State) : Prop :=
  s.busy = false ∧ s.fault = false ∧ s.err = .noError ∧ s.stage = .empty ∧
    s.dlen = 0 ∧ s.nlen = 0 ∧ s.clen = 0 ∧ s.plen = 0 ∧ s.padding = 0 ∧ s.nbits = 0 ∧ s.sel = 0#9 ∧
    s.root = 0#9 ∧ s.rootV = false ∧ s.next = 256 ∧ s.nlive = 0

/-- `n` times TMERGE, each at STAGE C_QUEUE (R145). -/
def MergeRuns : Nat → State → State → Prop
  | 0, s, t => s = t
  | n + 1, s, t => s.stage = .cQueue ∧ ∃ u, exec .tmerge s = .next u ∧ MergeRuns n u t

/-- The core is faulted with the error `e` (R246): the four pieces of state that fault entry sets. -/
def FaultedWith (e : Err) (s : State) : Prop :=
  s.busy = false ∧ s.fault = true ∧ s.err = e ∧ s.stage = .empty

/-- What only the platform and the host own (R32): the capacities, the host's further moves, the values it read. -/
def OutsideKept (s t : State) : Prop := t.cfg = s.cfg ∧ t.host = s.host ∧ t.answers = s.answers

/-- `u` is the state `t` with the command completed (R112): BUSY is clear and PEND unspecified; `delay` and `draws`
are the model's own. -/
def Completed (t u : State) : Prop :=
  u = { t with busy := false, pend := u.pend, delay := u.delay, draws := u.draws }

/-- A command ended in fault entry with the error `e` (R246). -/
def EndsInFault (o : Host.Outcome State Fault Refusal) (s : State) (e : Err) : Prop :=
  ∃ t, o = .next t ∧ FaultedWith e t ∧ OutsideKept s t

end Sys2Proof.Machine
end

