-- ==== Sys2Proof/Certificates/Slice0/Obligations.lean ====
section
/-!
DEFINITION. The statements for the provers. Each docstring names the rule of spec/ it formalises.
-/

open Sys2Proof Sys2Proof.Machine

/-! ### Encoding and decoding of commands -/

/-- R82: the fourteen command words, written out from the opcode table, decode to their commands. -/
def Obligations.ListedWordsDecode : Prop :=
  decode 0x00000001#32 = .ok .sreset ∧ decode 0x00000010#32 = .ok .compress ∧
  decode 0x00000011#32 = .ok .freq ∧ decode 0x00000012#32 = .ok .tinit ∧
  decode 0x00000013#32 = .ok .tmerge ∧ decode 0x00000014#32 = .ok .tbuild ∧
  decode 0x00000015#32 = .ok .assign ∧ decode 0x00000016#32 = .ok .encode ∧
  decode 0x00000017#32 = .ok .serialize ∧ decode 0x00000020#32 = .ok .decompress ∧
  decode 0x00000021#32 = .ok .parse ∧ decode 0x00000022#32 = .ok .chktab ∧
  decode 0x00000023#32 = .ok .unpack ∧ decode 0x00000024#32 = .ok .decode

/-- R82: a word selects a command exactly when it is the command's opcode zero-extended to 32 bits. -/
def Obligations.DecodesExactlyItsWord : Prop :=
  ∀ (w : Word) (i : Instr), decode w = .ok i ↔ w = (opcode i).setWidth 32

/-! ### Issue and the turn of the core -/

/-- R111: when the core's step is next (it is busy, and the host waits for it or its delay is over), a step is the
pending command run; so is the step after a command word has been placed, for every command. -/
def Obligations.CoreStepRunsPendingCommand : Prop :=
  (∀ (s : State) (i : Instr), s.busy = true → (hostWaits s = true ∨ s.delay = 0) → s.pend = opcode i →
    step s = exec i s) ∧
  ∀ (s : State) (i : Instr),
    step (s.withFetchWord 32 (encode i).toNat) = exec i (s.withFetchWord 32 (encode i).toNat)

/-- R113: the STAGE each command needs, and the start commands legal at every STAGE. -/
def Obligations.StagesCommandsNeed : Prop :=
  (∀ g, legalAt .sreset g = true ∧ legalAt .compress g = true ∧ legalAt .freq g = true ∧
    legalAt .decompress g = true ∧ legalAt .parse g = true) ∧
  (∀ g, legalAt .tinit g = true ↔ g = .cFreq) ∧ (∀ g, legalAt .tmerge g = true ↔ g = .cQueue) ∧
  (∀ g, legalAt .tbuild g = true ↔ g = .cFreq) ∧ (∀ g, legalAt .assign g = true ↔ g = .cTree) ∧
  (∀ g, legalAt .encode g = true ↔ g = .cCodes) ∧ (∀ g, legalAt .serialize g = true ↔ g = .cPacked) ∧
  (∀ g, legalAt .chktab g = true ↔ g = .dParsed) ∧ (∀ g, legalAt .unpack g = true ↔ g = .dTable) ∧
  (∀ g, legalAt .decode g = true ↔ g = .dUnpacked)

/-- R110: an idle core accepts a command that is legal at its STAGE: BUSY and PEND are set, nothing else. -/
def Obligations.LegalCommandIsAccepted : Prop :=
  ∀ (s : State) (i : Instr) (rest : List HostMove),
    s.busy = false → s.fault = false → s.host = .regWrite .word 0 (encode i) :: rest → i ≠ .sreset →
    legalAt i s.stage = true →
    ∃ delay draws,
      step s = .next { s with host := rest, busy := true, pend := opcode i, delay := delay, draws := draws }

/-- R244: a word that is no command, written to CMD of an idle core, is the fault IllegalCommand in that step. -/
def Obligations.IllegalWordFaults : Prop :=
  ∀ (s : State) (w : Word) (rest : List HostMove),
    s.busy = false → s.fault = false → s.host = .regWrite .word 0 w :: rest → (∀ i, w ≠ encode i) →
    ∃ t, step s = .next t ∧ FaultedWith .illegalCmd t ∧ OutsideKept { s with host := rest } t

/-- R245: a stage command at another STAGE than it needs is the fault SequenceError in the step of the write. -/
def Obligations.WrongStageFaults : Prop :=
  ∀ (s : State) (i : Instr) (rest : List HostMove),
    s.busy = false → s.fault = false → s.host = .regWrite .word 0 (encode i) :: rest →
    legalAt i s.stage = false →
    ∃ t, step s = .next t ∧ FaultedWith .sequence t ∧ OutsideKept { s with host := rest } t

/-! ### Reset and fault entry -/

/-- R115: SRESET, written to CMD when the host's move is next, gives every register its reset value, whatever BUSY,
FAULT and STAGE are. -/
def Obligations.SresetWriteResets : Prop :=
  ∀ (s : State) (rest : List HostMove),
    s.host = .regWrite .word 0 0x00000001#32 :: rest → (s.busy = true → s.delay ≠ 0) →
    ∃ t, step s = .next t ∧ ResetValues t ∧ OutsideKept { s with host := rest } t

/-- R115: SRESET completes in every state, with the reset values of R51. -/
def Obligations.SresetCompletes : Prop :=
  ∀ s : State, ∃ t, exec .sreset s = .next t ∧ ResetValues t ∧ OutsideKept s t

/-- R271: hardware reset and SRESET have the same effect. -/
def Obligations.HardwareResetIsSreset : Prop :=
  ∀ (s : State) (rest : List HostMove), s.host = .reset :: rest → (s.busy = true → s.delay ≠ 0) →
    step s = exec .sreset { s with host := rest, delay := s.delay - 1 }

/-- R51: hardware reset and SRESET leave the reset values, and the registers that show them read so (R272). -/
def Obligations.ResetLeavesTheResetValues : Prop :=
  ResetValues State.reset ∧ (∀ s : State, ∃ t, exec .sreset s = .next t ∧ ResetValues t) ∧
    ∀ s : State, ResetValues s →
      readReg s 0x04 = 0x00000000#32 ∧ readReg s 0x30 = 0x00040000#32 ∧
        ∀ off, off ∈ [0x08, 0x0C, 0x10, 0x14, 0x18, 0x1C, 0x20] → readReg s off = 0x00000000#32

/-- R246: fault entry sets BUSY, FAULT, ERR and STAGE, and STATUS then reads 0x02 + 16 times the code. -/
def Obligations.FaultEntrySetsFlags : Prop :=
  ∀ (e : Err) (s : State), FaultedWith e (faultEntry e s) ∧ OutsideKept s (faultEntry e s) ∧
    statusWord (faultEntry e s) = 0x00000002#32 + 16#32 * e.code.setWidth 32

/-- R247, R253, R67: while the core is busy or faulted, every move of the host but SRESET and hardware reset leaves
the core's state as it is; only the host's own list, what it read and the model's counters change. -/
def Obligations.BusyOrFaultedIgnoresTheHost : Prop :=
  ∀ (s : State) (m : HostMove) (rest : List HostMove),
    (s.busy = true ∧ s.delay ≠ 0 ∨ s.busy = false ∧ s.fault = true) → s.host = m :: rest → m.wf = true →
    m ≠ .reset → (s.busy = true → m ≠ .wait) → (∀ v, m = .regWrite .word 0 v → v ≠ 0x00000001#32) →
    ∃ t, step s = .next t ∧
      t = { s with host := rest, delay := s.delay - 1, answers := t.answers, draws := t.draws }

/-! ### The host's registers and buffers -/

/-- R35: a read of STATUS has no side effect and is exact in every state: the fields are where R35 puts them. -/
def Obligations.StatusReadIsExact : Prop :=
  ∀ (s : State) (rest : List HostMove), s.host = .regRead .word 0x04 :: rest → (s.busy = true → s.delay ≠ 0) →
    ∃ w, step s = .next { s with host := rest, delay := s.delay - 1, answers := s.answers ++ [w] } ∧
      w.getLsbD 0 = s.busy ∧ w.getLsbD 1 = s.fault ∧ w.extractLsb' 2 2 = 0#2 ∧
      w.extractLsb' 4 4 = s.err.code ∧ (s.FlagsWf → s.fault = false → w.extractLsb' 4 4 = 0#4) ∧
      w.extractLsb' 8 4 = s.stage.code ∧ w.extractLsb' 12 20 = 0#20

/-- R36, R37, R38: a write to a length register is taken when the core is idle and the length fits, and rewinds
STAGE; otherwise it is ignored. -/
def Obligations.LengthWrites : Prop :=
  ∀ (s : State) (b : BufId) (off : Nat) (v : Word) (rest : List HostMove),
    s.host = .regWrite .word off v :: rest → (s.busy = true → s.delay ≠ 0) →
    (b, off) ∈ [(BufId.dbuf, 0x08), (.nbuf, 0x0C), (.cbuf, 0x10)] →
    step s = .next
      (if s.busy = false ∧ s.fault = false ∧ v.toNat ≤ capacity s.cfg b then
        { (s.setLen b v.toNat) with host := rest, delay := s.delay - 1, stage := .empty }
       else { s with host := rest, delay := s.delay - 1 })

/-- R42: a write to SEL is taken when the core is idle, keeps bits [8:0] and leaves STAGE alone; otherwise it is
ignored. -/
def Obligations.SelWrites : Prop :=
  ∀ (s : State) (v : Word) (rest : List HostMove),
    s.host = .regWrite .word 0x20 v :: rest → (s.busy = true → s.delay ≠ 0) →
    ∃ n : BitVec 9, step s = .next { s with host := rest, delay := s.delay - 1, sel := n } ∧
      n.toNat = if s.busy = false ∧ s.fault = false then v.toNat % 512 else s.sel.toNat

/-- R33, R49, R253: a write to a read-only register or a reserved offset changes nothing. -/
def Obligations.OtherRegisterWritesAreIgnored : Prop :=
  ∀ (s : State) (off : Nat) (v : Word) (rest : List HostMove),
    s.host = .regWrite .word off v :: rest → (s.busy = true → s.delay ≠ 0) → off % 4 = 0 →
    off ∉ [0x00, 0x08, 0x0C, 0x10, 0x20] → step s = .next { s with host := rest, delay := s.delay - 1 }

/-- R65: an idle core stores a byte of the host at an index below the capacity of DBUF, NBUF or CBUF and rewinds
STAGE: that byte reads as written, every other byte of every buffer as before, every register is kept. In every other
case the write is ignored. -/
def Obligations.HostByteWrites : Prop :=
  ∀ (s : State) (b : BufId) (i : Nat) (v : Byte) (rest : List HostMove),
    s.host = .bufWrite .byte b i v :: rest → (s.busy = true → s.delay ≠ 0) →
    (s.busy = false ∧ s.fault = false ∧ b ≠ .pbuf ∧ i < capacity s.cfg b →
      ∃ t, step s = .next t ∧ (∀ c j, t.byteAt c j = if c = b ∧ j = i then v else s.byteAt c j) ∧
        t = { s with host := rest, delay := s.delay - 1, stage := .empty, dbuf := t.dbuf, nbuf := t.nbuf,
                     cbuf := t.cbuf }) ∧
    (¬(s.busy = false ∧ s.fault = false ∧ b ≠ .pbuf ∧ i < capacity s.cfg b) →
      step s = .next { s with host := rest, delay := s.delay - 1 })

/-- R66: a host read of a buffer returns the byte stored there, or 0 at or beyond the capacity, when the core is idle,
and some byte otherwise; it changes no state of the core. -/
def Obligations.HostByteReads : Prop :=
  ∀ (s : State) (b : BufId) (i : Nat) (rest : List HostMove),
    s.host = .bufRead .byte b i :: rest → (s.busy = true → s.delay ≠ 0) →
    ∃ (v : Byte) (draws : Nat),
      step s = .next { s with host := rest, delay := s.delay - 1, answers := s.answers ++ [v.setWidth 32],
                              draws := draws } ∧
      (s.busy = false → s.fault = false → v = if i < capacity s.cfg b then s.byteAt b i else 0x00#8)

/-- R63, R64: any other width or alignment of a host access is refused. -/
def Obligations.OtherAccessesAreRefused : Prop :=
  ∀ (s : State) (m : HostMove) (rest : List HostMove),
    s.host = m :: rest → (s.busy = true → s.delay ≠ 0) → m.wf = false →
    step s = .refused .registerAccess ∨ step s = .refused .bufferAccess

/-- R39 to R47, R49: what the host's register reads return in an idle core, field by field; a read changes nothing. -/
def Obligations.ReadWindows : Prop :=
  (∀ (s : State) (off : Nat) (rest : List HostMove),
    s.busy = false → s.fault = false → s.host = .regRead .word off :: rest → off % 4 = 0 →
    step s = .next { s with host := rest, delay := s.delay - 1, answers := s.answers ++ [readReg s off] }) ∧
  ∀ s : State,
    (readReg s 0x08 = BitVec.ofNat 32 s.dlen ∧ readReg s 0x0C = BitVec.ofNat 32 s.nlen ∧
      readReg s 0x10 = BitVec.ofNat 32 s.clen ∧ readReg s 0x14 = BitVec.ofNat 32 s.plen ∧
      readReg s 0x18 = BitVec.ofNat 32 s.padding ∧ readReg s 0x1C = BitVec.ofNat 32 s.nbits ∧
      readReg s 0x20 = s.sel.setWidth 32) ∧
    (∀ off, off ∈ [0x00, 0x38, 0x3C] ∨ 0x60 ≤ off → readReg s off = 0#32) ∧
    readReg s 0x24 = BitVec.ofNat 32 (s.freqAt (s.sel.toNat % 256)) ∧
    (∀ n, s.sel.toNat ≤ 510 → s.nodeAt s.sel.toNat = some n →
      readReg s 0x28 = BitVec.ofNat 32 n.freq ∧ (readReg s 0x2C).getLsbD 0 = true ∧
      (readReg s 0x2C).getLsbD 1 = n.live ∧ (readReg s 0x2C).getLsbD 2 = n.leaf ∧
      (readReg s 0x2C).extractLsb' 3 8 = n.sym ∧ (readReg s 0x2C).extractLsb' 11 9 = n.left ∧
      (readReg s 0x2C).extractLsb' 20 9 = n.right ∧ (readReg s 0x2C).extractLsb' 29 3 = 0#3) ∧
    (510 < s.sel.toNat ∨ s.nodeAt s.sel.toNat = none →
      readReg s 0x28 = 0#32 ∧ readReg s 0x2C = 0#32) ∧
    ((readReg s 0x30).extractLsb' 0 9 = s.root ∧ (readReg s 0x30).getLsbD 9 = s.rootV ∧
      (readReg s 0x30).extractLsb' 10 9 = BitVec.ofNat 9 s.next ∧
      (readReg s 0x30).extractLsb' 19 9 = BitVec.ofNat 9 s.nlive ∧ (readReg s 0x30).extractLsb' 28 4 = 0#4) ∧
    (∀ c, s.codeAt (s.sel.toNat % 256) = some c →
      (readReg s 0x34).getLsbD 0 = true ∧ (readReg s 0x34).extractLsb' 1 8 = BitVec.ofNat 8 c.length ∧
      (readReg s 0x34).extractLsb' 9 23 = 0#23) ∧
    (s.codeAt (s.sel.toNat % 256) = none → readReg s 0x34 = 0#32)

/-- R48: the code window shows the first code bit at bit 31 of CT_BITS0, bits the code does not have as 0. -/
def Obligations.CodeWindowShowsTheCode : Prop :=
  ∀ (s : State) (w j : Nat), w < 8 → j < 32 →
    (readReg s (0x40 + 4 * w)).getLsbD (31 - j) =
      match s.codeAt (s.sel.toNat % 256) with
      | some c => c.getD (32 * w + j) false
      | none => false

/-! ### The compress chain -/

/-- R130, R131: FREQ completes with the histogram of the data, whose counts add up to DLEN; nothing else changes. -/
def Obligations.FreqCountsTheData : Prop :=
  ∀ s : State, s.dlen ≤ s.cfg.dMax →
    ∃ u, exec .freq s = .next u ∧ Completed { s with freq := u.freq, stage := .cFreq } u ∧
      (∀ b, b < 256 → u.freqAt b = s.data.count (BitVec.ofNat 8 b)) ∧
      ((List.range 256).map u.freqAt).sum = s.dlen

/-- R140, R146, R147: TINIT completes with one live leaf for each byte value that occurs and no other node; with one
value its leaf is the root, with none there is no root, with more the queue is entered. -/
def Obligations.TinitMakesTheLeaves : Prop :=
  ∀ s : State, s.stage = .cFreq →
    ∃ u, exec .tinit s = .next u ∧
      Completed { s with node := u.node, next := 256, nlive := u.nlive, root := u.root, rootV := u.rootV,
                         stage := u.stage } u ∧
      (∀ i, u.nodeAt i =
        if i < 256 ∧ 0 < s.freqAt i then
          some ⟨true, true, BitVec.ofNat 8 i, s.freqAt i, 0#9, 0#9⟩
        else none) ∧
      u.nlive = ((List.range 256).filter fun b => 0 < s.freqAt b).length ∧
      (u.nlive = 0 → u.rootV = false ∧ u.root = 0#9 ∧ u.stage = .cTree) ∧
      (u.nlive = 1 → u.rootV = true ∧ u.root.toNat < 256 ∧ 0 < s.freqAt u.root.toNat ∧ u.stage = .cTree) ∧
      (2 ≤ u.nlive → u.rootV = false ∧ u.root = 0#9 ∧ u.stage = .cQueue)

/-- R141, R142: TMERGE takes the live node with the smallest key, then the smallest of the others, out of the queue
and puts their combination in, the first as left child; nothing else changes. -/
def Obligations.TmergeCombinesTheTwoSmallest : Prop :=
  ∀ (s : State) (a b : Nat) (na nb : Node),
    s.stage = .cQueue → Sparse.wf s.node → s.next ≤ 510 → a ≠ b →
    s.nodeAt a = some na → na.live = true → s.nodeAt b = some nb → nb.live = true →
    (∀ j m, s.nodeAt j = some m → m.live = true → j ≠ a →
      na.freq < m.freq ∨ (na.freq = m.freq ∧ a < j)) →
    (∀ j m, s.nodeAt j = some m → m.live = true → j ≠ a → j ≠ b →
      nb.freq < m.freq ∨ (nb.freq = m.freq ∧ b < j)) →
    ∃ u, exec .tmerge s = .next u ∧
      Completed { s with
        node := u.node
        next := s.next + 1
        nlive := s.nlive - 1
        root := if s.nlive - 1 = 1 then BitVec.ofNat 9 s.next else s.root
        rootV := if s.nlive - 1 = 1 then true else s.rootV
        stage := if s.nlive - 1 = 1 then .cTree else .cQueue } u ∧
      ∀ i, u.nodeAt i =
        if i = s.next then
          some ⟨true, false, 0#8, na.freq + nb.freq, BitVec.ofNat 9 a, BitVec.ofNat 9 b⟩
        else if i = a then some { na with live := false }
        else if i = b then some { nb with live := false }
        else s.nodeAt i

/-- R143: the invariants of the tree store hold after TINIT and after every TMERGE. -/
def Obligations.TreeStoreInvariants : Prop :=
  (∀ s : State, s.stage = .cFreq → s.Histogram →
    ∃ u, exec .tinit s = .next u ∧ u.Forest ∧ (u.stage = .cQueue → 2 ≤ u.nlive) ∧
      (u.stage = .cTree → u.TreeBuilt)) ∧
  ∀ s : State, s.stage = .cQueue → s.ArraysWf → s.Histogram → s.Forest → 2 ≤ s.nlive → s.rootV = false →
    ∃ u, exec .tmerge s = .next u ∧ u.Forest ∧ (u.stage = .cQueue → 2 ≤ u.nlive) ∧
      (u.stage = .cTree → u.nlive = 1 ∧ u.rootV = true ∧ u.live = [u.root.toNat])

/-- R144, R145: TBUILD completes, and ends in the state that TINIT followed by TMERGE until STAGE is C_TREE ends in;
when two values or more occur, the merges are one fewer than the values. -/
def Obligations.TbuildIsTinitAndMerges : Prop :=
  ∀ s : State, s.stage = .cFreq →
    ∃ t u v, exec .tbuild s = .next t ∧ exec .tinit s = .next u ∧
      MergeRuns (((List.range 256).filter fun b => 0 < s.freqAt b).length - 1) u v ∧
      v.stage = .cTree ∧ SameSpecified t v ∧
      Completed { s with node := t.node, next := t.next, nlive := t.nlive, root := t.root, rootV := t.rootV,
                         stage := .cTree } t

/-- R160 to R163, R165: ASSIGN of a built tree completes, gives each leaf the bit string of the walk to it, "0" to a
root that is a leaf and no code without a root, and discards the tree; nothing else changes. -/
def Obligations.AssignWritesThePaths : Prop :=
  ∀ s : State, s.stage = .cTree → s.ArraysWf → s.Histogram → s.Forest → s.TreeBuilt →
    ∃ u, exec .assign s = .next u ∧
      Completed { s with ct := u.ct, node := [], root := 0#9, rootV := false, next := 256, nlive := 0,
                         stage := .cCodes } u ∧
      (s.rootV = false → ∀ b, u.codeAt b = none) ∧
      (∀ n, s.rootV = true → s.nodeAt s.root.toNat = some n → n.leaf = true →
        ∀ b, u.codeAt b = if b = n.sym.toNat then some [false] else none) ∧
      (∀ n, s.rootV = true → s.nodeAt s.root.toNat = some n → n.leaf = false →
        ∀ b c, u.codeAt b = some c ↔ s.followPath s.root.toNat c = some b)

/-- R164: the table ASSIGN leaves has a code for exactly the byte values that occur, none empty, none a prefix of
another, none over 255 bits. -/
def Obligations.AssignedTableIsPrefixFree : Prop :=
  ∀ s : State, s.stage = .cTree → s.ArraysWf → s.Histogram → s.Forest → s.TreeBuilt →
    ∃ u, exec .assign s = .next u ∧
      (∀ b, b < 256 → ((u.codeAt b).isSome = true ↔ 0 < s.freqAt b)) ∧
      (∀ b c, u.codeAt b = some c → c ≠ [] ∧ c.length ≤ 255) ∧
      ∀ b b' c c', u.codeAt b = some c → u.codeAt b' = some c' → b ≠ b' → ¬ c <+: c'

/-- R87, R171, R172: ENCODE of data whose bytes all have a code completes with the packed payload: the codes of the
data in order, most significant bit first, zero bits up to the next byte; no other buffer and no other register
changes. -/
def Obligations.EncodePacksTheCodes : Prop :=
  ∀ s : State, s.stage = .cCodes → s.dlen ≤ s.cfg.dMax →
    (∀ x ∈ s.data, (s.codeAt x.toNat).isSome = true) → (s.encodedBits s.data).length ≤ 8 * s.cfg.cMax →
    ∃ u, exec .encode s = .next u ∧
      Completed { s with pbuf := u.pbuf, plen := u.plen, padding := u.padding, nbits := u.nbits,
                         stage := .cPacked } u ∧
      BytesKept s u [.pbuf] ∧ u.nbits = (s.encodedBits s.data).length ∧
      u.padding = (8 - u.nbits % 8) % 8 ∧ 8 * u.plen = u.nbits + u.padding ∧
      payloadBits u.payload = s.encodedBits s.data ++ List.replicate u.padding false

/-- R173: a data byte without a code ends ENCODE in the fault SequenceError. -/
def Obligations.EncodeMissFaults : Prop :=
  ∀ s : State, s.stage = .cCodes → s.dlen ≤ s.cfg.dMax → (∃ x ∈ s.data, s.codeAt x.toNat = none) →
    EndsInFault (exec .encode s) s .sequence

/-- R170, R171: packing a bit sequence with the packer's pushes and flush gives the payload of R87. -/
def Obligations.PackerMeetsThePayloadFormat : Prop :=
  ∀ x : Bits, (Packer.start.pushAll x).nbits = x.length ∧ (pack x).2 = (8 - x.length % 8) % 8 ∧
    8 * (pack x).1.length = x.length + (pack x).2 ∧
    payloadBits (pack x).1 = x ++ List.replicate (pack x).2 false

/-- R88, R191: SERIALIZE completes with header, one 0x00 byte and payload in CBUF; nothing else changes. -/
def Obligations.SerializeWritesTheContainer : Prop :=
  ∀ s : State, s.stage = .cPacked → s.LengthsFit →
    (serHeader s.padding s.table s.name).length + 1 + s.plen ≤ s.cfg.cMax →
    ∃ u, exec .serialize s = .next u ∧
      Completed { s with cbuf := u.cbuf, clen := u.clen, stage := .cDone } u ∧ BytesKept s u [.cbuf] ∧
      u.container = serHeader s.padding s.table s.name ++ [0x00#8] ++ s.payload

/-- R93: no byte of an emitted header is below 0x20, so none is the delimiter. -/
def Obligations.HeaderHasNoControlByte : Prop :=
  ∀ (p : Nat) (t : List (Nat × Bits)) (nm : List Byte), ∀ x ∈ serHeader p t nm, 0x20 ≤ x.toNat

/-- R98: the length of a header with a one-digit padding, and its bound. -/
def Obligations.HeaderLength : Prop :=
  ∀ (p : Nat) (t : List (Nat × Bits)) (nm : List Byte), p ≤ 7 →
    (serHeader p t nm).length = 46 + (entries t).length + (esc nm).length ∧
    (∀ b c, (entry b c).length = (dec b).length + c.length + 5) ∧ (serHeader p [] []).length = 46 ∧
    (t.length ≤ 256 → (∀ e ∈ t, e.1 ≤ 255 ∧ e.2.length ≤ 255) →
      (serHeader p t nm).length ≤ 67629 + 6 * nm.length)

/-! ### The decompress chain -/

/-- R94, R95, R96, R97: the header parser accepts exactly the texts of R91 with any padding integer, any byte values as
keys without repetition in any order, and any codes and name, and reads back what they spell. -/
def Obligations.ParserAcceptsExactlyTheHeaders : Prop :=
  ∀ (h : List Byte) (hd : Header), parseHeader h = some hd ↔
    h = serHeader hd.padding hd.codes hd.name ∧ (∀ e ∈ hd.codes, e.1 ≤ 255) ∧ (hd.codes.map Prod.fst).Nodup

/-- R194, R195, R196: PARSE of a container that fits completes with the four fields; nothing else changes. -/
def Obligations.ParseReadsTheFourFields : Prop :=
  ∀ (s : State) (v : Nat) (t : List (Nat × Bits)) (nm p : List Byte),
    s.clen ≤ s.cfg.cMax → s.container = serHeader v t nm ++ [0x00#8] ++ p →
    (∀ e ∈ t, e.1 ≤ 255 ∧ e.2.length ≤ 255) → (t.map Prod.fst).Nodup → nm.length ≤ s.cfg.nMax →
    ∃ u, exec .parse s = .next u ∧
      Completed { s with padding := min v 8, ct := u.ct, nbuf := u.nbuf, nlen := u.nlen, pbuf := u.pbuf,
                         plen := u.plen, stage := .dParsed } u ∧
      BytesKept s u [.nbuf, .pbuf] ∧ u.name = nm ∧ u.payload = p ∧
      ∀ b c, u.codeAt b = some c ↔ (b, c) ∈ t

/-- R195, R228: the faults of PARSE in their order: no 0x00 byte, a header region that is not well formed, a code or a
name that does not fit. -/
def Obligations.ParseFaults : Prop :=
  ∀ s : State, s.clen ≤ s.cfg.cMax →
    (0x00#8 ∉ s.container → EndsInFault (exec .parse s) s .fmtNoDelim ∧
      EndsInFault (exec .decompress s) s .fmtNoDelim) ∧
    ∀ h p, s.container = h ++ [0x00#8] ++ p → 0x00#8 ∉ h →
      (parseHeader h = none → EndsInFault (exec .parse s) s .fmtHeader) ∧
      ∀ hd, parseHeader h = some hd →
        ((∃ e ∈ hd.codes, 255 < e.2.length) ∨ s.cfg.nMax < hd.name.length) →
        EndsInFault (exec .parse s) s .capacity

/-- R210, R211: CHKTAB completes and writes nothing but flags when no code is empty and none is a prefix of another
entry's code, and is the fault bad code table otherwise. -/
def Obligations.ChktabPassesDecodableTables : Prop :=
  ∀ s : State, s.stage = .dParsed →
    ((∀ b c, b < 256 → s.codeAt b = some c → c ≠ []) ∧
      (∀ b b' c c', b < 256 → b' < 256 → b ≠ b' → s.codeAt b = some c → s.codeAt b' = some c' → ¬ c <+: c') →
      ∃ u, exec .chktab s = .next u ∧ Completed { s with stage := .dTable } u) ∧
    (¬((∀ b c, b < 256 → s.codeAt b = some c → c ≠ []) ∧
      (∀ b b' c c', b < 256 → b' < 256 → b ≠ b' → s.codeAt b = some c → s.codeAt b' = some c' → ¬ c <+: c')) →
      EndsInFault (exec .chktab s) s .fmtTable)

/-- R178: UNPACK completes with NBITS when the padding is in range and fits the payload, and is the fault bad padding
otherwise. -/
def Obligations.UnpackCountsTheBits : Prop :=
  ∀ s : State, s.stage = .dTable →
    (s.padding ≤ 7 ∧ s.padding ≤ 8 * s.plen →
      ∃ u, exec .unpack s = .next u ∧
        Completed { s with nbits := 8 * s.plen - s.padding, stage := .dUnpacked } u) ∧
    (¬(s.padding ≤ 7 ∧ s.padding ≤ 8 * s.plen) → EndsInFault (exec .unpack s) s .fmtPadding)

/-- R177: bit `i` of the expanded payload is bit `7 - (i mod 8)` of byte `i div 8`. -/
def Obligations.PayloadBitOrder : Prop :=
  ∀ (p : List Byte) (i : Nat), (payloadBits p)[i]? = payloadBit p i

/-- R181: packing then unpacking is the identity on bit sequences. -/
def Obligations.UnpackUndoesPack : Prop :=
  ∀ x : Bits, (pack x).2 ≤ 7 ∧ (pack x).2 ≤ 8 * (pack x).1.length ∧ unpack (pack x).1 (pack x).2 = x

/-- R214, R215: DECODE of the codes of some bytes under a decodable table completes with those bytes in DBUF; nothing
else changes. -/
def Obligations.DecodeRecoversTheBytes : Prop :=
  ∀ (s : State) (x : List Byte), s.stage = .dUnpacked → s.plen ≤ s.cfg.cMax → s.nbits ≤ 8 * s.plen →
    decodable s.table = true → (∀ y ∈ x, (s.codeAt y.toNat).isSome = true) → x.length ≤ s.cfg.dMax →
    (payloadBits s.payload).take s.nbits = s.encodedBits x →
    ∃ u, exec .decode s = .next u ∧
      Completed { s with dbuf := u.dbuf, dlen := u.dlen, stage := .dDone } u ∧ BytesKept s u [.dbuf] ∧
      u.data = x

/-- R214, R222: DECODE is the fault incomplete code sequence when bits are left over in which no code begins, and the
fault CapacityError when it decodes more bytes than DBUF holds. -/
def Obligations.DecodeFaults : Prop :=
  ∀ (s : State) (x : List Byte) (r : Bits), s.stage = .dUnpacked → s.plen ≤ s.cfg.cMax →
    s.nbits ≤ 8 * s.plen → decodable s.table = true → (∀ y ∈ x, (s.codeAt y.toNat).isSome = true) →
    (payloadBits s.payload).take s.nbits = s.encodedBits x ++ r →
    (x.length ≤ s.cfg.dMax → r ≠ [] → (∀ b c, s.codeAt b = some c → b < 256 → ¬ c <+: r) →
      EndsInFault (exec .decode s) s .decIncomplete) ∧
    (s.cfg.dMax < x.length → EndsInFault (exec .decode s) s .capacity)

/-! ### The composite commands and the properties of the whole machine -/

/-- R216, R254: COMPRESS completes on every input that fits: it never faults, and leaves data and name alone. -/
def Obligations.CompressNeverFaults : Prop :=
  ∀ s : State, s.cfg.ok → s.LengthsFit →
    ∃ u, exec .compress s = .next u ∧ u.stage = .cDone ∧ u.fault = s.fault ∧ u.err = s.err ∧
      u.LengthsFit ∧ BytesKept s u [.pbuf, .cbuf] ∧
      Completed { s with freq := u.freq, node := [], root := 0#9, rootV := false, next := 256, nlive := 0,
                         ct := u.ct, pbuf := u.pbuf, plen := u.plen, padding := u.padding, nbits := u.nbits,
                         cbuf := u.cbuf, clen := u.clen, stage := .cDone } u

/-- R217: COMPRESS ends in the same state as FREQ, TBUILD, ASSIGN, ENCODE, SERIALIZE, one after the other. -/
def Obligations.CompressEqualsItsStages : Prop :=
  ∀ s : State, s.cfg.ok → s.LengthsFit →
    ∃ u a b c d e, exec .compress s = .next u ∧ exec .freq s = .next a ∧ exec .tbuild a = .next b ∧
      exec .assign b = .next c ∧ exec .encode c = .next d ∧ exec .serialize d = .next e ∧ SameSpecified u e

/-- R218, R221: DECOMPRESS of a container with a decodable table, a padding in range and a payload of whole codes
completes with the data and the name, whoever made the container; CBUF is left alone. -/
def Obligations.DecompressRecoversDataAndName : Prop :=
  ∀ (s : State) (v : Nat) (t : List (Nat × Bits)) (nm p x : List Byte),
    s.clen ≤ s.cfg.cMax → s.container = serHeader v t nm ++ [0x00#8] ++ p →
    (∀ e ∈ t, e.1 ≤ 255 ∧ e.2.length ≤ 255) → (t.map Prod.fst).Nodup → nm.length ≤ s.cfg.nMax →
    decodable t = true → v ≤ 7 → v ≤ 8 * p.length → x.length ≤ s.cfg.dMax →
    (∀ y ∈ x, (Sparse.get t y.toNat).isSome = true) →
    unpack p v = (x.flatMap fun y => (Sparse.get t y.toNat).getD []) →
    ∃ u, exec .decompress s = .next u ∧ u.data = x ∧ u.name = nm ∧ BytesKept s u [.dbuf, .nbuf, .pbuf] ∧
      Completed { s with padding := v, ct := u.ct, nbuf := u.nbuf, nlen := u.nlen, pbuf := u.pbuf,
                         plen := u.plen, nbits := 8 * p.length - v, dbuf := u.dbuf, dlen := u.dlen,
                         stage := .dDone } u

/-- R219: DECOMPRESS ends in the same state as PARSE, CHKTAB, UNPACK, DECODE one after the other, and faults with the
error of the first of them that faults. -/
def Obligations.DecompressEqualsItsStages : Prop :=
  ∀ s : State, s.fault = false → s.clen ≤ s.cfg.cMax →
    ∃ u a, exec .decompress s = .next u ∧ exec .parse s = .next a ∧
      (a.fault = true → FaultedWith a.err u) ∧
      (a.fault = false → ∃ b, exec .chktab a = .next b ∧
        (b.fault = true → FaultedWith b.err u) ∧
        (b.fault = false → ∃ c, exec .unpack b = .next c ∧
          (c.fault = true → FaultedWith c.err u) ∧
          (c.fault = false → ∃ d, exec .decode c = .next d ∧
            (d.fault = true → FaultedWith d.err u) ∧ (d.fault = false → SameSpecified u d))))

/-- R223: the round trip: COMPRESS and then DECOMPRESS give back the data and the name, without a fault, on this core
and on any other with capacities at least as large that holds the same container. -/
def Obligations.RoundTripRecoversDataAndName : Prop :=
  ∀ s : State, s.cfg.ok → s.LengthsFit →
    ∃ t, exec .compress s = .next t ∧ t.LengthsFit ∧
      ∀ r : State, r.container = t.container → r.LengthsFit → s.cfg.dMax ≤ r.cfg.dMax →
        s.cfg.nMax ≤ r.cfg.nMax →
        ∃ u, exec .decompress r = .next u ∧ u.fault = r.fault ∧ u.err = r.err ∧ u.stage = .dDone ∧
          u.data = s.data ∧ u.name = s.name

/-- R224: the empty input: padding 0, no code, an empty payload; the delimiter is the last byte of the container, which
decompresses to the empty data and the same name. -/
def Obligations.EmptyInputCompresses : Prop :=
  ∀ s : State, s.cfg.ok → s.LengthsFit → s.dlen = 0 →
    ∃ u, exec .compress s = .next u ∧ u.padding = 0 ∧ u.nbits = 0 ∧ u.plen = 0 ∧ (∀ b, u.codeAt b = none) ∧
      u.container = serHeader 0 [] s.name ++ [0x00#8] ∧
      ∃ v, exec .decompress u = .next v ∧ v.stage = .dDone ∧ v.data = [] ∧ v.name = s.name

/-- R146, R162, R175, R225: one repeated byte value has the one-bit code "0", one bit for each occurrence, and a
payload of zero bytes. -/
def Obligations.OneByteValueCompresses : Prop :=
  ∀ (s : State) (x : Byte) (n : Nat), s.cfg.ok → s.LengthsFit → 0 < n → s.data = List.replicate n x →
    ∃ u, exec .compress s = .next u ∧ (∀ b, u.codeAt b = if b = x.toNat then some [false] else none) ∧
      u.nbits = n ∧ u.padding = (8 - n % 8) % 8 ∧ u.payload = List.replicate ((n + 7) / 8) 0x00#8

/-- R227: what DECOMPRESS makes of a container of COMPRESS whose last byte is cut off: bad padding, an incomplete code
sequence, or a proper prefix of the data; without a payload byte, no delimiter. -/
def Obligations.TruncatedContainerOutcome : Prop :=
  ∀ s t : State, s.cfg.ok → s.LengthsFit → exec .compress s = .next t →
    (t.plen = 0 → EndsInFault (exec .decompress { t with clen := t.clen - 1 }) t .fmtNoDelim) ∧
    (t.plen = 1 ∧ 0 < t.padding →
      EndsInFault (exec .decompress { t with clen := t.clen - 1 }) t .fmtPadding) ∧
    (1 ≤ t.plen → ¬(t.plen = 1 ∧ 0 < t.padding) →
      (∀ j, j ≤ s.dlen → (t.encodedBits (s.data.take j)).length = t.nbits - 8 →
        ∃ u, exec .decompress { t with clen := t.clen - 1 } = .next u ∧ u.stage = .dDone ∧
          u.data = s.data.take j ∧ j < s.dlen) ∧
      ((∀ j, j ≤ s.dlen → (t.encodedBits (s.data.take j)).length ≠ t.nbits - 8) →
        EndsInFault (exec .decompress { t with clen := t.clen - 1 }) t .decIncomplete))

/-- R229: COMPRESS is a function of data and name alone: on any two instances and whatever ran before, the same data and
name give the same container. -/
def Obligations.CompressDependsOnDataAndNameAlone : Prop :=
  ∀ s s' : State, s.cfg.ok → s'.cfg.ok → s.LengthsFit → s'.LengthsFit → s.data = s'.data → s.name = s'.name →
    ∃ u u', exec .compress s = .next u ∧ exec .compress s' = .next u' ∧ u.container = u'.container

/-- R148: optimality: no assignment of prefix-free codes to two byte values or more encodes the data in fewer bits than
COMPRESS does. -/
def Obligations.CompressIsOptimal : Prop :=
  ∀ (s : State) (code : Byte → Bits), s.cfg.ok → s.LengthsFit →
    (∃ x ∈ s.data, ∃ y ∈ s.data, x ≠ y) →
    (∀ x ∈ s.data, ∀ y ∈ s.data, x ≠ y → ¬ code x <+: code y) →
    ∃ u, exec .compress s = .next u ∧ u.nbits ≤ (s.data.map fun x => (code x).length).sum

/-! ### Frames (R52, R69) -/

/-- R52, R69: the commands that reach no buffer but to read it leave every byte of every buffer, every length register and
every register outside their own list alone. -/
def Obligations.CommandsThatStoreNothing : Prop :=
  ∀ (i : Instr) (s t : State),
    i ∈ [Instr.freq, .tinit, .tmerge, .tbuild, .assign, .chktab, .unpack] → exec i s = .next t → t.fault = false →
    BytesKept s t [] ∧
      t = { s with
        freq := if i = .freq then t.freq else s.freq
        node := if i ∈ [.tinit, .tmerge, .tbuild, .assign] then t.node else s.node
        root := if i ∈ [.tinit, .tmerge, .tbuild, .assign] then t.root else s.root
        rootV := if i ∈ [.tinit, .tmerge, .tbuild, .assign] then t.rootV else s.rootV
        next := if i ∈ [.tinit, .tmerge, .tbuild, .assign] then t.next else s.next
        nlive := if i ∈ [.tinit, .tmerge, .tbuild, .assign] then t.nlive else s.nlive
        ct := if i = .assign then t.ct else s.ct
        nbits := if i = .unpack then t.nbits else s.nbits
        stage := t.stage, busy := false, pend := t.pend, delay := t.delay, draws := t.draws }

/-- R52, R69: the commands that store to a buffer leave every byte of every other buffer, and every register outside
their own list, alone; in a buffer they store to, the bytes below the new length are what they stored and the others
are unspecified. -/
def Obligations.CommandsThatStore : Prop :=
  ∀ (i : Instr) (s t : State),
    i ∈ [Instr.encode, .serialize, .parse, .decode, .compress, .decompress] → exec i s = .next t → t.fault = false →
    BytesKept s t
        (if i = .encode then [.pbuf] else if i = .serialize then [.cbuf] else if i = .parse then [.nbuf, .pbuf]
         else if i = .decode then [.dbuf] else if i = .compress then [.pbuf, .cbuf]
         else [.dbuf, .nbuf, .pbuf]) ∧
      t = { s with
        dbuf := if i ∈ [.decode, .decompress] then t.dbuf else s.dbuf
        dlen := if i ∈ [.decode, .decompress] then t.dlen else s.dlen
        nbuf := if i ∈ [.parse, .decompress] then t.nbuf else s.nbuf
        nlen := if i ∈ [.parse, .decompress] then t.nlen else s.nlen
        cbuf := if i ∈ [.serialize, .compress] then t.cbuf else s.cbuf
        clen := if i ∈ [.serialize, .compress] then t.clen else s.clen
        pbuf := if i ∈ [.encode, .parse, .compress, .decompress] then t.pbuf else s.pbuf
        plen := if i ∈ [.encode, .parse, .compress, .decompress] then t.plen else s.plen
        padding := if i ∈ [.encode, .parse, .compress, .decompress] then t.padding else s.padding
        nbits := if i ∈ [.encode, .compress, .decompress] then t.nbits else s.nbits
        ct := if i ∈ [.parse, .compress, .decompress] then t.ct else s.ct
        freq := if i = .compress then t.freq else s.freq
        node := if i = .compress then t.node else s.node
        root := if i = .compress then t.root else s.root
        rootV := if i = .compress then t.rootV else s.rootV
        next := if i = .compress then t.next else s.next
        nlive := if i = .compress then t.nlive else s.nlive
        stage := t.stage, busy := false, pend := t.pend, delay := t.delay, draws := t.draws }

/-! ### Invariants of every run -/

/-- The state after reset is legal and has what its STAGE says (R29, R51, R256). The model's own part: the capacities are
those of the reference instantiation (log 1, DESIGN CHOICE), memory and arrays are in the model's canonical form (log 10,
log 23). -/
def Obligations.ResetIsLegal : Prop := State.reset.Inv ∧ State.reset.StageMeaning

/-- Every step keeps the state legal, whatever the host does. From the spec: the flags (R24, R240, R256), the pending
command (R110, R113), and, while unfaulted, the lengths (R29) and the ranges of the registers and arrays (R21, R25, R27,
R28, R30). THE MODEL'S CHOICE, not the spec's: in a FAULTED state R247 leaves PADDING, NEXT, NLIVE, FREQ, NODE and CT
unspecified, and that they keep their ranges there is log 8 (DESIGN CHOICE, unsafe). The canonical form of memory and
arrays is the model's own as well (log 10, log 23). -/
def Obligations.StepKeepsLegal : Prop :=
  ∀ s t : State, s.Inv → step s = .next t → t.Inv

/-- R23: every step keeps what STAGE says is valid valid. The premise Inv holds the model's choice of log 8 (ranges in a
faulted state, where STAGE is EMPTY and says nothing). -/
def Obligations.StepKeepsStageMeaning : Prop :=
  ∀ s t : State, s.Inv → s.StageMeaning → step s = .next t → t.StageMeaning

/-- A safe machine never stops and stays safe. From the spec: a busy core has a step (R111), every command ends in
completion or fault entry (R117, R246), and the host's moves have an effect or are ignored (R110, R253). THE MODEL'S
CHOICE, not the spec's: where the core is idle or faulted, R111 gives it no step, and when the host has no move left
either, step answers the same state: log 16 (DESIGN CHOICE). Safe also holds the ranges of registers and arrays in a
faulted state, which R247 leaves unspecified: log 8 (DESIGN CHOICE, unsafe). When a busy core's step comes is log 3, and
that the model's own stops are not reached is log 13. -/
def Obligations.SafeMachineNeverStops : Prop :=
  ∀ s : State, s.Safe → ∃ t, step s = .next t ∧ t.Safe
end

