-- ==== Sys2Proof/Laws/Sparse.lean ====
section
/-!
SUPPORT. The laws of sparse arrays: read after write, the canonical form, and that two canonical arrays that
read alike are equal.
-/

namespace Sys2Proof.Machine.Sparse

variable {α : Type}

@[simp] theorem get_nil (i : Nat) : get ([] : Sparse α) i = none := rfl

theorem get_cons (k : Nat) (v : α) (m : Sparse α) (i : Nat) :
    get ((k, v) :: m) i = if i = k then some v else get m i := rfl

@[simp] theorem get_put_same (m : Sparse α) (i : Nat) (v : α) : get (put m i v) i = some v := by
  induction m with
  | nil => simp [put, get]
  | cons e m ih =>
    obtain ⟨k, w⟩ := e
    by_cases h1 : i < k
    · simp [put, h1, get]
    · by_cases h2 : i = k
      · simp [put, h2, get]
      · simp [put, h1, h2, get, ih]

theorem get_put_other (m : Sparse α) {i j : Nat} (v : α) (h : j ≠ i) :
    get (put m i v) j = get m j := by
  induction m with
  | nil => simp [put, get, h]
  | cons e m ih =>
    obtain ⟨k, w⟩ := e
    by_cases h1 : i < k
    · simp [put, h1, get, h]
    · by_cases h2 : i = k
      · subst h2; simp [put, get, h]
      · simp [put, h1, h2, get, ih]

theorem get_put (m : Sparse α) (i j : Nat) (v : α) :
    get (put m i v) j = if j = i then some v else get m j := by
  by_cases h : j = i
  · simp [h]
  · simp [h, get_put_other m v h]

/-- What a write can put in the list. -/
theorem mem_put {m : Sparse α} {i : Nat} {v : α} {e : Nat × α} (h : e ∈ put m i v) :
    e = (i, v) ∨ e ∈ m := by
  induction m with
  | nil => simpa [put] using h
  | cons a m ih =>
    obtain ⟨k, w⟩ := a
    simp only [put] at h
    split at h
    · simpa using h
    · split at h
      · rcases List.mem_cons.mp h with h | h
        · exact .inl h
        · exact .inr (List.mem_cons_of_mem _ h)
      · rcases List.mem_cons.mp h with h | h
        · exact .inr (h ▸ List.mem_cons_self)
        · exact (ih h).imp id (List.mem_cons_of_mem _)

theorem wf_cons {k : Nat} {v : α} {m : Sparse α} :
    wf ((k, v) :: m) ↔ (∀ e ∈ m, k < e.1) ∧ wf m := by
  simp [wf]

/-- A write keeps the canonical form. -/
theorem put_wf {m : Sparse α} (h : wf m) (i : Nat) (v : α) : wf (put m i v) := by
  induction m with
  | nil => simp [put, wf]
  | cons a m ih =>
    obtain ⟨k, w⟩ := a
    have hk := wf_cons.mp h
    simp only [put]
    split
    · rename_i hlt
      refine wf_cons.mpr ⟨fun e he => ?_, h⟩
      rcases List.mem_cons.mp he with he | he
      · subst he; exact hlt
      · exact hlt.trans (hk.1 e he)
    · split
      · rename_i heq
        subst heq
        exact wf_cons.mpr ⟨hk.1, hk.2⟩
      · refine wf_cons.mpr ⟨fun e he => ?_, ih hk.2⟩
        rcases mem_put he with he | he
        · subst he; omega
        · exact hk.1 e he

/-- The entries of a tabulated array. -/
theorem mem_tabulate {n : Nat} {f : Nat → Option α} {e : Nat × α} :
    e ∈ tabulate n f ↔ e.1 < n ∧ f e.1 = some e.2 := by
  obtain ⟨i, v⟩ := e
  simp only [tabulate, List.mem_filterMap, List.mem_range, Option.map_eq_some_iff]
  constructor
  · rintro ⟨a, ha, w, hw, h⟩
    cases h
    exact ⟨ha, hw⟩
  · rintro ⟨hi, hf⟩
    exact ⟨i, hi, v, hf, rfl⟩

theorem tabulate_wf (n : Nat) (f : Nat → Option α) : wf (tabulate n f) := by
  rw [wf, List.pairwise_map, tabulate, List.pairwise_filterMap]
  refine List.pairwise_lt_range.imp ?_
  intro a b hab e he e' he'
  simp only [Option.map_eq_some_iff] at he he'
  obtain ⟨_, _, rfl⟩ := he
  obtain ⟨_, _, rfl⟩ := he'
  exact hab

/-- An index below all listed ones has no entry. -/
theorem get_eq_none_of_lt {m : Sparse α} {i : Nat} (h : ∀ e ∈ m, i < e.1) : get m i = none := by
  induction m with
  | nil => rfl
  | cons a m ih =>
    obtain ⟨k, w⟩ := a
    have hk := h (k, w) List.mem_cons_self
    rw [get_cons, if_neg (by simp at hk; omega)]
    exact ih fun e he => h e (List.mem_cons_of_mem _ he)

/-- In a canonical array the listed entries are what reads give. -/
theorem mem_iff_get {m : Sparse α} (h : wf m) {i : Nat} {v : α} : (i, v) ∈ m ↔ get m i = some v := by
  induction m with
  | nil => simp
  | cons a m ih =>
    obtain ⟨k, w⟩ := a
    have hk := wf_cons.mp h
    rw [get_cons, List.mem_cons]
    by_cases hik : i = k
    · subst hik
      rw [if_pos rfl]
      constructor
      · rintro (h' | h')
        · cases h'; rfl
        · exact absurd (hk.1 _ h') (lt_irrefl _)
      · intro h'; cases h'; exact .inl rfl
    · rw [if_neg hik, ← ih hk.2]
      simp [hik]

/-- Reading a tabulated array. -/
theorem get_tabulate (n : Nat) (f : Nat → Option α) (i : Nat) :
    get (tabulate n f) i = if i < n then f i else none := by
  have key : ∀ v, get (tabulate n f) i = some v ↔ i < n ∧ f i = some v := fun v => by
    rw [← mem_iff_get (tabulate_wf n f), mem_tabulate]
  ext v
  rw [key]
  by_cases h : i < n <;> simp [h]

/-- The entries of an enumerated list. -/
theorem mem_enumFrom {l : List α} {k : Nat} {e : Nat × α} (h : e ∈ enumFrom k l) :
    k ≤ e.1 ∧ e.1 < k + l.length := by
  induction l generalizing k with
  | nil => cases h
  | cons v l ih =>
    rcases List.mem_cons.mp h with h | h
    · subst h; simp
    · have := ih h
      simp only [List.length_cons]
      omega

theorem enumFrom_wf (l : List α) (k : Nat) : wf (enumFrom k l) := by
  induction l generalizing k with
  | nil => simp [enumFrom, wf]
  | cons v l ih => exact wf_cons.mpr ⟨fun e he => (mem_enumFrom he).1, ih (k + 1)⟩

/-- Reading an enumerated list. -/
theorem get_enumFrom (l : List α) (k i : Nat) :
    get (enumFrom k l) i = if k ≤ i then l[i - k]? else none := by
  induction l generalizing k with
  | nil => simp [enumFrom]
  | cons v l ih =>
    rw [enumFrom, get_cons, ih]
    by_cases h : i = k
    · simp [h]
    · rw [if_neg h]
      by_cases h' : k ≤ i
      · have e : i - k = i - (k + 1) + 1 := by omega
        rw [if_pos (by omega), if_pos h', e, List.getElem?_cons_succ]
      · rw [if_neg (by omega), if_neg h']

/-- Two canonical arrays that read alike are equal. -/
theorem ext_of_wf {m m' : Sparse α} (h : wf m) (h' : wf m') (hg : ∀ i, get m i = get m' i) : m = m' := by
  induction m generalizing m' with
  | nil =>
    cases m' with
    | nil => rfl
    | cons a m' =>
      obtain ⟨k, w⟩ := a
      have := hg k
      simp [get_cons] at this
  | cons a m ih =>
    obtain ⟨k, w⟩ := a
    have hk := wf_cons.mp h
    cases m' with
    | nil =>
      have := hg k
      simp [get_cons] at this
    | cons a' m' =>
      obtain ⟨k', w'⟩ := a'
      have hk' := wf_cons.mp h'
      have e : k = k' := by
        rcases lt_trichotomy k k' with hlt | heq | hlt
        · have h1 := hg k
          rw [get_cons, if_pos rfl, get_cons, if_neg (by omega),
            get_eq_none_of_lt fun e he => hlt.trans (hk'.1 e he)] at h1
          cases h1
        · exact heq
        · have h1 := hg k'
          rw [get_cons, if_neg (by omega), get_eq_none_of_lt fun e he => hlt.trans (hk.1 e he),
            get_cons, if_pos rfl] at h1
          cases h1
      subst e
      have hw := hg k
      simp only [get_cons, if_true, Option.some.injEq] at hw
      subst hw
      congr 1
      refine ih hk.2 hk'.2 fun i => ?_
      by_cases hi : i = k
      · subst hi
        rw [get_eq_none_of_lt hk.1, get_eq_none_of_lt hk'.1]
      · have := hg i
        rwa [get_cons, if_neg hi, get_cons, if_neg hi] at this

end Sys2Proof.Machine.Sparse
end

