-- ==== Sys2Proof/Laws/State.lean ====
section
/-!
SUPPORT. The small lemmas of the state: one for each field under each named update, so that no proof unfolds a
record update.
-/

namespace Sys2Proof.Machine

/-! ### Replacing a buffer's contents -/

@[simp] theorem setBuf_cfg (s : State) (b : BufId) (x : Buffer) : (s.setBuf b x).cfg = s.cfg := by cases b <;> rfl
@[simp] theorem setBuf_busy (s : State) (b : BufId) (x : Buffer) : (s.setBuf b x).busy = s.busy := by cases b <;> rfl
@[simp] theorem setBuf_pend (s : State) (b : BufId) (x : Buffer) : (s.setBuf b x).pend = s.pend := by cases b <;> rfl
@[simp] theorem setBuf_fault (s : State) (b : BufId) (x : Buffer) : (s.setBuf b x).fault = s.fault := by cases b <;> rfl
@[simp] theorem setBuf_err (s : State) (b : BufId) (x : Buffer) : (s.setBuf b x).err = s.err := by cases b <;> rfl
@[simp] theorem setBuf_stage (s : State) (b : BufId) (x : Buffer) : (s.setBuf b x).stage = s.stage := by cases b <;> rfl
@[simp] theorem setBuf_dlen (s : State) (b : BufId) (x : Buffer) : (s.setBuf b x).dlen = s.dlen := by cases b <;> rfl
@[simp] theorem setBuf_nlen (s : State) (b : BufId) (x : Buffer) : (s.setBuf b x).nlen = s.nlen := by cases b <;> rfl
@[simp] theorem setBuf_clen (s : State) (b : BufId) (x : Buffer) : (s.setBuf b x).clen = s.clen := by cases b <;> rfl
@[simp] theorem setBuf_plen (s : State) (b : BufId) (x : Buffer) : (s.setBuf b x).plen = s.plen := by cases b <;> rfl
@[simp] theorem setBuf_padding (s : State) (b : BufId) (x : Buffer) : (s.setBuf b x).padding = s.padding := by cases b <;> rfl
@[simp] theorem setBuf_nbits (s : State) (b : BufId) (x : Buffer) : (s.setBuf b x).nbits = s.nbits := by cases b <;> rfl
@[simp] theorem setBuf_freq (s : State) (b : BufId) (x : Buffer) : (s.setBuf b x).freq = s.freq := by cases b <;> rfl
@[simp] theorem setBuf_node (s : State) (b : BufId) (x : Buffer) : (s.setBuf b x).node = s.node := by cases b <;> rfl
@[simp] theorem setBuf_root (s : State) (b : BufId) (x : Buffer) : (s.setBuf b x).root = s.root := by cases b <;> rfl
@[simp] theorem setBuf_rootV (s : State) (b : BufId) (x : Buffer) : (s.setBuf b x).rootV = s.rootV := by cases b <;> rfl
@[simp] theorem setBuf_next (s : State) (b : BufId) (x : Buffer) : (s.setBuf b x).next = s.next := by cases b <;> rfl
@[simp] theorem setBuf_nlive (s : State) (b : BufId) (x : Buffer) : (s.setBuf b x).nlive = s.nlive := by cases b <;> rfl
@[simp] theorem setBuf_ct (s : State) (b : BufId) (x : Buffer) : (s.setBuf b x).ct = s.ct := by cases b <;> rfl
@[simp] theorem setBuf_sel (s : State) (b : BufId) (x : Buffer) : (s.setBuf b x).sel = s.sel := by cases b <;> rfl
@[simp] theorem setBuf_host (s : State) (b : BufId) (x : Buffer) : (s.setBuf b x).host = s.host := by cases b <;> rfl
@[simp] theorem setBuf_answers (s : State) (b : BufId) (x : Buffer) : (s.setBuf b x).answers = s.answers := by cases b <;> rfl
@[simp] theorem setBuf_delay (s : State) (b : BufId) (x : Buffer) : (s.setBuf b x).delay = s.delay := by cases b <;> rfl
@[simp] theorem setBuf_draws (s : State) (b : BufId) (x : Buffer) : (s.setBuf b x).draws = s.draws := by cases b <;> rfl
@[simp] theorem setBuf_len (s : State) (b : BufId) (x : Buffer) (c : BufId) : (s.setBuf b x).len c = s.len c := by cases b <;> cases c <;> rfl
@[simp] theorem setBuf_buf_same (s : State) (b : BufId) (x : Buffer) : (s.setBuf b x).buf b = x := by cases b <;> rfl
theorem setBuf_buf_other (s : State) (x : Buffer) {b c : BufId} (h : c ≠ b) :
    (s.setBuf b x).buf c = s.buf c := by
  cases b <;> cases c <;> first | rfl | exact absurd rfl h

/-! ### Writing a length register -/

@[simp] theorem setLen_cfg (s : State) (b : BufId) (n : Nat) : (s.setLen b n).cfg = s.cfg := by cases b <;> rfl
@[simp] theorem setLen_busy (s : State) (b : BufId) (n : Nat) : (s.setLen b n).busy = s.busy := by cases b <;> rfl
@[simp] theorem setLen_pend (s : State) (b : BufId) (n : Nat) : (s.setLen b n).pend = s.pend := by cases b <;> rfl
@[simp] theorem setLen_fault (s : State) (b : BufId) (n : Nat) : (s.setLen b n).fault = s.fault := by cases b <;> rfl
@[simp] theorem setLen_err (s : State) (b : BufId) (n : Nat) : (s.setLen b n).err = s.err := by cases b <;> rfl
@[simp] theorem setLen_stage (s : State) (b : BufId) (n : Nat) : (s.setLen b n).stage = s.stage := by cases b <;> rfl
@[simp] theorem setLen_dbuf (s : State) (b : BufId) (n : Nat) : (s.setLen b n).dbuf = s.dbuf := by cases b <;> rfl
@[simp] theorem setLen_nbuf (s : State) (b : BufId) (n : Nat) : (s.setLen b n).nbuf = s.nbuf := by cases b <;> rfl
@[simp] theorem setLen_cbuf (s : State) (b : BufId) (n : Nat) : (s.setLen b n).cbuf = s.cbuf := by cases b <;> rfl
@[simp] theorem setLen_pbuf (s : State) (b : BufId) (n : Nat) : (s.setLen b n).pbuf = s.pbuf := by cases b <;> rfl
@[simp] theorem setLen_padding (s : State) (b : BufId) (n : Nat) : (s.setLen b n).padding = s.padding := by cases b <;> rfl
@[simp] theorem setLen_nbits (s : State) (b : BufId) (n : Nat) : (s.setLen b n).nbits = s.nbits := by cases b <;> rfl
@[simp] theorem setLen_freq (s : State) (b : BufId) (n : Nat) : (s.setLen b n).freq = s.freq := by cases b <;> rfl
@[simp] theorem setLen_node (s : State) (b : BufId) (n : Nat) : (s.setLen b n).node = s.node := by cases b <;> rfl
@[simp] theorem setLen_root (s : State) (b : BufId) (n : Nat) : (s.setLen b n).root = s.root := by cases b <;> rfl
@[simp] theorem setLen_rootV (s : State) (b : BufId) (n : Nat) : (s.setLen b n).rootV = s.rootV := by cases b <;> rfl
@[simp] theorem setLen_next (s : State) (b : BufId) (n : Nat) : (s.setLen b n).next = s.next := by cases b <;> rfl
@[simp] theorem setLen_nlive (s : State) (b : BufId) (n : Nat) : (s.setLen b n).nlive = s.nlive := by cases b <;> rfl
@[simp] theorem setLen_ct (s : State) (b : BufId) (n : Nat) : (s.setLen b n).ct = s.ct := by cases b <;> rfl
@[simp] theorem setLen_sel (s : State) (b : BufId) (n : Nat) : (s.setLen b n).sel = s.sel := by cases b <;> rfl
@[simp] theorem setLen_host (s : State) (b : BufId) (n : Nat) : (s.setLen b n).host = s.host := by cases b <;> rfl
@[simp] theorem setLen_answers (s : State) (b : BufId) (n : Nat) : (s.setLen b n).answers = s.answers := by cases b <;> rfl
@[simp] theorem setLen_delay (s : State) (b : BufId) (n : Nat) : (s.setLen b n).delay = s.delay := by cases b <;> rfl
@[simp] theorem setLen_draws (s : State) (b : BufId) (n : Nat) : (s.setLen b n).draws = s.draws := by cases b <;> rfl
@[simp] theorem setLen_buf (s : State) (b : BufId) (n : Nat) (c : BufId) : (s.setLen b n).buf c = s.buf c := by cases b <;> cases c <;> rfl
@[simp] theorem setLen_len_same (s : State) (b : BufId) (n : Nat) : (s.setLen b n).len b = n := by cases b <;> rfl
theorem setLen_len_other (s : State) (n : Nat) {b c : BufId} (h : c ≠ b) :
    (s.setLen b n).len c = s.len c := by
  cases b <;> cases c <;> first | rfl | exact absurd rfl h

/-! ### Completion (R112) -/

@[simp] theorem complete_cfg (s : State) : (complete s).cfg = s.cfg := rfl
@[simp] theorem complete_busy (s : State) : (complete s).busy = false := rfl
@[simp] theorem complete_fault (s : State) : (complete s).fault = s.fault := rfl
@[simp] theorem complete_err (s : State) : (complete s).err = s.err := rfl
@[simp] theorem complete_stage (s : State) : (complete s).stage = s.stage := rfl
@[simp] theorem complete_dbuf (s : State) : (complete s).dbuf = s.dbuf := rfl
@[simp] theorem complete_dlen (s : State) : (complete s).dlen = s.dlen := rfl
@[simp] theorem complete_nbuf (s : State) : (complete s).nbuf = s.nbuf := rfl
@[simp] theorem complete_nlen (s : State) : (complete s).nlen = s.nlen := rfl
@[simp] theorem complete_cbuf (s : State) : (complete s).cbuf = s.cbuf := rfl
@[simp] theorem complete_clen (s : State) : (complete s).clen = s.clen := rfl
@[simp] theorem complete_pbuf (s : State) : (complete s).pbuf = s.pbuf := rfl
@[simp] theorem complete_plen (s : State) : (complete s).plen = s.plen := rfl
@[simp] theorem complete_padding (s : State) : (complete s).padding = s.padding := rfl
@[simp] theorem complete_nbits (s : State) : (complete s).nbits = s.nbits := rfl
@[simp] theorem complete_freq (s : State) : (complete s).freq = s.freq := rfl
@[simp] theorem complete_node (s : State) : (complete s).node = s.node := rfl
@[simp] theorem complete_root (s : State) : (complete s).root = s.root := rfl
@[simp] theorem complete_rootV (s : State) : (complete s).rootV = s.rootV := rfl
@[simp] theorem complete_next (s : State) : (complete s).next = s.next := rfl
@[simp] theorem complete_nlive (s : State) : (complete s).nlive = s.nlive := rfl
@[simp] theorem complete_ct (s : State) : (complete s).ct = s.ct := rfl
@[simp] theorem complete_sel (s : State) : (complete s).sel = s.sel := rfl
@[simp] theorem complete_host (s : State) : (complete s).host = s.host := rfl
@[simp] theorem complete_answers (s : State) : (complete s).answers = s.answers := rfl
@[simp] theorem complete_delay (s : State) : (complete s).delay = 0 := rfl
@[simp] theorem complete_buf (s : State) (b : BufId) : (complete s).buf b = s.buf b := by cases b <;> rfl
@[simp] theorem complete_len (s : State) (b : BufId) : (complete s).len b = s.len b := by cases b <;> rfl

/-! ### Fault entry (R246) -/

@[simp] theorem faultEntry_cfg (e : Err) (s : State) : (faultEntry e s).cfg = s.cfg := rfl
@[simp] theorem faultEntry_busy (e : Err) (s : State) : (faultEntry e s).busy = false := rfl
@[simp] theorem faultEntry_fault (e : Err) (s : State) : (faultEntry e s).fault = true := rfl
@[simp] theorem faultEntry_err (e : Err) (s : State) : (faultEntry e s).err = e := rfl
@[simp] theorem faultEntry_stage (e : Err) (s : State) : (faultEntry e s).stage = .empty := rfl
@[simp] theorem faultEntry_host (e : Err) (s : State) : (faultEntry e s).host = s.host := rfl
@[simp] theorem faultEntry_answers (e : Err) (s : State) : (faultEntry e s).answers = s.answers := rfl
@[simp] theorem faultEntry_delay (e : Err) (s : State) : (faultEntry e s).delay = 0 := rfl
@[simp] theorem faultEntry_draws (e : Err) (s : State) : (faultEntry e s).draws = s.draws + 1 := rfl

/-! ### Reset (R51, R115, R270) -/

@[simp] theorem hardReset_cfg (s : State) : (hardReset s).cfg = s.cfg := rfl
@[simp] theorem hardReset_busy (s : State) : (hardReset s).busy = false := rfl
@[simp] theorem hardReset_fault (s : State) : (hardReset s).fault = false := rfl
@[simp] theorem hardReset_err (s : State) : (hardReset s).err = .noError := rfl
@[simp] theorem hardReset_stage (s : State) : (hardReset s).stage = .empty := rfl
@[simp] theorem hardReset_dlen (s : State) : (hardReset s).dlen = 0 := rfl
@[simp] theorem hardReset_nlen (s : State) : (hardReset s).nlen = 0 := rfl
@[simp] theorem hardReset_clen (s : State) : (hardReset s).clen = 0 := rfl
@[simp] theorem hardReset_plen (s : State) : (hardReset s).plen = 0 := rfl
@[simp] theorem hardReset_padding (s : State) : (hardReset s).padding = 0 := rfl
@[simp] theorem hardReset_nbits (s : State) : (hardReset s).nbits = 0 := rfl
@[simp] theorem hardReset_sel (s : State) : (hardReset s).sel = 0#9 := rfl
@[simp] theorem hardReset_root (s : State) : (hardReset s).root = 0#9 := rfl
@[simp] theorem hardReset_rootV (s : State) : (hardReset s).rootV = false := rfl
@[simp] theorem hardReset_next (s : State) : (hardReset s).next = 256 := rfl
@[simp] theorem hardReset_nlive (s : State) : (hardReset s).nlive = 0 := rfl
@[simp] theorem hardReset_host (s : State) : (hardReset s).host = s.host := rfl
@[simp] theorem hardReset_answers (s : State) : (hardReset s).answers = s.answers := rfl
@[simp] theorem hardReset_delay (s : State) : (hardReset s).delay = 0 := rfl
@[simp] theorem hardReset_draws (s : State) : (hardReset s).draws = s.draws + 1 := rfl

/-! ### Acceptance of a command (R110) -/

@[simp] theorem accept_cfg (w : Word) (s : State) : (accept w s).cfg = s.cfg := rfl
@[simp] theorem accept_busy (w : Word) (s : State) : (accept w s).busy = true := rfl
@[simp] theorem accept_fault (w : Word) (s : State) : (accept w s).fault = s.fault := rfl
@[simp] theorem accept_err (w : Word) (s : State) : (accept w s).err = s.err := rfl
@[simp] theorem accept_stage (w : Word) (s : State) : (accept w s).stage = s.stage := rfl
@[simp] theorem accept_dbuf (w : Word) (s : State) : (accept w s).dbuf = s.dbuf := rfl
@[simp] theorem accept_dlen (w : Word) (s : State) : (accept w s).dlen = s.dlen := rfl
@[simp] theorem accept_nbuf (w : Word) (s : State) : (accept w s).nbuf = s.nbuf := rfl
@[simp] theorem accept_nlen (w : Word) (s : State) : (accept w s).nlen = s.nlen := rfl
@[simp] theorem accept_cbuf (w : Word) (s : State) : (accept w s).cbuf = s.cbuf := rfl
@[simp] theorem accept_clen (w : Word) (s : State) : (accept w s).clen = s.clen := rfl
@[simp] theorem accept_pbuf (w : Word) (s : State) : (accept w s).pbuf = s.pbuf := rfl
@[simp] theorem accept_plen (w : Word) (s : State) : (accept w s).plen = s.plen := rfl
@[simp] theorem accept_padding (w : Word) (s : State) : (accept w s).padding = s.padding := rfl
@[simp] theorem accept_nbits (w : Word) (s : State) : (accept w s).nbits = s.nbits := rfl
@[simp] theorem accept_freq (w : Word) (s : State) : (accept w s).freq = s.freq := rfl
@[simp] theorem accept_node (w : Word) (s : State) : (accept w s).node = s.node := rfl
@[simp] theorem accept_root (w : Word) (s : State) : (accept w s).root = s.root := rfl
@[simp] theorem accept_rootV (w : Word) (s : State) : (accept w s).rootV = s.rootV := rfl
@[simp] theorem accept_next (w : Word) (s : State) : (accept w s).next = s.next := rfl
@[simp] theorem accept_nlive (w : Word) (s : State) : (accept w s).nlive = s.nlive := rfl
@[simp] theorem accept_ct (w : Word) (s : State) : (accept w s).ct = s.ct := rfl
@[simp] theorem accept_sel (w : Word) (s : State) : (accept w s).sel = s.sel := rfl
@[simp] theorem accept_host (w : Word) (s : State) : (accept w s).host = s.host := rfl
@[simp] theorem accept_answers (w : Word) (s : State) : (accept w s).answers = s.answers := rfl
@[simp] theorem accept_pend (w : Word) (s : State) : (accept w s).pend = w.extractLsb' 0 8 := rfl

/-! ### The host's next move is taken off its list -/

@[simp] theorem hostTook_cfg (r : List HostMove) (s : State) : (hostTook r s).cfg = s.cfg := rfl
@[simp] theorem hostTook_busy (r : List HostMove) (s : State) : (hostTook r s).busy = s.busy := rfl
@[simp] theorem hostTook_pend (r : List HostMove) (s : State) : (hostTook r s).pend = s.pend := rfl
@[simp] theorem hostTook_fault (r : List HostMove) (s : State) : (hostTook r s).fault = s.fault := rfl
@[simp] theorem hostTook_err (r : List HostMove) (s : State) : (hostTook r s).err = s.err := rfl
@[simp] theorem hostTook_stage (r : List HostMove) (s : State) : (hostTook r s).stage = s.stage := rfl
@[simp] theorem hostTook_dbuf (r : List HostMove) (s : State) : (hostTook r s).dbuf = s.dbuf := rfl
@[simp] theorem hostTook_dlen (r : List HostMove) (s : State) : (hostTook r s).dlen = s.dlen := rfl
@[simp] theorem hostTook_nbuf (r : List HostMove) (s : State) : (hostTook r s).nbuf = s.nbuf := rfl
@[simp] theorem hostTook_nlen (r : List HostMove) (s : State) : (hostTook r s).nlen = s.nlen := rfl
@[simp] theorem hostTook_cbuf (r : List HostMove) (s : State) : (hostTook r s).cbuf = s.cbuf := rfl
@[simp] theorem hostTook_clen (r : List HostMove) (s : State) : (hostTook r s).clen = s.clen := rfl
@[simp] theorem hostTook_pbuf (r : List HostMove) (s : State) : (hostTook r s).pbuf = s.pbuf := rfl
@[simp] theorem hostTook_plen (r : List HostMove) (s : State) : (hostTook r s).plen = s.plen := rfl
@[simp] theorem hostTook_padding (r : List HostMove) (s : State) : (hostTook r s).padding = s.padding := rfl
@[simp] theorem hostTook_nbits (r : List HostMove) (s : State) : (hostTook r s).nbits = s.nbits := rfl
@[simp] theorem hostTook_freq (r : List HostMove) (s : State) : (hostTook r s).freq = s.freq := rfl
@[simp] theorem hostTook_node (r : List HostMove) (s : State) : (hostTook r s).node = s.node := rfl
@[simp] theorem hostTook_root (r : List HostMove) (s : State) : (hostTook r s).root = s.root := rfl
@[simp] theorem hostTook_rootV (r : List HostMove) (s : State) : (hostTook r s).rootV = s.rootV := rfl
@[simp] theorem hostTook_next (r : List HostMove) (s : State) : (hostTook r s).next = s.next := rfl
@[simp] theorem hostTook_nlive (r : List HostMove) (s : State) : (hostTook r s).nlive = s.nlive := rfl
@[simp] theorem hostTook_ct (r : List HostMove) (s : State) : (hostTook r s).ct = s.ct := rfl
@[simp] theorem hostTook_sel (r : List HostMove) (s : State) : (hostTook r s).sel = s.sel := rfl
@[simp] theorem hostTook_answers (r : List HostMove) (s : State) : (hostTook r s).answers = s.answers := rfl
@[simp] theorem hostTook_draws (r : List HostMove) (s : State) : (hostTook r s).draws = s.draws := rfl
@[simp] theorem hostTook_host (r : List HostMove) (s : State) : (hostTook r s).host = r := rfl

/-! ### A host read -/

@[simp] theorem answer_cfg (w : Word) (s : State) : (answer w s).cfg = s.cfg := rfl
@[simp] theorem answer_busy (w : Word) (s : State) : (answer w s).busy = s.busy := rfl
@[simp] theorem answer_pend (w : Word) (s : State) : (answer w s).pend = s.pend := rfl
@[simp] theorem answer_fault (w : Word) (s : State) : (answer w s).fault = s.fault := rfl
@[simp] theorem answer_err (w : Word) (s : State) : (answer w s).err = s.err := rfl
@[simp] theorem answer_stage (w : Word) (s : State) : (answer w s).stage = s.stage := rfl
@[simp] theorem answer_dbuf (w : Word) (s : State) : (answer w s).dbuf = s.dbuf := rfl
@[simp] theorem answer_dlen (w : Word) (s : State) : (answer w s).dlen = s.dlen := rfl
@[simp] theorem answer_nbuf (w : Word) (s : State) : (answer w s).nbuf = s.nbuf := rfl
@[simp] theorem answer_nlen (w : Word) (s : State) : (answer w s).nlen = s.nlen := rfl
@[simp] theorem answer_cbuf (w : Word) (s : State) : (answer w s).cbuf = s.cbuf := rfl
@[simp] theorem answer_clen (w : Word) (s : State) : (answer w s).clen = s.clen := rfl
@[simp] theorem answer_pbuf (w : Word) (s : State) : (answer w s).pbuf = s.pbuf := rfl
@[simp] theorem answer_plen (w : Word) (s : State) : (answer w s).plen = s.plen := rfl
@[simp] theorem answer_padding (w : Word) (s : State) : (answer w s).padding = s.padding := rfl
@[simp] theorem answer_nbits (w : Word) (s : State) : (answer w s).nbits = s.nbits := rfl
@[simp] theorem answer_freq (w : Word) (s : State) : (answer w s).freq = s.freq := rfl
@[simp] theorem answer_node (w : Word) (s : State) : (answer w s).node = s.node := rfl
@[simp] theorem answer_root (w : Word) (s : State) : (answer w s).root = s.root := rfl
@[simp] theorem answer_rootV (w : Word) (s : State) : (answer w s).rootV = s.rootV := rfl
@[simp] theorem answer_next (w : Word) (s : State) : (answer w s).next = s.next := rfl
@[simp] theorem answer_nlive (w : Word) (s : State) : (answer w s).nlive = s.nlive := rfl
@[simp] theorem answer_ct (w : Word) (s : State) : (answer w s).ct = s.ct := rfl
@[simp] theorem answer_sel (w : Word) (s : State) : (answer w s).sel = s.sel := rfl
@[simp] theorem answer_host (w : Word) (s : State) : (answer w s).host = s.host := rfl
@[simp] theorem answer_delay (w : Word) (s : State) : (answer w s).delay = s.delay := rfl
@[simp] theorem answer_draws (w : Word) (s : State) : (answer w s).draws = s.draws := rfl
@[simp] theorem answer_answers (w : Word) (s : State) : (answer w s).answers = s.answers ++ [w] := rfl

end Sys2Proof.Machine
end

