-- ==== Sys2Proof/Laws/Memory.lean ====
section
/-!
SUPPORT. The laws of the buffers: read after write, what `loadBuffer` and `storeBuffer` do, and that every memory
operation keeps the canonical form.
-/

namespace Sys2Proof.Machine

/-! ### One byte -/

@[simp] theorem Memory.read_eq (m : Memory) (i : Nat) : m.read i = Sparse.get m i := by
  unfold Memory.read
  cases Sparse.get m i <;> rfl

/-- A byte depends on its buffer alone. -/
theorem byteAt_congr {s t : State} {b : BufId} (h : t.buf b = s.buf b) (i : Nat) :
    t.byteAt b i = s.byteAt b i := by simp only [State.byteAt, h]

theorem bytes_congr {s t : State} {b : BufId} (h : t.buf b = s.buf b) (hl : t.len b = s.len b) :
    t.bytes b = s.bytes b := by
  rw [State.bytes, State.bytes, hl]
  exact List.map_congr_left fun i _ => byteAt_congr h i

/-- Read after write (R65, R66). -/
theorem byteAt_writeByte (s : State) (b c : BufId) (i j : Nat) (v : Byte) :
    (s.writeByte b i v).byteAt c j = if c = b ∧ j = i then v else s.byteAt c j := by
  by_cases hc : c = b
  · subst hc
    simp only [State.writeByte, State.byteAt, setBuf_buf_same, Memory.read_eq, Sparse.get_put, true_and]
    split <;> rfl
  · rw [if_neg fun h => hc h.1]
    exact byteAt_congr (setBuf_buf_other s _ hc) j

@[simp] theorem bytes_length (s : State) (b : BufId) : (s.bytes b).length = s.len b := by
  simp [State.bytes]

theorem bytes_getElem (s : State) (b : BufId) {i : Nat} (h : i < s.len b) :
    (s.bytes b)[i]'(by simpa using h) = s.byteAt b i := by
  simp [State.bytes]

/-! ### Whole buffers -/

/-- What `loadBuffer` answers (R69). -/
theorem loadBuffer_eq_ok {s : State} {b : BufId} {x : List Byte} :
    loadBuffer s b = .ok x ↔ s.len b ≤ capacity s.cfg b ∧ x = s.bytes b := by
  unfold loadBuffer
  split <;> simp_all [eq_comm]

theorem loadBuffer_of_fits {s : State} {b : BufId} (h : s.len b ≤ capacity s.cfg b) :
    loadBuffer s b = .ok (s.bytes b) := if_pos h

/-- The state after `storeBuffer`. -/
def stored (b : BufId) (x : List Byte) (s : State) : State :=
  { (s.setBuf b ⟨Sparse.enumFrom 0 x, s.draws⟩).setLen b x.length with draws := s.draws + 1 }

/-- What `storeBuffer` answers. -/
theorem storeBuffer_eq_ok {b : BufId} {x : List Byte} {s t : State} :
    storeBuffer b x s = .ok t ↔ x.length ≤ capacity s.cfg b ∧ t = stored b x s := by
  unfold storeBuffer stored
  split <;> simp_all [eq_comm]

theorem storeBuffer_of_fits {b : BufId} {x : List Byte} {s : State} (h : x.length ≤ capacity s.cfg b) :
    storeBuffer b x s = .ok (stored b x s) := if_pos h

theorem stored_buf_same (b : BufId) (x : List Byte) (s : State) :
    (stored b x s).buf b = ⟨Sparse.enumFrom 0 x, s.draws⟩ := by cases b <;> rfl

theorem stored_buf_other {b c : BufId} (x : List Byte) (s : State) (h : c ≠ b) :
    (stored b x s).buf c = s.buf c := by
  cases b <;> cases c <;> first | rfl | exact absurd rfl h

theorem stored_len_same (b : BufId) (x : List Byte) (s : State) : (stored b x s).len b = x.length := by
  cases b <;> rfl

theorem stored_len_other {b c : BufId} (x : List Byte) (s : State) (h : c ≠ b) :
    (stored b x s).len c = s.len c := by
  cases b <;> cases c <;> first | rfl | exact absurd rfl h

/-- Below the new length a stored buffer holds what was stored. -/
theorem stored_bytes_same (b : BufId) (x : List Byte) (s : State) : (stored b x s).bytes b = x := by
  refine List.ext_getElem (by simp [stored_len_same]) fun i h h' => ?_
  rw [bytes_getElem _ _ (by simpa using h)]
  simp [State.byteAt, stored_buf_same, Sparse.get_enumFrom, h']

/-- The other buffers are left alone. -/
theorem stored_bytes_other {b c : BufId} (x : List Byte) (s : State) (h : c ≠ b) :
    (stored b x s).bytes c = s.bytes c :=
  bytes_congr (stored_buf_other x s h) (stored_len_other x s h)

/-! ### The canonical form -/

/-- The canonical form of every buffer depends on the buffers and the capacities alone. -/
theorem memWf_congr {s t : State} (hs : s.MemWf) (hc : t.cfg = s.cfg) (hb : ∀ b, t.buf b = s.buf b) :
    t.MemWf := fun b => by rw [hb b, hc]; exact hs b

theorem memWf_of_empty {s : State} (h : ∀ b, (s.buf b).cells = []) : s.MemWf := fun b => by
  rw [h b]; exact ⟨List.Pairwise.nil, fun c hc => by cases hc⟩

theorem resetWith_memWf (c : Config) (n : Nat) (hs : List HostMove) (as : List Word) :
    (State.resetWith c n hs as).MemWf := memWf_of_empty fun b => by cases b <;> rfl

/-- Memory after reset is in canonical form. -/
theorem reset_memWf : State.reset.MemWf := resetWith_memWf _ _ _ _

theorem hardReset_memWf (s : State) : (hardReset s).MemWf := resetWith_memWf _ _ _ _

theorem faultEntry_memWf (e : Err) (s : State) : (faultEntry e s).MemWf :=
  memWf_of_empty fun b => by cases b <;> rfl

theorem complete_memWf {s : State} (h : s.MemWf) : (complete s).MemWf :=
  memWf_congr h rfl fun b => complete_buf s b

theorem setBuf_memWf {s : State} (h : s.MemWf) (b : BufId) (x : Buffer) (hx : x.cells.wf)
    (hk : ∀ c ∈ x.cells, c.1 < capacity s.cfg b) : (s.setBuf b x).MemWf := fun c => by
  rw [setBuf_cfg]
  by_cases hc : c = b
  · subst hc; rw [setBuf_buf_same]; exact ⟨hx, hk⟩
  · rw [setBuf_buf_other s x hc]; exact h c

/-- A byte written below the capacity keeps the canonical form. -/
theorem writeByte_memWf {s : State} (h : s.MemWf) {b : BufId} {i : Nat} (hi : i < capacity s.cfg b)
    (v : Byte) : (s.writeByte b i v).MemWf := by
  refine setBuf_memWf h b _ (Sparse.put_wf (h b).1 i v) fun c hc => ?_
  rcases Sparse.mem_put hc with rfl | hc
  · exact hi
  · exact (h b).2 c hc

/-- A command's store keeps the canonical form. -/
theorem storeBuffer_memWf {b : BufId} {x : List Byte} {s t : State} (h : s.MemWf)
    (ht : storeBuffer b x s = .ok t) : t.MemWf := by
  obtain ⟨hx, rfl⟩ := storeBuffer_eq_ok.mp ht
  have h1 : (s.setBuf b ⟨Sparse.enumFrom 0 x, s.draws⟩).MemWf := by
    refine setBuf_memWf h b _ (Sparse.enumFrom_wf x 0) fun c hc => ?_
    have := (Sparse.mem_enumFrom hc).2
    omega
  refine memWf_congr h1 ?_ fun c => ?_
  · cases b <;> rfl
  · cases b <;> cases c <;> rfl

/-- A host write keeps the canonical form. -/
theorem hostWrite_memWf {s : State} (h : s.MemWf) (b : BufId) (i : Nat) (v : Byte) :
    (hostWrite b i v s).MemWf := by
  unfold hostWrite
  split
  · rename_i hc
    have hi : i < capacity s.cfg b := by
      simp only [Bool.and_eq_true, decide_eq_true_eq] at hc
      exact hc.1.2
    exact memWf_congr (writeByte_memWf h hi v) rfl fun c => by cases c <;> rfl
  · exact h

end Sys2Proof.Machine
end

