-- ==== Sys2Proof/Laws/Ops.lean ====
section
/-!
SUPPORT. What the shared operations and the pseudocode of each command can do, said once: proofs cite these lemmas
instead of unfolding the operations.
-/

namespace Sys2Proof.Machine

/-! ### The frame of every command -/

theorem faultEntry_faultedWith (e : Err) (s : State) : FaultedWith e (faultEntry e s) := ⟨rfl, rfl, rfl, rfl⟩

theorem hardReset_resetValues (s : State) : ResetValues (hardReset s) :=
  ⟨rfl, rfl, rfl, rfl, rfl, rfl, rfl, rfl, rfl, rfl, rfl, rfl, rfl, rfl, rfl⟩

theorem settle_next {s t : State} {r : Run} (h : settle s r = .next t) :
    (∃ u, r = .ok u ∧ t = complete u) ∨ (∃ e, r = .error (.raise e) ∧ t = faultEntry e s) := by
  match r, h with
  | .ok u, h => cases h; exact .inl ⟨u, rfl, rfl⟩
  | .error (.raise e), h => cases h; exact .inr ⟨e, rfl, rfl⟩
  | .error (.stuck f), h => cases h

/-- What a command's step can answer. -/
theorem runCommand_next {i : Instr} {body : State → Run} {s t : State} (h : runCommand i body s = .next t) :
    (legalAt i s.stage = true ∧ ∃ u, body s = .ok u ∧ t = complete u) ∨
      (legalAt i s.stage = true ∧ ∃ e, body s = .error (.raise e) ∧ t = faultEntry e s) ∨
      (legalAt i s.stage = false ∧ t = faultEntry .sequence s) := by
  unfold runCommand at h
  split at h
  · rename_i hl
    rcases settle_next h with hu | he
    · exact .inl ⟨hl, hu⟩
    · exact .inr (.inl ⟨hl, he⟩)
  · rename_i hl
    cases h
    exact .inr (.inr ⟨by simpa using hl, rfl⟩)

theorem runCommand_of_ok {i : Instr} {body : State → Run} {s u : State} (hl : legalAt i s.stage = true)
    (h : body s = .ok u) : runCommand i body s = .next (complete u) := by
  simp [runCommand, hl, h, settle]

theorem runCommand_of_raise {i : Instr} {body : State → Run} {s : State} {e : Err}
    (hl : legalAt i s.stage = true) (h : body s = .error (.raise e)) :
    runCommand i body s = .next (faultEntry e s) := by
  simp [runCommand, hl, h, settle]

theorem runCommand_of_illegal {i : Instr} {body : State → Run} {s : State}
    (hl : legalAt i s.stage = false) : runCommand i body s = .next (faultEntry .sequence s) := by
  simp [runCommand, hl]

/-- The pseudocode of a command; SRESET has none of its own. -/
def bodyOf : Instr → State → Run
  | .sreset => fun s => .ok s
  | .compress => runCompress
  | .freq => runFreq
  | .tinit => runTinit
  | .tmerge => runTmerge
  | .tbuild => runTbuild
  | .assign => runAssign
  | .encode => runEncode
  | .serialize => runSerialize
  | .decompress => runDecompress
  | .parse => runParse
  | .chktab => runChktab
  | .unpack => runUnpack
  | .decode => runDecode

/-- Every command but SRESET is its pseudocode in the common frame. -/
theorem exec_eq_runCommand {i : Instr} (h : i ≠ .sreset) (s : State) : exec i s = runCommand i (bodyOf i) s := by
  cases i <;> first | rfl | exact absurd rfl h

theorem exec_sreset (s : State) : exec .sreset s = .next (hardReset s) := rfl

/-! ### The sequence of stages -/

/-- A chain of pseudocode ends well when each part does. -/
theorem bind_eq_ok {r : Run} {f : State → Run} {t : State} :
    r >>= f = .ok t ↔ ∃ u, r = .ok u ∧ f u = .ok t := by
  cases r <;> simp [bind, Except.bind]

theorem bind_eq_error {r : Run} {f : State → Run} {e : Stop} :
    r >>= f = .error e ↔ r = .error e ∨ ∃ u, r = .ok u ∧ f u = .error e := by
  cases r <;> simp [bind, Except.bind]

/-! ### The pseudocode of each command -/

theorem runFreq_eq_ok {s t : State} :
    runFreq s = .ok t ↔
      s.dlen ≤ s.cfg.dMax ∧ t = { s with freq := countBytes [] s.data, stage := .cFreq } := by
  unfold runFreq loadBuffer
  change (if s.dlen ≤ s.cfg.dMax then _ else _ : Except Stop (List Byte)) >>= _ = _ ↔ _
  split <;> simp_all [bind, Except.bind, State.data, eq_comm]

/-- TINIT ends well in every state (R140). -/
theorem runTinit_ok (s : State) : ∃ t, runTinit s = .ok t := by
  unfold runTinit
  split <;> exact ⟨_, rfl⟩

theorem extractMin_eq_ok {nodes : Sparse Node} {i : Nat} {n : Node} {rest : Sparse Node} :
    extractMin nodes = .ok (i, n, rest) ↔
      minLive nodes = some (i, n) ∧ rest = Sparse.put nodes i { n with live := false } := by
  unfold extractMin
  cases h : minLive nodes with
  | none => simp
  | some p =>
    obtain ⟨j, m⟩ := p
    constructor
    · intro e
      cases e
      exact ⟨rfl, rfl⟩
    · rintro ⟨e, rfl⟩
      cases e
      rfl

/-- What TMERGE does when it ends well (R142). -/
theorem runTmerge_eq_ok {s t : State} :
    runTmerge s = .ok t ↔
      ∃ a na b nb, minLive s.node = some (a, na) ∧
        minLive (Sparse.put s.node a { na with live := false }) = some (b, nb) ∧ s.next ≤ 510 ∧
        t = { s with
          node := Sparse.put (Sparse.put (Sparse.put s.node a { na with live := false }) b
            { nb with live := false }) s.next (combine a na b nb)
          next := s.next + 1
          nlive := s.nlive - 1
          root := if s.nlive - 1 = 1 then BitVec.ofNat 9 s.next else s.root
          rootV := if s.nlive - 1 = 1 then true else s.rootV
          stage := if s.nlive - 1 = 1 then .cTree else .cQueue } := by
  unfold runTmerge extractMin
  cases h1 : minLive s.node with
  | none => simp [bind, Except.bind]
  | some p =>
    obtain ⟨a, na⟩ := p
    cases h2 : minLive (Sparse.put s.node a { na with live := false }) with
    | none => simp [bind, Except.bind, h2]
    | some q =>
      obtain ⟨b, nb⟩ := q
      by_cases h3 : s.next ≤ 510
      · by_cases h4 : s.nlive - 1 = 1
        · simp [bind, Except.bind, h2, h3, h4, eq_comm]
        · simp [bind, Except.bind, h2, h3, h4, eq_comm]
      · simp [bind, Except.bind, h2, h3]

theorem runAssign_eq_ok {s t : State} :
    runAssign s = .ok t ↔
      ∃ ct, assignCodes s = .ok ct ∧
        t = { s with ct := ct, node := [], root := 0#9, rootV := false, next := 256, nlive := 0,
                     stage := .cCodes } := by
  unfold runAssign
  cases assignCodes s <;> simp [bind, Except.bind, eq_comm]

theorem runUnpack_eq_ok {s t : State} :
    runUnpack s = .ok t ↔
      s.padding ≤ 7 ∧ s.padding ≤ 8 * s.plen ∧
        t = { s with nbits := 8 * s.plen - s.padding, stage := .dUnpacked } := by
  unfold runUnpack
  by_cases h1 : s.padding > 7
  · rw [if_pos h1]
    exact ⟨fun h => (nomatch h), fun h => absurd h.1 (by omega)⟩
  · rw [if_neg h1]
    by_cases h2 : s.padding > 8 * s.plen
    · rw [if_pos h2]
      exact ⟨fun h => (nomatch h), fun h => absurd h.2.1 (by omega)⟩
    · rw [if_neg h2]
      exact ⟨fun h => ⟨by omega, by omega, (Except.ok.inj h).symm⟩, fun h => by rw [h.2.2]⟩

theorem runChktab_eq_ok {s t : State} :
    runChktab s = .ok t ↔ decodable s.table = true ∧ t = { s with stage := .dTable } := by
  unfold runChktab
  by_cases h : decodable s.table = true
  · rw [if_pos h]
    exact ⟨fun e => ⟨h, (Except.ok.inj e).symm⟩, fun e => by rw [e.2]⟩
  · rw [if_neg h]
    exact ⟨fun e => (nomatch e), fun e => absurd e.1 h⟩

/-- What ENCODE does when it ends well (R172). -/
theorem runEncode_eq_ok {s t : State} :
    runEncode s = .ok t ↔
      ∃ p, s.dlen ≤ s.cfg.dMax ∧ pushCodes s.ct Packer.start s.data = .ok p ∧
        p.flushed.length ≤ s.cfg.cMax ∧
        t = { stored .pbuf p.flushed s with padding := p.padding, nbits := p.nbits, stage := .cPacked } := by
  unfold runEncode
  by_cases hd : s.dlen ≤ s.cfg.dMax
  · rw [loadBuffer_of_fits (b := .dbuf) hd]
    change (pushCodes s.ct Packer.start s.data >>= _) = _ ↔ _
    cases hp : pushCodes s.ct Packer.start s.data with
    | error e => simp [bind, Except.bind]
    | ok p =>
      by_cases hc : p.flushed.length ≤ s.cfg.cMax
      · simp [bind, Except.bind, storeBuffer_of_fits (b := .pbuf) (s := s) hc, hd, hc, eq_comm]
      · simp [bind, Except.bind, storeBuffer, capacity, hc]
  · simp [loadBuffer, State.len, capacity, hd, bind, Except.bind]

/-- What SERIALIZE does when it ends well (R191). -/
theorem runSerialize_eq_ok {s t : State} :
    runSerialize s = .ok t ↔
      s.nlen ≤ s.cfg.nMax ∧ s.plen ≤ s.cfg.cMax ∧
        (containerOf (serHeader s.padding s.table s.name) s.payload).length ≤ s.cfg.cMax ∧
        t = { stored .cbuf (containerOf (serHeader s.padding s.table s.name) s.payload) s with
              stage := .cDone } := by
  unfold runSerialize
  by_cases hn : s.nlen ≤ s.cfg.nMax
  · rw [loadBuffer_of_fits (b := .nbuf) hn]
    by_cases hp : s.plen ≤ s.cfg.cMax
    · rw [loadBuffer_of_fits (b := .pbuf) hp]
      change (storeBuffer .cbuf (containerOf (serHeader s.padding s.table s.name) s.payload) s >>= _) = _ ↔ _
      by_cases hc : (containerOf (serHeader s.padding s.table s.name) s.payload).length ≤ s.cfg.cMax
      · rw [storeBuffer_of_fits (b := .cbuf) (s := s) hc]
        simp [bind, Except.bind, hn, hp, hc, eq_comm]
      · have e : storeBuffer .cbuf (containerOf (serHeader s.padding s.table s.name) s.payload) s =
            .error (.stuck .beyondCapacity) := if_neg hc
        rw [e]
        simp [bind, Except.bind, hc]
    · simp [loadBuffer, State.len, capacity, hp, bind, Except.bind]
  · simp [loadBuffer, State.len, capacity, hn, bind, Except.bind]

/-- What DECODE does when it ends well (R214). -/
theorem runDecode_eq_ok {s t : State} :
    runDecode s = .ok t ↔
      ∃ x, s.plen ≤ s.cfg.cMax ∧ s.nbits ≤ 8 * s.plen ∧
        decodeLoop s.table s.cfg.dMax ((payloadBits s.payload).take s.nbits) [] 0 [] = .ok x ∧
        x.length ≤ s.cfg.dMax ∧ t = { stored .dbuf x s with stage := .dDone } := by
  unfold runDecode
  by_cases hp : s.plen ≤ s.cfg.cMax
  · rw [loadBuffer_of_fits (b := .pbuf) hp]
    by_cases hb : s.nbits ≤ 8 * s.plen
    · have e : s.bytes .pbuf = s.payload := rfl
      simp only [bind, Except.bind, if_pos hb, e]
      cases hx : decodeLoop s.table s.cfg.dMax ((payloadBits s.payload).take s.nbits) [] 0 [] with
      | error e => simp
      | ok x =>
        by_cases hc : x.length ≤ s.cfg.dMax
        · simp [storeBuffer_of_fits (b := .dbuf) (s := s) hc, hp, hb, hc, eq_comm]
        · simp [storeBuffer, capacity, hc]
    · simp [bind, Except.bind, hb]
  · simp [loadBuffer, State.len, capacity, hp, bind, Except.bind]

end Sys2Proof.Machine
end

