-- ==== Sys2Proof/Laws/PerInstr.lean ====
section
/-!
SUPPORT. What is said of every command, one lemma for each: it is well formed and its encoding, as a word and as bytes,
decodes to it.
-/

namespace Sys2Proof.Laws.RoundTrip

/-- Decoding the encoding of a command gives it back. -/
def Statement (i : Instr) : Prop :=
  i.wf = true ∧ decode (encode i) = .ok i ∧ decodeBytes (encodeBytes i) = .ok i ∧
    decodeTableWord 32 (encode i).toNat = some i

theorem sreset : Statement .sreset := ⟨rfl, rfl, rfl, rfl⟩
theorem compress : Statement .compress := ⟨rfl, rfl, rfl, rfl⟩
theorem freq : Statement .freq := ⟨rfl, rfl, rfl, rfl⟩
theorem tinit : Statement .tinit := ⟨rfl, rfl, rfl, rfl⟩
theorem tmerge : Statement .tmerge := ⟨rfl, rfl, rfl, rfl⟩
theorem tbuild : Statement .tbuild := ⟨rfl, rfl, rfl, rfl⟩
theorem assign : Statement .assign := ⟨rfl, rfl, rfl, rfl⟩
theorem encode : Statement .encode := ⟨rfl, rfl, rfl, rfl⟩
theorem serialize : Statement .serialize := ⟨rfl, rfl, rfl, rfl⟩
theorem decompress : Statement .decompress := ⟨rfl, rfl, rfl, rfl⟩
theorem parse : Statement .parse := ⟨rfl, rfl, rfl, rfl⟩
theorem chktab : Statement .chktab := ⟨rfl, rfl, rfl, rfl⟩
theorem unpack : Statement .unpack := ⟨rfl, rfl, rfl, rfl⟩
theorem decode : Statement .decode := ⟨rfl, rfl, rfl, rfl⟩

end Sys2Proof.Laws.RoundTrip
end

