-- ==== Sys2Proof/Laws/Step.lean ====
section
/-!
SUPPORT. What one step can be: the core's step, SRESET on the bus, or another move of the host.
-/

namespace Sys2Proof.Machine

theorem step_eq_of_run {s t : State} {i : Instr} (h : turn s = .run i t) : step s = exec i t := by
  simp [step, h]

theorem step_eq_of_done {s : State} {o : Host.Outcome State Fault Refusal} (h : turn s = .done o) :
    step s = o := by
  simp [step, h]

/-- What command issue can be (R110). -/
theorem issue_cases (w : Word) (s : State) :
    (w = 0x00000001#32 ∧ issue w s = .run .sreset s) ∨
      ((s.busy || s.fault) = true ∧ issue w s = .done (.next s)) ∨
      ((s.busy || s.fault) = false ∧ (∃ e, decode w = .error e) ∧
        issue w s = .done (.next (faultEntry .illegalCmd s))) ∨
      ((s.busy || s.fault) = false ∧ w ≠ 0x00000001#32 ∧
        ∃ i, decode w = .ok i ∧
          issue w s = .done (.next (if legalAt i s.stage then accept w s else faultEntry .sequence s))) := by
  unfold issue
  by_cases hw : w = 0x00000001#32
  · exact .inl ⟨hw, if_pos hw⟩
  · rw [if_neg hw]
    cases hb : s.busy || s.fault with
    | true => exact .inr (.inl ⟨rfl, by simp⟩)
    | false =>
      right; right
      cases hd : decode w with
      | error e => exact .inl ⟨rfl, ⟨e, rfl⟩, by simp⟩
      | ok i =>
        refine .inr ⟨rfl, hw, i, rfl, ?_⟩
        cases hl : legalAt i s.stage <;> simp [hl]

/-- A command run by a step is the pending one, or SRESET just written to CMD (R110, R111). -/
theorem turn_run {s t : State} {i : Instr} (h : turn s = .run i t) :
    (coreTurn s = true ∧ pendingInstr s = .ok i ∧ t = s) ∨
      (coreTurn s = false ∧ i = .sreset ∧
        ∃ width rest, s.host = .regWrite width 0 0x00000001#32 :: rest ∧ t = hostTook rest s) := by
  unfold turn at h
  split at h
  · rename_i hc
    split at h
    · rename_i j hj
      cases h
      exact .inl ⟨hc, hj, rfl⟩
    · cases h
  · rename_i hc
    refine .inr ⟨by simpa using hc, ?_⟩
    split at h
    · cases h
    · rename_i m rest hm
      cases m with
      | regWrite width off v =>
        simp only [hostMove] at h
        split at h
        · split at h
          · rename_i hoff
            subst hoff
            rcases issue_cases v (hostTook rest s) with h' | h' | h' | h'
            · rw [h'.2] at h
              cases h
              exact ⟨rfl, width, rest, by rw [hm, h'.1], rfl⟩
            · rw [h'.2] at h; cases h
            · rw [h'.2.2] at h; cases h
            · obtain ⟨_, _, j, _, e⟩ := h'
              rw [e] at h; cases h
          · cases h
        · cases h
      | regRead width off => simp only [hostMove] at h; split at h <;> cases h
      | bufWrite width b k v => simp only [hostMove] at h; split at h <;> cases h
      | bufRead width b k => simp only [hostMove] at h; split at h <;> cases h
      | wait => cases h
      | reset => cases h

end Sys2Proof.Machine
end

