-- ==== Sys2Proof/Tests/Slice0.lean ====
section
/-!
SUPPORT. The model's own tests. Expected values are those of spec/95_test_vectors.md, cited by their names there, and
of the encodings of spec/30_encoding.md; the `witness_` theorems show, for each statement with hypotheses, a concrete
state that meets them.
-/

open Sys2Proof Sys2Proof.Machine

namespace Sys2Proof.Tests

-- One kernel evaluation at a time: each test below is one.
set_option Elab.async false

/-! ### Helpers -/

/-- The reset state with the unspecified registers and arrays set, so that it is a concrete idle state. -/
def base : State := { State.reset with pend := 0#8, freq := [], node := [], ct := [] }

/-- `n` bytes of a big-endian hexadecimal number. -/
def hexBytes : Nat → Nat → List Byte
  | 0, _ => []
  | n + 1, v => hexBytes n (v / 256) ++ [BitVec.ofNat 8 v]

/-- A buffer with some bytes, and its length. -/
def load (b : BufId) (x : List Byte) (s : State) : State := stored b x s

theorem load_bytes (b : BufId) (x : List Byte) (s : State) : (load b x s).bytes b = x :=
  stored_bytes_same b x s

/-- What a function shows of the next state; none where there is none. -/
def after {α : Type} (o : Host.Outcome State Fault Refusal) (f : State → α) : Option α :=
  match o with
  | .next t => some (f t)
  | .fault _ => none
  | .refused _ => none

theorem after_some {α : Type} {o : Host.Outcome State Fault Refusal} {f : State → α} {v : α}
    (h : after o f = some v) : ∃ t, o = .next t ∧ f t = v := by
  cases o with
  | next t => exact ⟨t, rfl, by simpa [after] using h⟩
  | fault _ => simp [after] at h
  | refused _ => simp [after] at h

/-- "ABRACADABRA" (V3). -/
def abra : List Byte := hexBytes 11 0x4142524143414441425241
/-- The container of V1. -/
def contV1 : List Byte :=
  hexBytes 56 0x7b2270616464696e67223a332c22636f646573223a7b2235223a2230227d2c226f726967696e616c46696c654e616d65223a2261227d0000
/-- The header of V6 and its name. -/
def headV6 : List Byte :=
  hexBytes 85 0x7b2270616464696e67223a352c22636f646573223a7b2230223a2231222c22323535223a2230227d2c226f726967696e616c46696c654e616d65223a22615c22625c5c635c75303030615c7530303030c3a97f227d
def nameV6 : List Byte := hexBytes 10 0x6122625c630a00c3a97f
/-- The table K6. -/
def k6 : Sparse Bits := [(65, [false]), (66, [true, false])]

/-- Two byte values counted, the queue entered (T3's shape, with the counts 1 and 1). -/
def queueAB : State :=
  { load .dbuf [97#8, 98#8] base with
    stage := .cQueue
    freq := [(97, 1), (98, 1)]
    node := [(97, ⟨true, true, 97#8, 1, 0#9, 0#9⟩), (98, ⟨true, true, 98#8, 1, 0#9, 0#9⟩)]
    nlive := 2 }

/-- The same after its one merge. -/
def treeAB : State :=
  { queueAB with
    stage := .cTree
    node := [(97, ⟨false, true, 97#8, 1, 0#9, 0#9⟩), (98, ⟨false, true, 98#8, 1, 0#9, 0#9⟩),
             (256, ⟨true, false, 0#8, 2, 97#9, 98#9⟩)]
    next := 257
    nlive := 1
    root := 256#9
    rootV := true }

/-- One byte value: its leaf is the root (T2). -/
def treeA : State :=
  { load .dbuf [5#8] base with
    stage := .cTree
    freq := [(5, 1)]
    node := [(5, ⟨true, true, 5#8, 1, 0#9, 0#9⟩)]
    nlive := 1
    root := 5#9
    rootV := true }

/-- No byte value: no tree (T1). -/
def treeNone : State := { base with stage := .cTree }

/-! ### Well-formedness: each check refuses an ill-formed term -/

theorem test_wf_regWrite_width : HostMove.wf (.regWrite .half 0x08 0#32) = false := by decide
theorem test_wf_regWrite_align : HostMove.wf (.regWrite .word 0x06 0#32) = false := by decide
theorem test_wf_regRead_width : HostMove.wf (.regRead .byte 0x04) = false := by decide
theorem test_wf_regRead_align : HostMove.wf (.regRead .word 0x06) = false := by decide
theorem test_wf_bufWrite_width : HostMove.wf (.bufWrite .half .dbuf 0 0#8) = false := by decide
theorem test_wf_bufRead_width : HostMove.wf (.bufRead .word .cbuf 0) = false := by decide
theorem test_wf_config : ¬ Config.ok ⟨1, 0, 67661⟩ ∧ Config.ok ⟨1, 0, 67662⟩ ∧ ¬ Config.ok ⟨0, 0, 67662⟩ := by decide

/-! ### Encoding (R80 to R83): words written out from the opcode table -/

theorem test_decode_control : decode 0x00000001#32 = .ok .sreset := by decide
theorem test_decode_composite :
    decode 0x00000010#32 = .ok .compress ∧ decode 0x00000020#32 = .ok .decompress := by decide
theorem test_decode_frequency_tree :
    decode 0x00000011#32 = .ok .freq ∧ decode 0x00000012#32 = .ok .tinit ∧
      decode 0x00000013#32 = .ok .tmerge ∧ decode 0x00000014#32 = .ok .tbuild := by decide
theorem test_decode_assign_pack :
    decode 0x00000015#32 = .ok .assign ∧ decode 0x00000016#32 = .ok .encode ∧
      decode 0x00000017#32 = .ok .serialize := by decide
theorem test_decode_decompress_chain :
    decode 0x00000021#32 = .ok .parse ∧ decode 0x00000022#32 = .ok .chktab ∧
      decode 0x00000023#32 = .ok .unpack ∧ decode 0x00000024#32 = .ok .decode := by decide
theorem test_decode_rejects :
    decode 0x00000000#32 = .error .unlistedOpcode ∧ decode 0x00000002#32 = .error .unlistedOpcode ∧
      decode 0x00000018#32 = .error .unlistedOpcode ∧ decode 0x00000110#32 = .error .highBitsSet ∧
      decode 0xFFFFFFFF#32 = .error .highBitsSet := by decide
theorem test_decode_bytes :
    decodeBytes [0x13#8, 0#8, 0#8, 0#8] = .ok .tmerge ∧ decodeBytes [0#8, 0#8, 0#8, 0x13#8] = .error .highBitsSet ∧
      decodeBytes [0x13#8] = .error .notOneWord := by decide
theorem test_decodeTableWord :
    decodeTableWord 32 0x24 = some .decode ∧ decodeTableWord 8 0x24 = some .decode ∧ decodeTableWord 32 0x25 = none := by
  decide
/-- No two rows of the opcode table overlap. -/
theorem test_opcodeTable_unambiguous :
    opcodeTable.Pairwise fun r r' => r.pattern &&& r'.mask ≠ r'.pattern &&& r.mask := by decide

/-! ### One step of each command -/

/-- V5's counts. -/
theorem test_freq :
    after (exec .freq (load .dbuf [97#8, 98#8, 99#8, 99#8] base)) (fun t => (t.freq, t.stage)) =
      some ([(97, 1), (98, 1), (99, 2)], .cFreq) := by decide +kernel

/-- The counts of T8. -/
def countsT8 : Sparse Nat := [(65, 5), (66, 2), (67, 1), (68, 1), (82, 2)]

/-- T8: TREE_INFO after TINIT. -/
theorem test_tinit :
    after (exec .tinit { base with stage := .cFreq, freq := countsT8 }) (fun t => (treeInfo t, t.stage)) =
      some (0x002C0000#32, .cQueue) := by decide +kernel

/-- T8: the queue after TINIT. -/
def queueT8 : State :=
  { base with
    stage := .cQueue
    freq := countsT8
    node := [(65, ⟨true, true, 65#8, 5, 0#9, 0#9⟩), (66, ⟨true, true, 66#8, 2, 0#9, 0#9⟩),
             (67, ⟨true, true, 67#8, 1, 0#9, 0#9⟩), (68, ⟨true, true, 68#8, 1, 0#9, 0#9⟩),
             (82, ⟨true, true, 82#8, 2, 0#9, 0#9⟩)]
    nlive := 5
    sel := 256#9 }

/-- T8: the first merge takes 67 and 68; NODE_INFO of the new node. -/
theorem test_tmerge :
    after (exec .tmerge queueT8) (fun t => (treeInfo t, nodeInfo t, t.stage)) =
      some (0x00240400#32, 0x04421803#32, .cQueue) := by decide +kernel

/-- T8: the tree of V3; NODE_INFO of the last inner node, whose left child is the older internal node. -/
theorem test_tbuild :
    after (exec .tbuild { base with stage := .cFreq, freq := countsT8, sel := 258#9 })
      (fun t => (treeInfo t, nodeInfo t, t.stage)) = some (0x000C1303#32, 0x10180001#32, .cTree) := by decide +kernel

/-- S3's shape: "0" to the left, "1" to the right; TREE_INFO after ASSIGN. -/
theorem test_assign :
    after (exec .assign treeAB) (fun t => (t.ct, treeInfo t, t.node)) =
      some ([(97, [false]), (98, [true])], 0x00040000#32, []) := by decide +kernel

/-- S2: the root is a leaf. -/
theorem test_assign_one : after (exec .assign treeA) (fun t => t.ct) = some [(5, [false])] := by decide +kernel

/-- E5: most significant bit first, zero padding. -/
def encodeE5 : State :=
  { load .dbuf [9#8, 7#8, 9#8] base with stage := .cCodes, ct := [(7, [false]), (9, [true])] }

theorem test_encode :
    after (exec .encode encodeE5) (fun t => (t.payload, t.nbits, t.padding)) = some ([0xA0#8], 3, 5) := by decide +kernel

/-- R173. -/
theorem test_encode_miss :
    after (exec .encode { encodeE5 with ct := [(7, [false])] }) (fun t => statusWord t) = some 0x00000082#32 := by
  decide +kernel

/-- V6: the name needs every escape, and the key "0" comes before "255". -/
def serializeV6 : State :=
  { load .pbuf [0xA0#8] (load .nbuf nameV6 base) with
    stage := .cPacked, padding := 5, ct := [(0, [true]), (255, [false])] }

theorem test_serialize :
    after (exec .serialize serializeV6) (fun t => (t.container, t.stage)) =
      some (headV6 ++ [0x00#8, 0xA0#8], .cDone) := by decide +kernel

/-- A9: V6's container parsed. -/
theorem test_parse :
    after (exec .parse (load .cbuf (headV6 ++ [0x00#8, 0xA0#8]) base)) (fun t => (t.name, t.ct, t.padding, t.payload)) =
      some (nameV6, [(0, [true]), (255, [false])], 5, [0xA0#8]) := by decide +kernel

/-- F1d: no delimiter, before the header is looked at. -/
theorem test_parse_noDelimiter :
    after (exec .parse (load .cbuf [0x7B#8, 0x7D#8, 0x7D#8] base)) (fun t => statusWord t) = some 0x00000012#32 := by
  decide +kernel

/-- K6 passes. -/
theorem test_chktab :
    after (exec .chktab { base with stage := .dParsed, ct := k6 }) (fun t => (t.stage, t.ct)) = some (.dTable, k6) := by
  decide +kernel

/-- K9: a code that begins with a later entry's code. -/
theorem test_chktab_bad :
    after (exec .chktab { base with stage := .dParsed, ct := [(65, [false, true]), (66, [false])] })
      (fun t => statusWord t) = some 0x00000032#32 := by decide +kernel

/-- U3. -/
theorem test_unpack :
    after (exec .unpack { base with stage := .dTable, plen := 1, padding := 7 }) (fun t => (t.nbits, t.stage)) =
      some (1, .dUnpacked) := by decide +kernel

/-- U7. -/
theorem test_unpack_bad :
    after (exec .unpack { base with stage := .dTable, plen := 1, padding := 8 }) (fun t => statusWord t) =
      some 0x00000042#32 := by decide +kernel

/-- D4's start. -/
def decodeD4 : State := { load .pbuf [0x48#8] base with stage := .dUnpacked, ct := k6, nbits := 8 }

/-- D4. -/
theorem test_decode :
    after (exec .decode decodeD4) (fun t => (t.data, t.stage)) =
      some ([0x41#8, 0x42#8, 0x41#8, 0x42#8, 0x41#8, 0x41#8], .dDone) := by decide +kernel

/-- D5: bits are left over. -/
theorem test_decode_incomplete :
    after (exec .decode (load .pbuf [0x60#8] decodeD4)) (fun t => statusWord t) = some 0x00000052#32 := by decide +kernel

/-- V1's data and name. -/
def inputV1 : State := load .nbuf [0x61#8] (load .dbuf (List.replicate 5 5#8) base)

/-- V1. -/
theorem test_compress :
    after (exec .compress inputV1) (fun t => (t.container, t.clen, t.stage)) = some (contV1, 56, .cDone) := by
  decide +kernel

/-- V1 back. -/
theorem test_decompress :
    after (exec .decompress (load .cbuf contV1 base)) (fun t => (t.data, t.name, t.nbits, t.stage)) =
      some (List.replicate 5 5#8, [0x61#8], 5, .dDone) := by decide +kernel

/-- M4: the table is checked before the padding and the bits. -/
theorem test_decompress_precedence :
    after (exec .decompress
        (load .cbuf (serHeader 9 [(65, [false]), (66, [false])] [0x78#8] ++ [0x00#8, 0xFF#8]) base))
      (fun t => statusWord t) = some 0x00000032#32 := by decide +kernel

/-- I18: SRESET leaves a fault. -/
theorem test_sreset :
    after (exec .sreset (faultEntry .fmtHeader base)) (fun t => (statusWord t, treeInfo t)) =
      some (0x00000000#32, 0x00040000#32) := by decide +kernel

/-! ### Issue, the host's accesses, the flags -/

/-- One host move in a state. -/
def move (m : HostMove) (s : State) : State := { s with host := [m] }

/-- I3, I6, I11: an illegal word, a stage command out of sequence, a start command. -/
theorem test_issue :
    after (step (move (.regWrite .word 0 0x00000110#32) base)) statusWord = some 0x00000072#32 ∧
      after (step (move (.regWrite .word 0 0x00000012#32) base)) statusWord = some 0x00000082#32 ∧
      after (step (move (.regWrite .word 0 0x00000011#32) { base with stage := .cDone })) statusWord =
        some 0x00000601#32 := by decide +kernel

/-- I15, I17, I18: what a faulted and a busy core make of CMD writes. -/
theorem test_issue_ignored :
    after (step (move (.regWrite .word 0 0x00000003#32) (faultEntry .fmtHeader base))) statusWord =
        some 0x00000022#32 ∧
      after (step (move (.regWrite .word 0 0x00000001#32) { base with busy := true, delay := 1 })) statusWord =
        some 0x00000000#32 ∧
      after (step (move (.regWrite .word 0 0x00000001#32) (faultEntry .fmtHeader base))) statusWord =
        some 0x00000000#32 := by decide +kernel

/-- H4, H5, H9, H11, H13: register writes and their bounds. -/
theorem test_register_writes :
    after (step (move (.regWrite .word 0x08 0x00010000#32) { base with stage := .cCodes })) (fun t => (t.dlen, t.stage)) =
        some (65536, .empty) ∧
      after (step (move (.regWrite .word 0x08 0x00010001#32) { base with stage := .cCodes })) (fun t => (t.dlen, t.stage)) =
        some (0, .cCodes) ∧
      after (step (move (.regWrite .word 0x20 0xFFFFFFFF#32) base)) (fun t => readReg t 0x20) = some 0x000001FF#32 ∧
      after (step (move (.regWrite .word 0x14 7#32) base)) (fun t => t.plen) = some 0 := by decide +kernel

/-- H10, H11, H12: buffer writes and their bounds. -/
theorem test_buffer_writes :
    after (step (move (.bufWrite .byte .pbuf 0 0xFF#8) { base with stage := .cPacked })) (fun t => (t.pbuf.cells, t.stage)) =
        some ([], .cPacked) ∧
      after (step (move (.bufWrite .byte .cbuf 0 0x00#8) { base with stage := .cPacked })) (fun t => (t.cbuf.cells, t.stage)) =
        some ([(0, 0#8)], .empty) ∧
      after (step (move (.bufWrite .byte .dbuf 65536 1#8) base)) (fun t => t.dbuf.cells) = some [] := by decide +kernel

/-- S4, S6, H12: reads of the windows and of a byte beyond the capacity. -/
theorem test_reads :
    ctBits { base with ct := [(66, [true, true, false])], sel := 66#9 } 0 = 0xC0000000#32 ∧
      ctInfo { base with ct := [(66, [true, true, false])], sel := 66#9 } = 0x00000007#32 ∧
      after (step (move (.bufRead .byte .dbuf 65536) base)) (fun t => t.answers) = some [0#32] ∧
      after (step (move (.regRead .word 0x30) base)) (fun t => t.answers) = some [0x00040000#32] := by decide +kernel

/-- H16: accesses the model does not give the host. -/
theorem test_refused_accesses :
    step (move (.regWrite .half 0x08 0#32) base) = .refused .registerAccess ∧
      step (move (.regRead .word 0x06) base) = .refused .registerAccess ∧
      step (move (.bufRead .word .dbuf 0) base) = .refused .bufferAccess := ⟨rfl, rfl, rfl⟩

/-- R118: a busy core's step comes at the latest when the host waits. -/
theorem test_wait_lets_the_core_step :
    after (step (move .wait { load .dbuf [5#8] base with busy := true, pend := 0x11#8, delay := 3 }))
      (fun t => (t.freq, t.busy, t.stage)) = some ([(5, 1)], false, .cFreq) := by decide +kernel

/-! ### Witnesses: the hypotheses of each statement can be met together, at the bounds of their ranges -/

/-- A host move in an idle state. -/
theorem witness_CoreStepRunsPendingCommand :
    (∃ s : State, s.busy = true ∧ s.delay = 0 ∧ s.pend = opcode .freq ∧ hostWaits s = false) ∧
      ∃ s : State, s.busy = true ∧ s.delay ≠ 0 ∧ s.pend = opcode .decode ∧ hostWaits s = true :=
  ⟨⟨{ move (.regRead .word 4) base with busy := true, pend := 0x11#8 }, by decide⟩,
   ⟨{ move .wait base with busy := true, pend := 0x24#8, delay := 1 }, by decide⟩⟩

theorem witness_LegalCommandIsAccepted :
    ∃ s : State, s.busy = false ∧ s.fault = false ∧ s.host = .regWrite .word 0 (encode .tinit) :: [] ∧
      legalAt .tinit s.stage = true :=
  ⟨{ move (.regWrite .word 0 (encode .tinit)) base with stage := .cFreq }, by decide⟩

theorem witness_IllegalWordFaults :
    ∃ s : State, s.busy = false ∧ s.fault = false ∧ s.host = .regWrite .word 0 0x00000110#32 :: [] ∧
      ∀ i, (0x00000110#32 : Word) ≠ encode i :=
  ⟨move (.regWrite .word 0 0x00000110#32) base, rfl, rfl, rfl, fun i => by cases i <;> decide⟩

theorem witness_WrongStageFaults :
    ∃ s : State, s.busy = false ∧ s.fault = false ∧ s.host = .regWrite .word 0 (encode .serialize) :: [] ∧
      legalAt .serialize s.stage = false :=
  ⟨{ move (.regWrite .word 0 (encode .serialize)) base with stage := .cDone }, by decide⟩

theorem witness_SresetWriteResets :
    (∃ s : State, s.host = .regWrite .word 0 0x00000001#32 :: [] ∧ s.busy = true ∧ s.delay ≠ 0) ∧
      ∃ s : State, s.host = .regWrite .word 0 0x00000001#32 :: [] ∧ s.busy = false ∧ s.fault = true :=
  ⟨⟨{ move (.regWrite .word 0 0x00000001#32) base with busy := true, delay := 1 }, by decide⟩,
   ⟨move (.regWrite .word 0 0x00000001#32) (faultEntry .fmtHeader base), rfl, rfl, rfl⟩⟩

theorem witness_HardwareResetIsSreset :
    ∃ s : State, s.host = .reset :: [] ∧ s.busy = true ∧ s.delay ≠ 0 :=
  ⟨{ move .reset base with busy := true, delay := 1 }, by decide⟩

theorem witness_BusyOrFaultedIgnoresTheHost :
    (∃ s : State, s.busy = true ∧ s.delay ≠ 0 ∧ s.host = .regWrite .word 8 1#32 :: [] ∧
      (HostMove.regWrite .word 8 1#32).wf = true) ∧
      ∃ s : State, s.busy = false ∧ s.fault = true ∧ s.host = .regWrite .word 0 3#32 :: [] ∧
        (3#32 : Word) ≠ 0x00000001#32 :=
  ⟨⟨{ move (.regWrite .word 8 1#32) base with busy := true, delay := 1 }, by decide⟩,
   ⟨move (.regWrite .word 0 3#32) (faultEntry .fmtHeader base), rfl, rfl, rfl, by decide⟩⟩

theorem witness_StatusReadIsExact :
    (∃ s : State, s.host = .regRead .word 0x04 :: [] ∧ s.busy = true ∧ s.delay ≠ 0) ∧
      ∃ s : State, s.host = .regRead .word 0x04 :: [] ∧ s.busy = false ∧ s.FlagsWf ∧ s.fault = false :=
  ⟨⟨{ move (.regRead .word 0x04) base with busy := true, delay := 1 }, by decide⟩,
   ⟨move (.regRead .word 0x04) base, by decide⟩⟩

theorem witness_ResetLeavesTheResetValues : ∃ s : State, ResetValues s ∧ s.freq ≠ [] :=
  ⟨{ base with freq := countsT8 }, by unfold ResetValues; decide⟩

theorem witness_LengthWrites :
    (∃ s : State, s.host = .regWrite .word 0x08 0x00010000#32 :: [] ∧ s.busy = false ∧ s.fault = false ∧
      (BufId.dbuf, 0x08) ∈ [(BufId.dbuf, 0x08), (.nbuf, 0x0C), (.cbuf, 0x10)] ∧
      (0x00010000#32 : Word).toNat = capacity s.cfg .dbuf) ∧
      ∃ s : State, s.host = .regWrite .word 0x0C 0x00000100#32 :: [] ∧ s.busy = false ∧
        (BufId.nbuf, 0x0C) ∈ [(BufId.dbuf, 0x08), (.nbuf, 0x0C), (.cbuf, 0x10)] ∧
        (0x00000100#32 : Word).toNat = capacity s.cfg .nbuf + 1 :=
  ⟨⟨move (.regWrite .word 0x08 0x00010000#32) base, by decide⟩,
   ⟨move (.regWrite .word 0x0C 0x00000100#32) base, by decide⟩⟩

theorem witness_SelWrites :
    ∃ s : State, s.host = .regWrite .word 0x20 0xFFFFFFFF#32 :: [] ∧ s.busy = false ∧ s.fault = false :=
  ⟨move (.regWrite .word 0x20 0xFFFFFFFF#32) base, by decide⟩

theorem witness_OtherRegisterWritesAreIgnored :
    ∃ s : State, s.host = .regWrite .word 0x14 7#32 :: [] ∧ s.busy = false ∧ 0x14 % 4 = 0 ∧
      0x14 ∉ [0x00, 0x08, 0x0C, 0x10, 0x20] :=
  ⟨move (.regWrite .word 0x14 7#32) base, by decide⟩

theorem witness_HostByteWrites :
    (∃ s : State, s.host = .bufWrite .byte .dbuf 65535 9#8 :: [] ∧ s.busy = false ∧ s.fault = false ∧
      BufId.dbuf ≠ .pbuf ∧ 65535 < capacity s.cfg .dbuf) ∧
      ∃ s : State, s.host = .bufWrite .byte .dbuf 65536 9#8 :: [] ∧ s.busy = false ∧
        ¬(65536 < capacity s.cfg .dbuf) :=
  ⟨⟨move (.bufWrite .byte .dbuf 65535 9#8) base, by decide⟩,
   ⟨move (.bufWrite .byte .dbuf 65536 9#8) base, by decide⟩⟩

theorem witness_HostByteReads :
    (∃ s : State, s.host = .bufRead .byte .nbuf 254 :: [] ∧ s.busy = false ∧ s.fault = false ∧
      254 < capacity s.cfg .nbuf) ∧
      ∃ s : State, s.host = .bufRead .byte .nbuf 255 :: [] ∧ s.busy = false ∧ s.fault = false ∧
        ¬(255 < capacity s.cfg .nbuf) :=
  ⟨⟨move (.bufRead .byte .nbuf 254) base, by decide⟩, ⟨move (.bufRead .byte .nbuf 255) base, by decide⟩⟩

theorem witness_OtherAccessesAreRefused :
    ∃ s : State, s.host = .regRead .word 0x06 :: [] ∧ s.busy = false ∧
      (HostMove.regRead .word 0x06).wf = false :=
  ⟨move (.regRead .word 0x06) base, by decide⟩

theorem witness_ReadWindows :
    (∃ s : State, s.busy = false ∧ s.fault = false ∧ s.host = .regRead .word 0x5C :: [] ∧ 0x5C % 4 = 0) ∧
      (∃ (s : State) (n : Node), s.sel.toNat ≤ 510 ∧ s.sel.toNat = 510 ∧ s.nodeAt s.sel.toNat = some n) ∧
      (∃ s : State, 510 < s.sel.toNat) ∧ (∃ s : State, s.sel.toNat ≤ 510 ∧ s.nodeAt s.sel.toNat = none) ∧
      (∃ (s : State) (c : Bits), s.sel.toNat % 256 = 255 ∧ s.codeAt (s.sel.toNat % 256) = some c) ∧
      ∃ s : State, s.codeAt (s.sel.toNat % 256) = none :=
  ⟨⟨move (.regRead .word 0x5C) base, by decide⟩,
   ⟨{ base with sel := 510#9, node := [(510, ⟨true, false, 0#8, 2, 508#9, 509#9⟩)] },
      ⟨true, false, 0#8, 2, 508#9, 509#9⟩, by decide⟩,
   ⟨{ base with sel := 511#9 }, by decide⟩, ⟨base, by decide⟩,
   ⟨{ base with sel := 511#9, ct := [(255, [true])] }, [true], by decide⟩, ⟨base, by decide⟩⟩

theorem witness_CodeWindowShowsTheCode : ∃ (_ : State) (w j : Nat), w < 8 ∧ j < 32 ∧ w = 7 ∧ j = 31 :=
  ⟨base, 7, 31, by decide⟩

theorem witness_FreqCountsTheData : ∃ s : State, s.dlen ≤ s.cfg.dMax ∧ s.dlen = 65536 :=
  ⟨{ base with dlen := 65536 }, by decide⟩

theorem witness_TinitMakesTheLeaves :
    ∃ s s' s'' : State, (s.stage = .cFreq ∧ s'.stage = .cFreq ∧ s''.stage = .cFreq) ∧
      ((List.range 256).filter fun b => 0 < s.freqAt b).length = 0 ∧
      ((List.range 256).filter fun b => 0 < s'.freqAt b).length = 1 ∧
      ((List.range 256).filter fun b => 0 < s''.freqAt b).length = 2 :=
  ⟨{ base with stage := .cFreq }, { base with stage := .cFreq, freq := [(255, 1)] },
   { base with stage := .cFreq, freq := [(0, 1), (255, 1)] }, by decide +kernel⟩

/-- A node of a concrete store is one of its entries. -/
theorem nodeAt_mem {s : State} {i : Nat} {n : Node} (hw : Sparse.wf s.node) (h : s.nodeAt i = some n) :
    (i, n) ∈ s.node := (Sparse.mem_iff_get hw).2 h

theorem witness_TmergeCombinesTheTwoSmallest :
    ∃ (s : State) (a b : Nat) (na nb : Node),
      s.stage = .cQueue ∧ Sparse.wf s.node ∧ s.next ≤ 510 ∧ a ≠ b ∧
      s.nodeAt a = some na ∧ na.live = true ∧ s.nodeAt b = some nb ∧ nb.live = true ∧
      (∀ j m, s.nodeAt j = some m → m.live = true → j ≠ a →
        na.freq < m.freq ∨ (na.freq = m.freq ∧ a < j)) ∧
      ∀ j m, s.nodeAt j = some m → m.live = true → j ≠ a → j ≠ b →
        nb.freq < m.freq ∨ (nb.freq = m.freq ∧ b < j) := by
  have hw : Sparse.wf ({ queueT8 with next := 510 } : State).node := by decide
  refine ⟨{ queueT8 with next := 510 }, 67, 68, ⟨true, true, 67#8, 1, 0#9, 0#9⟩, ⟨true, true, 68#8, 1, 0#9, 0#9⟩,
    by decide, hw, by decide, by decide, by decide, by decide, by decide, by decide, ?_, ?_⟩
  · intro j m h _ hj
    have := nodeAt_mem hw h
    simp [queueT8] at this
    rcases this with ⟨rfl, rfl⟩ | ⟨rfl, rfl⟩ | ⟨rfl, rfl⟩ | ⟨rfl, rfl⟩ | ⟨rfl, rfl⟩ <;> simp at hj ⊢
  · intro j m h _ hj hj'
    have := nodeAt_mem hw h
    simp [queueT8] at this
    rcases this with ⟨rfl, rfl⟩ | ⟨rfl, rfl⟩ | ⟨rfl, rfl⟩ | ⟨rfl, rfl⟩ | ⟨rfl, rfl⟩ <;> simp at hj hj' ⊢

/-! The concrete states of the tree store, and what holds of them. -/

theorem queueAB_histogram : queueAB.Histogram := by
  have : ∀ b, b < 256 → queueAB.freqAt b = queueAB.data.count (BitVec.ofNat 8 b) := by decide +kernel
  exact this

theorem treeAB_histogram : treeAB.Histogram := queueAB_histogram

theorem treeA_histogram : treeA.Histogram := by
  have : ∀ b, b < 256 → treeA.freqAt b = treeA.data.count (BitVec.ofNat 8 b) := by decide +kernel
  exact this

theorem treeNone_histogram : treeNone.Histogram := by
  have : ∀ b, b < 256 → treeNone.freqAt b = treeNone.data.count (BitVec.ofNat 8 b) := by decide +kernel
  exact this

theorem nodeAt_queueAB (i : Nat) : queueAB.nodeAt i =
    if i = 97 then some ⟨true, true, 97#8, 1, 0#9, 0#9⟩
    else if i = 98 then some ⟨true, true, 98#8, 1, 0#9, 0#9⟩ else none := by
  simp only [State.nodeAt, queueAB, Sparse.get_cons, Sparse.get_nil]

theorem freqAt_queueAB (i : Nat) : queueAB.freqAt i = if i = 97 then 1 else if i = 98 then 1 else 0 := by
  simp only [State.freqAt, queueAB, Sparse.get_cons, Sparse.get_nil]
  split_ifs <;> rfl

theorem nodeAt_treeAB (i : Nat) : treeAB.nodeAt i =
    if i = 97 then some ⟨false, true, 97#8, 1, 0#9, 0#9⟩
    else if i = 98 then some ⟨false, true, 98#8, 1, 0#9, 0#9⟩
    else if i = 256 then some ⟨true, false, 0#8, 2, 97#9, 98#9⟩ else none := by
  simp only [State.nodeAt, treeAB, Sparse.get_cons, Sparse.get_nil]

theorem nodeAt_treeA (i : Nat) : treeA.nodeAt i =
    if i = 5 then some ⟨true, true, 5#8, 1, 0#9, 0#9⟩ else none := by
  simp only [State.nodeAt, treeA, Sparse.get_cons, Sparse.get_nil]

theorem freqAt_treeA (i : Nat) : treeA.freqAt i = if i = 5 then 1 else 0 := by
  simp only [State.freqAt, treeA, Sparse.get_cons, Sparse.get_nil]
  split_ifs <;> rfl

/-- An entry chosen by nested conditions is one of the alternatives. -/
theorem node_queueAB {i : Nat} {n : Node} (h : queueAB.nodeAt i = some n) :
    (i = 97 ∧ n = ⟨true, true, 97#8, 1, 0#9, 0#9⟩) ∨ (i = 98 ∧ n = ⟨true, true, 98#8, 1, 0#9, 0#9⟩) := by
  simpa [queueAB] using nodeAt_mem (s := queueAB) (by decide) h

theorem node_treeAB {i : Nat} {n : Node} (h : treeAB.nodeAt i = some n) :
    (i = 97 ∧ n = ⟨false, true, 97#8, 1, 0#9, 0#9⟩) ∨ (i = 98 ∧ n = ⟨false, true, 98#8, 1, 0#9, 0#9⟩) ∨
      (i = 256 ∧ n = ⟨true, false, 0#8, 2, 97#9, 98#9⟩) := by
  simpa [treeAB] using nodeAt_mem (s := treeAB) (by decide) h

theorem node_treeA {i : Nat} {n : Node} (h : treeA.nodeAt i = some n) :
    i = 5 ∧ n = ⟨true, true, 5#8, 1, 0#9, 0#9⟩ := by
  simpa [treeA] using nodeAt_mem (s := treeA) (by decide) h

theorem queueAB_forest : queueAB.Forest := by
  refine ⟨?_, ?_, ?_, ⟨?_, ?_⟩,
    by unfold State.LiveIsCounted; decide +kernel, by unfold State.LiveFrequenciesAddUp; decide +kernel⟩
  · intro i
    have : queueAB.next = 256 := rfl
    rw [nodeAt_queueAB, freqAt_queueAB, this]
    split_ifs <;> simp <;> omega
  · intro i n h
    rcases node_queueAB h with ⟨rfl, rfl⟩ | ⟨rfl, rfl⟩ <;> simp [freqAt_queueAB]
  · intro i n h hl
    rcases node_queueAB h with ⟨rfl, rfl⟩ | ⟨rfl, rfl⟩ <;> simp at hl
  · intro i j n m c h _ hc _
    rcases node_queueAB h with ⟨rfl, rfl⟩ | ⟨rfl, rfl⟩ <;> simp [State.ChildOf] at hc
  · intro c k h
    have hk : k.live = true := by rcases node_queueAB h with ⟨rfl, rfl⟩ | ⟨rfl, rfl⟩ <;> rfl
    refine iff_of_true hk ?_
    rintro ⟨i, n, h', hc⟩
    rcases node_queueAB h' with ⟨rfl, rfl⟩ | ⟨rfl, rfl⟩ <;> simp [State.ChildOf] at hc

theorem treeAB_forest : treeAB.Forest := by
  refine ⟨?_, ?_, ?_, ⟨?_, ?_⟩,
    by unfold State.LiveIsCounted; decide +kernel, by unfold State.LiveFrequenciesAddUp; decide +kernel⟩
  · intro i
    have : treeAB.next = 257 := rfl
    have hf : treeAB.freqAt i = queueAB.freqAt i := rfl
    rw [nodeAt_treeAB, hf, freqAt_queueAB, this]
    split_ifs <;> simp <;> omega
  · intro i n h
    have hf : ∀ i, treeAB.freqAt i = queueAB.freqAt i := fun _ => rfl
    rcases node_treeAB h with ⟨rfl, rfl⟩ | ⟨rfl, rfl⟩ | ⟨rfl, rfl⟩ <;> simp [hf, freqAt_queueAB]
  · intro i n h hl
    rcases node_treeAB h with ⟨rfl, rfl⟩ | ⟨rfl, rfl⟩ | ⟨rfl, rfl⟩
    · simp at hl
    · simp at hl
    · refine ⟨by decide, by decide, by decide, ⟨false, true, 97#8, 1, 0#9, 0#9⟩,
        ⟨false, true, 98#8, 1, 0#9, 0#9⟩, by decide⟩
  · intro i j n m c h h' hc hc'
    rcases node_treeAB h with ⟨rfl, rfl⟩ | ⟨rfl, rfl⟩ | ⟨rfl, rfl⟩ <;>
      rcases node_treeAB h' with ⟨rfl, rfl⟩ | ⟨rfl, rfl⟩ | ⟨rfl, rfl⟩ <;> simp_all [State.ChildOf]
  · intro c k h
    rcases node_treeAB h with ⟨rfl, rfl⟩ | ⟨rfl, rfl⟩ | ⟨rfl, rfl⟩
    · refine iff_of_false (by decide) (not_not.2 ⟨256, ⟨true, false, 0#8, 2, 97#9, 98#9⟩, by decide, rfl, .inl rfl⟩)
    · refine iff_of_false (by decide) (not_not.2 ⟨256, ⟨true, false, 0#8, 2, 97#9, 98#9⟩, by decide, rfl, .inr rfl⟩)
    · refine iff_of_true rfl ?_
      rintro ⟨i, n, h', hc⟩
      rcases node_treeAB h' with ⟨rfl, rfl⟩ | ⟨rfl, rfl⟩ | ⟨rfl, rfl⟩ <;> simp [State.ChildOf] at hc

theorem treeA_forest : treeA.Forest := by
  refine ⟨?_, ?_, ?_, ⟨?_, ?_⟩,
    by unfold State.LiveIsCounted; decide +kernel, by unfold State.LiveFrequenciesAddUp; decide +kernel⟩
  · intro i
    have : treeA.next = 256 := rfl
    rw [nodeAt_treeA, freqAt_treeA, this]
    split_ifs <;> simp
    omega
  · intro i n h
    obtain ⟨rfl, rfl⟩ := node_treeA h
    simp [freqAt_treeA]
  · intro i n h hl
    obtain ⟨rfl, rfl⟩ := node_treeA h
    simp at hl
  · intro i j n m c h _ hc _
    obtain ⟨rfl, rfl⟩ := node_treeA h
    simp [State.ChildOf] at hc
  · intro c k h
    obtain ⟨rfl, rfl⟩ := node_treeA h
    refine iff_of_true rfl ?_
    rintro ⟨i, n, h', hc⟩
    obtain ⟨rfl, rfl⟩ := node_treeA h'
    simp [State.ChildOf] at hc

theorem treeNone_forest : treeNone.Forest := by
  refine ⟨?_, ?_, ?_, ⟨?_, ?_⟩,
    by unfold State.LiveIsCounted; decide +kernel, by unfold State.LiveFrequenciesAddUp; decide +kernel⟩
  · intro i
    have : treeNone.next = 256 := rfl
    rw [this]
    simp [State.nodeAt, State.freqAt, treeNone, base]
  all_goals
    intro i
    simp [State.nodeAt, treeNone, base]

theorem witness_TreeStoreInvariants :
    (∃ s : State, s.stage = .cFreq ∧ s.Histogram) ∧
      ∃ s : State, s.stage = .cQueue ∧ s.ArraysWf ∧ s.Histogram ∧ s.Forest ∧ 2 ≤ s.nlive ∧ s.rootV = false :=
  ⟨⟨{ queueAB with stage := .cFreq }, rfl, queueAB_histogram⟩,
   ⟨queueAB, rfl, by decide, queueAB_histogram, queueAB_forest, by decide, rfl⟩⟩

theorem witness_TbuildIsTinitAndMerges :
    ∃ s s' : State, s.stage = .cFreq ∧ s'.stage = .cFreq ∧
      ((List.range 256).filter fun b => 0 < s.freqAt b).length = 0 ∧
      ((List.range 256).filter fun b => 0 < s'.freqAt b).length = 5 :=
  ⟨{ base with stage := .cFreq }, { base with stage := .cFreq, freq := countsT8 }, by decide +kernel⟩

theorem treeAB_built : treeAB.TreeBuilt := by refine ⟨?_, ?_, ?_, ?_⟩ <;> decide
theorem treeA_built : treeA.TreeBuilt := by refine ⟨?_, ?_, ?_, ?_⟩ <;> decide
theorem treeNone_built : treeNone.TreeBuilt := by refine ⟨?_, ?_, ?_, ?_⟩ <;> decide

/-- No tree, a root that is a leaf, a root that is an internal node. -/
theorem witness_AssignWritesThePaths :
    (∃ s : State, s.stage = .cTree ∧ s.ArraysWf ∧ s.Histogram ∧ s.Forest ∧ s.TreeBuilt ∧ s.rootV = false) ∧
      (∃ (s : State) (n : Node), s.stage = .cTree ∧ s.ArraysWf ∧ s.Histogram ∧ s.Forest ∧ s.TreeBuilt ∧
        s.rootV = true ∧ s.nodeAt s.root.toNat = some n ∧ n.leaf = true) ∧
      ∃ (s : State) (n : Node), s.stage = .cTree ∧ s.ArraysWf ∧ s.Histogram ∧ s.Forest ∧ s.TreeBuilt ∧
        s.rootV = true ∧ s.nodeAt s.root.toNat = some n ∧ n.leaf = false :=
  ⟨⟨treeNone, rfl, by decide, treeNone_histogram, treeNone_forest, treeNone_built, rfl⟩,
   ⟨treeA, ⟨true, true, 5#8, 1, 0#9, 0#9⟩, rfl, by decide, treeA_histogram, treeA_forest, treeA_built, by decide⟩,
   ⟨treeAB, ⟨true, false, 0#8, 2, 97#9, 98#9⟩, rfl, by decide, treeAB_histogram, treeAB_forest, treeAB_built,
     by decide⟩⟩

theorem witness_AssignedTableIsPrefixFree :
    ∃ s : State, s.stage = .cTree ∧ s.ArraysWf ∧ s.Histogram ∧ s.Forest ∧ s.TreeBuilt ∧ s.nlive = 1 :=
  ⟨treeAB, rfl, by decide, treeAB_histogram, treeAB_forest, treeAB_built, rfl⟩

theorem witness_EncodePacksTheCodes :
    ∃ s : State, s.stage = .cCodes ∧ s.dlen ≤ s.cfg.dMax ∧
      (∀ x ∈ s.data, (s.codeAt x.toNat).isSome = true) ∧ (s.encodedBits s.data).length ≤ 8 * s.cfg.cMax ∧
      s.data ≠ [] :=
  ⟨encodeE5, by decide +kernel⟩

theorem witness_EncodeMissFaults :
    ∃ s : State, s.stage = .cCodes ∧ s.dlen ≤ s.cfg.dMax ∧ ∃ x ∈ s.data, s.codeAt x.toNat = none :=
  ⟨{ encodeE5 with ct := [(7, [false])] }, by decide +kernel⟩

theorem witness_SerializeWritesTheContainer :
    ∃ s : State, s.stage = .cPacked ∧ s.LengthsFit ∧
      (serHeader s.padding s.table s.name).length + 1 + s.plen ≤ s.cfg.cMax :=
  ⟨{ serializeV6 with cfg := ⟨0, 10, 87⟩ }, by decide +kernel⟩

theorem witness_HeaderHasNoControlByte : ∃ x, x ∈ serHeader 5 [(0, [true])] nameV6 ∧ x = 0x20#8 + 0x10#8 :=
  ⟨0x30#8, by decide +kernel⟩

theorem witness_HeaderLength :
    ∃ (p : Nat) (t : List (Nat × Bits)), p ≤ 7 ∧ t.length ≤ 256 ∧ (∀ e ∈ t, e.1 ≤ 255 ∧ e.2.length ≤ 255) ∧ p = 7 ∧ t ≠ [] :=
  ⟨7, [(255, List.replicate 255 true)], by decide +kernel⟩

theorem witness_ParseReadsTheFourFields :
    ∃ (s : State) (v : Nat) (t : List (Nat × Bits)) (nm p : List Byte),
      s.clen ≤ s.cfg.cMax ∧ s.container = serHeader v t nm ++ [0x00#8] ++ p ∧
      (∀ e ∈ t, e.1 ≤ 255 ∧ e.2.length ≤ 255) ∧ (t.map Prod.fst).Nodup ∧ nm.length ≤ s.cfg.nMax ∧ v > 8 ∧ t ≠ [] :=
  ⟨load .cbuf (serHeader 9 [(66, [true, false]), (65, [false])] [0x78#8] ++ [0x00#8, 0x48#8]) base, 9,
    [(66, [true, false]), (65, [false])], [0x78#8], [0x48#8], by decide +kernel⟩

theorem witness_ParseFaults :
    (∃ s : State, s.clen ≤ s.cfg.cMax ∧ 0x00#8 ∉ s.container ∧ s.clen = 3) ∧
      (∃ (s : State) (h p : List Byte), s.clen ≤ s.cfg.cMax ∧ s.container = h ++ [0x00#8] ++ p ∧ 0x00#8 ∉ h ∧
        parseHeader h = none) ∧
      (∃ (s : State) (h p : List Byte) (hd : Header), s.clen ≤ s.cfg.cMax ∧ s.container = h ++ [0x00#8] ++ p ∧
        0x00#8 ∉ h ∧ parseHeader h = some hd ∧ ∃ e ∈ hd.codes, 255 < e.2.length) ∧
      ∃ (s : State) (h p : List Byte) (hd : Header), s.clen ≤ s.cfg.cMax ∧ s.container = h ++ [0x00#8] ++ p ∧
        0x00#8 ∉ h ∧ parseHeader h = some hd ∧ s.cfg.nMax < hd.name.length :=
  ⟨⟨load .cbuf [0x7B#8, 0x7D#8, 0x7D#8] base, by decide +kernel⟩,
   ⟨load .cbuf [0x00#8] base, [], [], by decide +kernel⟩,
   ⟨load .cbuf (serHeader 0 [(65, List.replicate 256 false)] [] ++ [0x00#8]) base,
     serHeader 0 [(65, List.replicate 256 false)] [], [], ⟨0, [(65, List.replicate 256 false)], []⟩,
     by decide +kernel, (load_bytes _ _ _).trans (List.append_nil _).symm, by decide +kernel, by decide +kernel,
     by decide +kernel⟩,
   ⟨load .cbuf (serHeader 0 [] [0x6E#8] ++ [0x00#8]) { base with cfg := ⟨0, 0, 100⟩ }, serHeader 0 [] [0x6E#8], [],
     ⟨0, [], [0x6E#8]⟩, by decide +kernel⟩⟩

/-- K6 and K8. -/
theorem witness_ChktabPassesDecodableTables :
    (∃ s : State, s.stage = .dParsed ∧ (∀ b c, b < 256 → s.codeAt b = some c → c ≠ []) ∧
      (∀ b b' c c', b < 256 → b' < 256 → b ≠ b' → s.codeAt b = some c → s.codeAt b' = some c' → ¬ c <+: c') ∧
      s.ct ≠ []) ∧
      ∃ s : State, s.stage = .dParsed ∧
        ¬((∀ b c, b < 256 → s.codeAt b = some c → c ≠ []) ∧
          ∀ b b' c c', b < 256 → b' < 256 → b ≠ b' → s.codeAt b = some c → s.codeAt b' = some c' → ¬ c <+: c') := by
  constructor
  · have hw : Sparse.wf k6 := by decide
    have hk : ∀ {b c}, ({ base with stage := .dParsed, ct := k6 } : State).codeAt b = some c →
        (b = 65 ∧ c = [false]) ∨ (b = 66 ∧ c = [true, false]) := by
      intro b c h
      simpa [k6] using (Sparse.mem_iff_get hw).2 h
    refine ⟨{ base with stage := .dParsed, ct := k6 }, rfl, ?_, ?_, by decide⟩
    · intro b c _ h
      rcases hk h with ⟨-, rfl⟩ | ⟨-, rfl⟩ <;> simp
    · intro b b' c c' _ _ hb h h'
      rcases hk h with ⟨rfl, rfl⟩ | ⟨rfl, rfl⟩ <;> rcases hk h' with ⟨rfl, rfl⟩ | ⟨rfl, rfl⟩ <;> simp at hb ⊢
  · refine ⟨{ base with stage := .dParsed, ct := [(65, [false]), (66, [false, true])] }, rfl, ?_⟩
    rintro ⟨-, h⟩
    exact h 65 66 [false] [false, true] (by decide) (by decide) (by decide) rfl rfl (by decide)

theorem witness_UnpackCountsTheBits :
    (∃ s : State, s.stage = .dTable ∧ s.padding ≤ 7 ∧ s.padding ≤ 8 * s.plen ∧ s.padding = 7 ∧ s.plen = 1) ∧
      (∃ s : State, s.stage = .dTable ∧ ¬(s.padding ≤ 7 ∧ s.padding ≤ 8 * s.plen) ∧ s.padding = 8) ∧
      ∃ s : State, s.stage = .dTable ∧ ¬(s.padding ≤ 7 ∧ s.padding ≤ 8 * s.plen) ∧ s.padding = 1 ∧ s.plen = 0 :=
  ⟨⟨{ base with stage := .dTable, plen := 1, padding := 7 }, by decide⟩,
   ⟨{ base with stage := .dTable, plen := 1, padding := 8 }, by decide⟩,
   ⟨{ base with stage := .dTable, padding := 1 }, by decide⟩⟩

/-- D4. -/
theorem witness_DecodeRecoversTheBytes :
    ∃ (s : State) (x : List Byte), s.stage = .dUnpacked ∧ s.plen ≤ s.cfg.cMax ∧ s.nbits ≤ 8 * s.plen ∧
      decodable s.table = true ∧ (∀ y ∈ x, (s.codeAt y.toNat).isSome = true) ∧ x.length ≤ s.cfg.dMax ∧
      (payloadBits s.payload).take s.nbits = s.encodedBits x ∧ x ≠ [] :=
  ⟨decodeD4, [0x41#8, 0x42#8, 0x41#8, 0x42#8, 0x41#8, 0x41#8], by decide +kernel⟩

/-- D10's shape, and D13's: one byte more than DBUF holds. -/
theorem witness_DecodeFaults :
    (∃ (s : State) (x : List Byte) (r : Bits), s.stage = .dUnpacked ∧ s.plen ≤ s.cfg.cMax ∧
      s.nbits ≤ 8 * s.plen ∧ decodable s.table = true ∧ (∀ y ∈ x, (s.codeAt y.toNat).isSome = true) ∧
      (payloadBits s.payload).take s.nbits = s.encodedBits x ++ r ∧ x.length ≤ s.cfg.dMax ∧ r ≠ [] ∧
      ∀ b c, s.codeAt b = some c → b < 256 → ¬ c <+: r) ∧
      ∃ (s : State) (x : List Byte) (r : Bits), s.stage = .dUnpacked ∧ s.plen ≤ s.cfg.cMax ∧
        s.nbits ≤ 8 * s.plen ∧ decodable s.table = true ∧ (∀ y ∈ x, (s.codeAt y.toNat).isSome = true) ∧
        (payloadBits s.payload).take s.nbits = s.encodedBits x ++ r ∧ s.cfg.dMax < x.length := by
  constructor
  · refine ⟨{ load .pbuf [0xFE#8] base with stage := .dUnpacked, ct := [(65, [true])], nbits := 8 },
      List.replicate 7 0x41#8, [false], by decide, by decide, by decide, by decide +kernel, by decide +kernel,
      by decide +kernel, by decide +kernel, by decide, ?_⟩
    intro b c h _
    have : (b, c) ∈ [(65, [true])] := (Sparse.mem_iff_get (by decide)).2 h
    simp at this
    rw [this.2]
    decide
  · exact ⟨{ load .pbuf [0x00#8, 0x00#8] base with
              cfg := ⟨15, 0, 2⟩, stage := .dUnpacked, ct := [(65, [false])], nbits := 16 },
      List.replicate 16 0x41#8, [], by decide +kernel⟩

theorem witness_CompressNeverFaults : ∃ s : State, s.cfg.ok ∧ s.LengthsFit ∧ s.dlen = 65536 ∧ s.nlen = 255 :=
  ⟨{ base with dlen := 65536, nlen := 255 }, by decide⟩

theorem witness_CompressEqualsItsStages : ∃ s : State, s.cfg.ok ∧ s.LengthsFit ∧ s.data ≠ [] :=
  ⟨inputV1, by decide⟩

theorem witness_DecompressRecoversDataAndName :
    ∃ (s : State) (v : Nat) (t : List (Nat × Bits)) (nm p x : List Byte),
      s.clen ≤ s.cfg.cMax ∧ s.container = serHeader v t nm ++ [0x00#8] ++ p ∧
      (∀ e ∈ t, e.1 ≤ 255 ∧ e.2.length ≤ 255) ∧ (t.map Prod.fst).Nodup ∧ nm.length ≤ s.cfg.nMax ∧
      decodable t = true ∧ v ≤ 7 ∧ v ≤ 8 * p.length ∧ x.length ≤ s.cfg.dMax ∧
      (∀ y ∈ x, (Sparse.get t y.toNat).isSome = true) ∧
      unpack p v = (x.flatMap fun y => (Sparse.get t y.toNat).getD []) ∧ x ≠ [] :=
  ⟨load .cbuf (serHeader 5 [(66, [true, false]), (65, [false])] [0x78#8] ++ [0x00#8, 0x5F#8]) base, 5,
    [(66, [true, false]), (65, [false])], [0x78#8], [0x5F#8], [0x41#8, 0x42#8], by decide +kernel⟩

/-- V1: no stage faults. -/
theorem witness_DecompressEqualsItsStages :
    ∃ s : State, s.fault = false ∧ s.clen ≤ s.cfg.cMax ∧ after (exec .parse s) State.fault = some false :=
  ⟨load .cbuf contV1 base, by decide +kernel⟩

theorem witness_RoundTripRecoversDataAndName :
    ∃ s t r : State, s.cfg.ok ∧ s.LengthsFit ∧ exec .compress s = .next t ∧ r.container = t.container ∧
      r.LengthsFit ∧ s.cfg.dMax ≤ r.cfg.dMax ∧ s.cfg.nMax ≤ r.cfg.nMax ∧ s.data ≠ [] := by
  obtain ⟨t, ht, h⟩ := after_some (o := exec .compress inputV1)
    (f := fun t => decide (t.LengthsFit ∧ inputV1.cfg.dMax ≤ t.cfg.dMax ∧ inputV1.cfg.nMax ≤ t.cfg.nMax)) (v := true)
    (by decide +kernel)
  have h := of_decide_eq_true h
  exact ⟨inputV1, t, t, by decide, by decide, ht, rfl, h.1, h.2.1, h.2.2, by decide⟩

theorem witness_EmptyInputCompresses : ∃ s : State, s.cfg.ok ∧ s.LengthsFit ∧ s.dlen = 0 ∧ s.nlen = 255 :=
  ⟨{ base with nlen := 255 }, by decide⟩

theorem witness_OneByteValueCompresses :
    ∃ (s : State) (x : Byte) (n : Nat), s.cfg.ok ∧ s.LengthsFit ∧ 0 < n ∧ s.data = List.replicate n x :=
  ⟨inputV1, 5#8, 5, by decide +kernel⟩

/-- V8, V1b, V3b and V10c: one for each of the four outcomes. -/
theorem witness_TruncatedContainerOutcome :
    (∃ s t : State, s.cfg.ok ∧ s.LengthsFit ∧ exec .compress s = .next t ∧ t.plen = 0) ∧
      (∃ s t : State, s.cfg.ok ∧ s.LengthsFit ∧ exec .compress s = .next t ∧ t.plen = 1 ∧ 0 < t.padding) ∧
      (∃ s t : State, s.cfg.ok ∧ s.LengthsFit ∧ exec .compress s = .next t ∧ 1 ≤ t.plen ∧
        ¬(t.plen = 1 ∧ 0 < t.padding) ∧
        ∃ j, j ≤ s.dlen ∧ (t.encodedBits (s.data.take j)).length = t.nbits - 8) ∧
      ∃ s t : State, s.cfg.ok ∧ s.LengthsFit ∧ exec .compress s = .next t ∧ 1 ≤ t.plen ∧
        ¬(t.plen = 1 ∧ 0 < t.padding) ∧
        ∀ j, j ≤ s.dlen → (t.encodedBits (s.data.take j)).length ≠ t.nbits - 8 := by
  refine ⟨?_, ?_, ?_, ?_⟩
  · obtain ⟨t, ht, h⟩ := after_some (o := exec .compress base) (f := State.plen) (v := 0) (by decide +kernel)
    exact ⟨base, t, by decide, by decide, ht, h⟩
  · obtain ⟨t, ht, h⟩ := after_some (o := exec .compress inputV1)
      (f := fun t => decide (t.plen = 1 ∧ 0 < t.padding)) (v := true) (by decide +kernel)
    exact ⟨inputV1, t, by decide, by decide, ht, of_decide_eq_true h⟩
  · obtain ⟨t, ht, h⟩ := after_some (o := exec .compress (load .dbuf abra base))
      (f := fun t => decide (1 ≤ t.plen ∧ ¬(t.plen = 1 ∧ 0 < t.padding) ∧
        (t.encodedBits ((load .dbuf abra base).data.take 7)).length = t.nbits - 8)) (v := true) (by decide +kernel)
    have h := of_decide_eq_true h
    exact ⟨load .dbuf abra base, t, by decide, by decide, ht, h.1, h.2.1, 7, by decide, h.2.2⟩
  · obtain ⟨t, ht, h⟩ := after_some (o := exec .compress (load .dbuf (hexBytes 12 0x4d4953534953534950504953) base))
      (f := fun t => decide (1 ≤ t.plen ∧ ¬(t.plen = 1 ∧ 0 < t.padding) ∧
        ∀ j ∈ List.range 13, (t.encodedBits
          ((load .dbuf (hexBytes 12 0x4d4953534953534950504953) base).data.take j)).length ≠ t.nbits - 8)) (v := true)
      (by decide +kernel)
    have h := of_decide_eq_true h
    refine ⟨load .dbuf (hexBytes 12 0x4d4953534953534950504953) base, t, by decide, by decide, ht, h.1, h.2.1, ?_⟩
    exact fun j hj => h.2.2 j (List.mem_range.2 (Nat.lt_succ_of_le hj))

/-- Two instances with different capacities and different histories. -/
theorem witness_CompressDependsOnDataAndNameAlone :
    ∃ s s' : State, s.cfg.ok ∧ s'.cfg.ok ∧ s.LengthsFit ∧ s'.LengthsFit ∧ s.data = s'.data ∧ s.name = s'.name ∧
      s.cfg ≠ s'.cfg ∧ s.ct ≠ s'.ct ∧ s.stage ≠ s'.stage :=
  ⟨inputV1, { inputV1 with cfg := ⟨5, 1, 100000⟩, ct := k6, stage := .dDone }, by decide +kernel⟩

theorem witness_CompressIsOptimal :
    ∃ (s : State) (code : Byte → Bits), s.cfg.ok ∧ s.LengthsFit ∧ (∃ x ∈ s.data, ∃ y ∈ s.data, x ≠ y) ∧
      ∀ x ∈ s.data, ∀ y ∈ s.data, x ≠ y → ¬ code x <+: code y :=
  ⟨load .dbuf [97#8, 98#8] base, fun x => if x = 97#8 then [false] else [true, true], by decide +kernel⟩

theorem witness_CommandsThatStoreNothing :
    ∀ p ∈ [(Instr.freq, queueAB), (.tinit, { queueAB with stage := .cFreq }), (.tmerge, queueAB),
        (.tbuild, { queueAB with stage := .cFreq }), (.assign, treeAB), (.chktab, { base with stage := .dParsed }),
        (.unpack, { base with stage := .dTable })],
      p.1 ∈ [Instr.freq, .tinit, .tmerge, .tbuild, .assign, .chktab, .unpack] ∧
        after (exec p.1 p.2) State.fault = some false := by decide +kernel

theorem witness_CommandsThatStore :
    ∀ p ∈ [(Instr.encode, encodeE5), (.serialize, serializeV6), (.parse, load .cbuf contV1 base), (.decode, decodeD4),
        (.compress, inputV1), (.decompress, load .cbuf contV1 base)],
      p.1 ∈ [Instr.encode, .serialize, .parse, .decode, .compress, .decompress] ∧
        after (exec p.1 p.2) State.fault = some false := by decide +kernel

/-- The queue with its merge accepted. -/
def pendingAB : State := { queueAB with busy := true, pend := 0x13#8 }

theorem pendingAB_inv : pendingAB.Inv := by
  refine ⟨by decide, ?_, by decide, by decide, by decide, ?_, by decide⟩
  · intro b
    cases b <;> decide
  · intro _
    exact ⟨.tmerge, by decide, by decide, by decide⟩

theorem pendingAB_stageMeaning : pendingAB.StageMeaning :=
  ⟨queueAB_histogram, queueAB_forest, by decide, rfl, rfl⟩

theorem pendingAB_step : ∃ t, step pendingAB = .next t ∧ t.stage = .cTree := after_some (by decide +kernel)

theorem witness_StepKeepsLegal : ∃ s t : State, s.Inv ∧ step s = .next t :=
  let ⟨t, h, _⟩ := pendingAB_step
  ⟨pendingAB, t, pendingAB_inv, h⟩

theorem witness_StepKeepsStageMeaning : ∃ s t : State, s.Inv ∧ s.StageMeaning ∧ step s = .next t :=
  let ⟨t, h, _⟩ := pendingAB_step
  ⟨pendingAB, t, pendingAB_inv, pendingAB_stageMeaning, h⟩

theorem witness_SafeMachineNeverStops : ∃ s : State, s.Safe ∧ s.busy = true :=
  ⟨pendingAB, ⟨pendingAB_inv, pendingAB_stageMeaning, by decide⟩, rfl⟩

end Sys2Proof.Tests
end

/-!
PROOFS. The host's register accesses: what a step is when the host's move is next, what a register write does, and what each
register reads.
-/

namespace Sys2Proof.Machine

/-! ### The host's turn -/

/-- When the core's step is not next, the host makes its next move. -/
theorem turn_eq_hostMove {s : State} {m : HostMove} {rest : List HostMove} (hh : s.host = m :: rest)
    (hd : s.busy = true → s.delay ≠ 0 ∧ m ≠ .wait) : turn s = hostMove m (hostTook rest s) := by
  have hc : coreTurn s = false := by
    cases hb : s.busy with
    | false => simp [coreTurn, hb]
    | true =>
      obtain ⟨hdelay, hwait⟩ := hd hb
      have hw : hostWaits s = false := by cases m <;> simp_all [hostWaits]
      simp [coreTurn, hw, hdelay]
  simp [turn, hc, hh]

/-- An aligned write to a register other than CMD, when the host's move is next. -/
theorem step_regWrite {s : State} {off : Nat} {v : Word} {rest : List HostMove}
    (hh : s.host = .regWrite .word off v :: rest) (hd : s.busy = true → s.delay ≠ 0)
    (ha : off % 4 = 0) (h0 : off ≠ 0) : step s = .next (writeReg off v (hostTook rest s)) := by
  refine step_eq_of_done ((turn_eq_hostMove hh fun hb => ⟨hd hb, nofun⟩).trans ?_)
  simp [hostMove, HostMove.wf, ha, h0]

/-- An aligned read of a register, when the host's move is next. -/
theorem step_regRead {s : State} {off : Nat} {rest : List HostMove}
    (hh : s.host = .regRead .word off :: rest) (hd : s.busy = true → s.delay ≠ 0)
    (ha : off % 4 = 0) : step s = .next (hostReadReg off (hostTook rest s)) := by
  refine step_eq_of_done ((turn_eq_hostMove hh fun hb => ⟨hd hb, nofun⟩).trans ?_)
  simp [hostMove, HostMove.wf, ha]

theorem idle_iff {s : State} : idle s = true ↔ s.busy = false ∧ s.fault = false := by
  simp [idle]

@[simp] theorem hostTook_idle (r : List HostMove) (s : State) : idle (hostTook r s) = idle s := rfl

/-! ### Register writes -/

theorem writeReg_of_not_idle {s : State} (h : ¬ idle s = true) (off : Nat) (v : Word) : writeReg off v s = s := by
  simp [writeReg, h]

/-- A write to an offset that is no writable register is ignored (R33, R49, R253). -/
theorem writeReg_other {off : Nat} (h : off ∉ [0x08, 0x0C, 0x10, 0x20]) (v : Word) (s : State) :
    writeReg off v s = s := by
  simp only [List.mem_cons, List.not_mem_nil, or_false, not_or] at h
  obtain ⟨hd, hn, hc, hs⟩ := h
  simp [writeReg, hd, hn, hc, hs]

theorem writeReg_sel_of_idle {s : State} (h : idle s = true) (v : Word) :
    writeReg 0x20 v s = { s with sel := v.extractLsb' 0 9 } := by
  simp [writeReg, h]

/-- The three length registers share one rule (R36, R37, R38). -/
theorem writeReg_len_of_idle {s : State} (h : idle s = true) {b : BufId} {off : Nat}
    (hb : (b, off) ∈ [(BufId.dbuf, 0x08), (.nbuf, 0x0C), (.cbuf, 0x10)]) (v : Word) :
    writeReg off v s = writeLen b v s := by
  simp only [List.mem_cons, List.not_mem_nil, or_false, Prod.mk.injEq] at hb
  rcases hb with ⟨rfl, rfl⟩ | ⟨rfl, rfl⟩ | ⟨rfl, rfl⟩ <;> simp [writeReg, h]

theorem writeLen_of_fits {s : State} {b : BufId} {v : Word} (h : v.toNat ≤ capacity s.cfg b) :
    writeLen b v s = { s.setLen b v.toNat with stage := .empty } := if_pos h

theorem writeLen_of_above {s : State} {b : BufId} {v : Word} (h : ¬ v.toNat ≤ capacity s.cfg b) :
    writeLen b v s = s := if_neg h

/-- Settles O15: an idle core takes the length by `writeLen`, every other core ignores the write. -/
theorem lengthWrites : Obligations.LengthWrites := by
  intro s b off v rest hh hd hb
  have hoff : off % 4 = 0 ∧ off ≠ 0 := by
    simp only [List.mem_cons, List.not_mem_nil, or_false, Prod.mk.injEq] at hb
    omega
  rw [step_regWrite hh hd hoff.1 hoff.2]
  by_cases hi : idle s = true
  · obtain ⟨hbusy, hfault⟩ := idle_iff.mp hi
    rw [writeReg_len_of_idle (by simpa using hi) hb]
    by_cases hv : v.toNat ≤ capacity s.cfg b
    · rw [writeLen_of_fits (by simpa using hv), if_pos ⟨hbusy, hfault, hv⟩]
      cases b <;> rfl
    · rw [writeLen_of_above (by simpa using hv), if_neg fun h => hv h.2.2]
      rfl
  · rw [writeReg_of_not_idle (by simpa using hi), if_neg fun h => hi (idle_iff.mpr ⟨h.1, h.2.1⟩)]
    rfl

/-- Settles O16: an idle core keeps the low nine bits of the value, every other core keeps SEL. -/
theorem selWrites : Obligations.SelWrites := by
  intro s v rest hh hd
  rw [step_regWrite hh hd (by decide) (by decide)]
  by_cases hi : idle s = true
  · rw [writeReg_sel_of_idle (by simpa using hi)]
    exact ⟨v.extractLsb' 0 9, rfl, by simp [idle_iff.mp hi]⟩
  · rw [writeReg_of_not_idle (by simpa using hi)]
    exact ⟨s.sel, rfl, by rw [if_neg fun h => hi (idle_iff.mpr h)]⟩

/-- Settles O17: no such offset is a writable register. -/
theorem otherRegisterWritesAreIgnored : Obligations.OtherRegisterWritesAreIgnored := by
  intro s off v rest hh hd ha hoff
  obtain ⟨h0, hw⟩ := not_or.mp (mt List.mem_cons.mpr hoff)
  rw [step_regWrite hh hd ha h0, writeReg_other hw]
  rfl

/-! ### Register reads -/

section
variable {n m : Nat}

/-! The fields of a word put together with `++`, as rewrite rules at any widths: `no_index` because the library's
rules, indexed by a sum of widths, do not fire on literal widths. -/

theorem getLsbD_fields (x : BitVec n) (y : BitVec m) (i : Nat) :
    (no_index (x ++ y)).getLsbD i = if i < m then y.getLsbD i else x.getLsbD (i - m) :=
  BitVec.getLsbD_append

theorem extractLsb'_fields_low (x : BitVec n) (y : BitVec m) {lo w : Nat} (h : lo + w ≤ m) :
    (no_index (x ++ y)).extractLsb' lo w = y.extractLsb' lo w :=
  BitVec.extractLsb'_append_eq_of_add_le h

theorem extractLsb'_fields_high (x : BitVec n) (y : BitVec m) {lo w : Nat} (h : m ≤ lo) :
    (no_index (x ++ y)).extractLsb' lo w = x.extractLsb' (lo - m) w :=
  BitVec.extractLsb'_append_eq_of_le h

end

@[simp] theorem getLsbD_bit (b : Bool) (i : Nat) : (bit b).getLsbD i = (decide (i = 0) && b) :=
  BitVec.getLsbD_ofBool b i

/-- The fields of the STATUS word are where R35 puts them. -/
theorem statusWord_fields (s : State) :
    (statusWord s).getLsbD 0 = s.busy ∧ (statusWord s).getLsbD 1 = s.fault ∧
      (statusWord s).extractLsb' 2 2 = 0#2 ∧ (statusWord s).extractLsb' 4 4 = s.err.code ∧
      (statusWord s).extractLsb' 8 4 = s.stage.code ∧ (statusWord s).extractLsb' 12 20 = 0#20 := by
  simp [statusWord, getLsbD_fields, extractLsb'_fields_low, extractLsb'_fields_high,
    -BitVec.getLsbD_eq_getElem]

/-- Settles O14: STATUS is read by `statusWord` in every state. -/
theorem statusReadIsExact : Obligations.StatusReadIsExact := by
  intro s rest hh hd
  obtain ⟨hbusy, hfault, hgap, herr, hstage, hhigh⟩ := statusWord_fields s
  refine ⟨statusWord s, ?_, hbusy, hfault, hgap, herr, fun hflags hf => ?_, hstage, hhigh⟩
  · rw [step_regRead hh hd (by decide), hostReadReg, if_pos (.inl rfl)]
    rfl
  · have hno : s.err = .noError := by simpa [hf] using hflags.2.1
    rw [herr, hno]
    rfl

theorem selectedByte_eq (s : State) : selectedByte s = s.sel.toNat % 256 := by
  simp [selectedByte]

theorem selectedNode_of_valid {s : State} {n : Node} (hs : s.sel.toNat ≤ 510)
    (hn : s.nodeAt s.sel.toNat = some n) : selectedNode s = some n := by
  rw [selectedNode, if_pos hs, hn]

theorem selectedNode_of_invalid {s : State} (h : 510 < s.sel.toNat ∨ s.nodeAt s.sel.toNat = none) :
    selectedNode s = none := by
  unfold selectedNode
  split
  · exact h.resolve_left (by omega)
  · rfl

theorem readReg_statusWord (s : State) : readReg s 0x04 = statusWord s := rfl
theorem readReg_freqData (s : State) : readReg s 0x24 = freqData s := rfl
theorem readReg_nodeFreq (s : State) : readReg s 0x28 = nodeFreq s := rfl
theorem readReg_nodeInfo (s : State) : readReg s 0x2C = nodeInfo s := rfl
theorem readReg_treeInfo (s : State) : readReg s 0x30 = treeInfo s := rfl
theorem readReg_ctInfo (s : State) : readReg s 0x34 = ctInfo s := rfl

/-- CMD and the reserved offsets read 0 (R34, R49). -/
theorem readReg_reserved (s : State) {off : Nat} (h : off ∈ [0x00, 0x38, 0x3C] ∨ 0x60 ≤ off) :
    readReg s off = 0#32 := by
  simp only [List.mem_cons, List.not_mem_nil, or_false] at h
  rcases h with (rfl | rfl | rfl) | h
  · rfl
  · rfl
  · rfl
  · have hne : ∀ k, k < 0x60 → off ≠ k := by omega
    simp [readReg, hne, h]

/-- The fields of TREE_INFO (R46). -/
theorem treeInfo_fields (s : State) :
    (treeInfo s).extractLsb' 0 9 = s.root ∧ (treeInfo s).getLsbD 9 = s.rootV ∧
      (treeInfo s).extractLsb' 10 9 = BitVec.ofNat 9 s.next ∧
      (treeInfo s).extractLsb' 19 9 = BitVec.ofNat 9 s.nlive ∧ (treeInfo s).extractLsb' 28 4 = 0#4 := by
  simp [treeInfo, getLsbD_fields, extractLsb'_fields_low, extractLsb'_fields_high,
    -BitVec.getLsbD_eq_getElem]

/-- The fields of NODE_INFO of a valid node (R45). -/
theorem nodeInfo_fields {s : State} {n : Node} (h : selectedNode s = some n) :
    (nodeInfo s).getLsbD 0 = true ∧ (nodeInfo s).getLsbD 1 = n.live ∧ (nodeInfo s).getLsbD 2 = n.leaf ∧
      (nodeInfo s).extractLsb' 3 8 = n.sym ∧ (nodeInfo s).extractLsb' 11 9 = n.left ∧
      (nodeInfo s).extractLsb' 20 9 = n.right ∧ (nodeInfo s).extractLsb' 29 3 = 0#3 := by
  simp [nodeInfo, h, getLsbD_fields, extractLsb'_fields_low, extractLsb'_fields_high,
    -BitVec.getLsbD_eq_getElem]

/-- The fields of CT_INFO of a valid code (R47). -/
theorem ctInfo_fields {s : State} {c : Bits} (h : selectedCode s = some c) :
    (ctInfo s).getLsbD 0 = true ∧ (ctInfo s).extractLsb' 1 8 = BitVec.ofNat 8 c.length ∧
      (ctInfo s).extractLsb' 9 23 = 0#23 := by
  simp [ctInfo, h, getLsbD_fields, extractLsb'_fields_low, extractLsb'_fields_high,
    -BitVec.getLsbD_eq_getElem]

/-- Settles O21: a read of an idle core answers `readReg`, whose windows are read field by field. -/
theorem readWindows : Obligations.ReadWindows := by
  refine ⟨fun s off rest hbusy hfault hh ha => ?_, fun s => ⟨⟨rfl, rfl, rfl, rfl, rfl, rfl, rfl⟩,
    fun off => readReg_reserved s, ?_, fun n hs hn => ?_, fun h => ?_, treeInfo_fields s, fun c hc => ?_,
    fun hc => ?_⟩⟩
  · have hi : idle (hostTook rest s) = true := idle_iff.mpr ⟨hbusy, hfault⟩
    rw [step_regRead hh (by simp [hbusy]) ha, hostReadReg, if_pos (.inr hi)]
    rfl
  · rw [readReg_freqData, freqData, selectedByte_eq]
  · have hsel := selectedNode_of_valid hs hn
    exact ⟨by rw [readReg_nodeFreq, nodeFreq, hsel], nodeInfo_fields hsel⟩
  · have hsel := selectedNode_of_invalid h
    exact ⟨by rw [readReg_nodeFreq, nodeFreq, hsel], by rw [readReg_nodeInfo, nodeInfo, hsel]⟩
  · exact ctInfo_fields (by rw [selectedCode, selectedByte_eq, hc])
  · rw [readReg_ctInfo, ctInfo, selectedCode, selectedByte_eq, hc]

/-! ### The code window -/

theorem bitsToNat_eq (acc : Nat) (x : Bits) : bitsToNat acc x = acc * 2 ^ x.length + bitsToNat 0 x := by
  induction x generalizing acc with
  | nil => simp [bitsToNat]
  | cons a x ih =>
    rw [bitsToNat, ih, bitsToNat, ih (2 * 0 + a.toNat), List.length_cons, pow_succ]
    ring

/-- The first bit is the most significant one (R61). -/
theorem bitsToNat_cons (a : Bool) (x : Bits) :
    bitsToNat 0 (a :: x) = 2 ^ x.length * a.toNat + bitsToNat 0 x := by
  rw [bitsToNat, bitsToNat_eq]
  ring

theorem bitsToNat_lt (x : Bits) : bitsToNat 0 x < 2 ^ x.length := by
  induction x with
  | nil => simp [bitsToNat]
  | cons a x ih =>
    rw [bitsToNat_cons, List.length_cons, pow_succ]
    cases a <;> simp <;> omega

/-- The number a bit string spells has the string's bits, the first one most significant (R61). -/
theorem testBit_bitsToNat (x : Bits) {i : Nat} (h : i < x.length) :
    (bitsToNat 0 x).testBit (x.length - 1 - i) = x[i] := by
  induction x generalizing i with
  | nil => cases h
  | cons a x ih =>
    rw [bitsToNat_cons, Nat.testBit_two_pow_mul_add _ (bitsToNat_lt x)]
    cases i with
    | zero => cases a <;> simp
    | succ i =>
      have hi : i < x.length := by simpa using h
      have e : (a :: x).length - 1 - (i + 1) = x.length - 1 - i := by rw [List.length_cons]; omega
      rw [e, if_pos (by omega), ih hi]
      rfl

/-- Bit `31 - j` of a code word is bit `start + j` of the code (R48). -/
theorem codeWord_getLsbD (c : Bits) (start : Nat) {j : Nat} (h : j < 32) :
    (codeWord c start).getLsbD (31 - j) = c.getD (start + j) false := by
  have hb := testBit_bitsToNat ((List.range 32).map fun j => c.getD (start + j) false) (i := j) (by simpa using h)
  rw [codeWord, BitVec.getLsbD_ofNat]
  simpa [show 31 - j < 32 by omega] using hb

theorem readReg_ctBits (s : State) {w : Nat} (h : w < 8) : readReg s (0x40 + 4 * w) = ctBits s w := by
  interval_cases w <;> rfl

/-- Settles O22: the word at offset `0x40 + 4 w` is the code word from bit `32 w` on. -/
theorem codeWindowShowsTheCode : Obligations.CodeWindowShowsTheCode := by
  intro s w j hw hj
  rw [readReg_ctBits s hw, ctBits, selectedCode, selectedByte_eq]
  cases s.codeAt (s.sel.toNat % 256) with
  | none => simp
  | some c => exact codeWord_getLsbD c (32 * w) hj

/-! ### Reset -/

/-- What the registers read in a state with the reset values (R51, R272). -/
theorem readReg_of_resetValues {s : State} (h : ResetValues s) :
    readReg s 0x04 = 0x00000000#32 ∧ readReg s 0x30 = 0x00040000#32 ∧
      ∀ off, off ∈ [0x08, 0x0C, 0x10, 0x14, 0x18, 0x1C, 0x20] → readReg s off = 0x00000000#32 := by
  obtain ⟨hbusy, hfault, herr, hstage, hd, hn, hc, hp, hpad, hbits, hsel, hroot, hrootV, hnext, hlive⟩ := h
  refine ⟨?_, ?_, fun off hoff => ?_⟩
  · rw [readReg_statusWord, statusWord, hbusy, hfault, herr, hstage]
    rfl
  · rw [readReg_treeInfo, treeInfo, hroot, hrootV, hnext, hlive]
    rfl
  · simp only [List.mem_cons, List.not_mem_nil, or_false] at hoff
    rcases hoff with rfl | rfl | rfl | rfl | rfl | rfl | rfl <;> simp [readReg, *]

/-- Settles O11: hardware reset and SRESET are the reset operation, and the registers show what it leaves. -/
theorem resetLeavesTheResetValues : Obligations.ResetLeavesTheResetValues :=
  ⟨⟨rfl, rfl, rfl, rfl, rfl, rfl, rfl, rfl, rfl, rfl, rfl, rfl, rfl, rfl, rfl⟩,
    fun s => ⟨hardReset s, exec_sreset s, hardReset_resetValues s⟩, fun _ => readReg_of_resetValues⟩

end Sys2Proof.Machine

/-!
PROOFS. What PARSE, TINIT and the composite commands do, and the frames of all commands (R52, R69).
-/

namespace Sys2Proof.Machine

/-! ### What PARSE and the tree commands do -/

/-- A chain of any two computations ends well when both do. -/
theorem except_bind_eq_ok {α β : Type} {r : Except Stop α} {f : α → Except Stop β} {y : β} :
    r >>= f = .ok y ↔ ∃ x, r = .ok x ∧ f x = .ok y := by
  cases r <;> simp [bind, Except.bind]

/-- The state PARSE leaves: the four fields of the container (R195). -/
def parsed (hd : Header) (p : List Byte) (s : State) : State :=
  { stored .pbuf p (stored .nbuf hd.name { s with padding := min hd.padding 8, ct := tableOf hd.codes })
    with stage := .dParsed }

/-- What PARSE does when it ends well (R195). -/
theorem runParse_eq_ok {s t : State} :
    runParse s = .ok t ↔
      ∃ h p hd, s.clen ≤ s.cfg.cMax ∧ splitContainer s.container = some (h, p) ∧ parseHeader h = some hd ∧
        (∀ e ∈ hd.codes, e.2.length ≤ 255) ∧ hd.name.length ≤ s.cfg.nMax ∧ p.length ≤ s.cfg.cMax ∧
        t = parsed hd p s := by
  unfold runParse
  rw [except_bind_eq_ok]
  constructor
  · rintro ⟨c, hc, h⟩
    obtain ⟨hfit, rfl⟩ := loadBuffer_eq_ok.mp hc
    split at h
    · cases h
    rename_i hdr p hsplit
    split at h
    · cases h
    rename_i hd hparse
    split at h
    · cases h
    rename_i hcodes
    split at h
    · cases h
    rename_i hname
    obtain ⟨u, hu, h⟩ := except_bind_eq_ok.mp h
    obtain ⟨v, hv, h⟩ := except_bind_eq_ok.mp h
    obtain ⟨-, rfl⟩ := storeBuffer_eq_ok.mp hu
    obtain ⟨hp, rfl⟩ := storeBuffer_eq_ok.mp hv
    exact ⟨hdr, p, hd, hfit, hsplit, hparse, by simpa using hcodes, by omega, hp, (Except.ok.inj h).symm⟩
  · rintro ⟨hdr, p, hd, hfit, hsplit, hparse, hcodes, hname, hp, rfl⟩
    refine ⟨s.container, loadBuffer_of_fits hfit, ?_⟩
    rw [hsplit]
    simp only [hparse]
    rw [if_neg (by simpa using hcodes), if_neg (by omega)]
    exact except_bind_eq_ok.mpr ⟨_, storeBuffer_of_fits hname, except_bind_eq_ok.mpr ⟨_, storeBuffer_of_fits hp, rfl⟩⟩

/-- The tree store right after its leaves have been made (R140); ROOT and STAGE are still to be set. -/
def withLeaves (s : State) : State :=
  { s with
    node := Sparse.tabulate 511 fun i => if i < 256 then leafOf i (s.freqAt i) else none
    next := 256
    nlive := (occurring s).length }

@[simp] theorem withLeaves_cfg (s : State) : (withLeaves s).cfg = s.cfg := by simp only [withLeaves]
@[simp] theorem withLeaves_freq (s : State) : (withLeaves s).freq = s.freq := by simp only [withLeaves]
@[simp] theorem withLeaves_padding (s : State) : (withLeaves s).padding = s.padding := by simp only [withLeaves]
@[simp] theorem withLeaves_ct (s : State) : (withLeaves s).ct = s.ct := by simp only [withLeaves]
@[simp] theorem withLeaves_dlen (s : State) : (withLeaves s).dlen = s.dlen := by simp only [withLeaves]
@[simp] theorem withLeaves_next (s : State) : (withLeaves s).next = 256 := by simp only [withLeaves]
@[simp] theorem withLeaves_nlive (s : State) : (withLeaves s).nlive = (occurring s).length := by simp only [withLeaves]
theorem withLeaves_node (s : State) :
    (withLeaves s).node = Sparse.tabulate 511 fun i => if i < 256 then leafOf i (s.freqAt i) else none := by
  simp only [withLeaves]
@[simp] theorem withLeaves_buf (s : State) (b : BufId) : (withLeaves s).buf b = s.buf b := by
  cases b <;> simp only [State.buf, withLeaves]
@[simp] theorem withLeaves_len (s : State) (b : BufId) : (withLeaves s).len b = s.len b := by
  cases b <;> simp only [State.len, withLeaves]

/-- What TINIT does (R140): there is no root, one root, or a queue. -/
theorem runTinit_cases {s t : State} (h : runTinit s = .ok t) :
    (occurring s = [] ∧ t = { withLeaves s with root := 0#9, rootV := false, stage := .cTree }) ∨
      (∃ b, occurring s = [b] ∧ t = { withLeaves s with root := BitVec.ofNat 9 b, rootV := true, stage := .cTree }) ∨
      (2 ≤ (occurring s).length ∧ t = { withLeaves s with root := 0#9, rootV := false, stage := .cQueue }) := by
  unfold runTinit at h
  split at h
  · rename_i ho
    exact .inl ⟨ho, (Except.ok.inj h).symm⟩
  · rename_i b ho
    exact .inr (.inl ⟨b, ho, (Except.ok.inj h).symm⟩)
  · rename_i a b r ho
    exact .inr (.inr ⟨by simp [ho], (Except.ok.inj h).symm⟩)

/-! ### The frame of the tree commands -/

/-- `t` is `s` but for the tree store and STAGE: what TINIT, TMERGE and TBUILD may write (R52). -/
def OnlyTreeChanged (s t : State) : Prop :=
  ∃ node root rootV next nlive stage,
    t = { s with node := node, root := root, rootV := rootV, next := next, nlive := nlive, stage := stage }

theorem OnlyTreeChanged.trans {s t u : State} (h : OnlyTreeChanged s t) (h' : OnlyTreeChanged t u) :
    OnlyTreeChanged s u := by
  obtain ⟨_, _, _, _, _, _, rfl⟩ := h
  obtain ⟨_, _, _, _, _, _, rfl⟩ := h'
  exact ⟨_, _, _, _, _, _, rfl⟩

theorem runTinit_frame {s t : State} (h : runTinit s = .ok t) : OnlyTreeChanged s t := by
  rcases runTinit_cases h with ⟨-, rfl⟩ | ⟨b, -, rfl⟩ | ⟨-, rfl⟩
  all_goals
    unfold withLeaves
    exact ⟨_, _, _, _, _, _, rfl⟩

theorem runTmerge_frame {s t : State} (h : runTmerge s = .ok t) : OnlyTreeChanged s t := by
  obtain ⟨a, na, b, nb, -, -, -, rfl⟩ := runTmerge_eq_ok.mp h
  exact ⟨_, _, _, _, _, _, rfl⟩

/-- What every TMERGE round keeps, the merge loop keeps (R144); it ends at another STAGE than C_QUEUE. -/
theorem mergeLoop_induction {P : State → Prop} (hstep : ∀ {s t}, P s → s.stage = .cQueue → runTmerge s = .ok t → P t)
    {n : Nat} {s t : State} (h : mergeLoop n s = .ok t) (hs : P s) : P t ∧ t.stage ≠ .cQueue := by
  induction n generalizing s with
  | zero =>
    rw [mergeLoop] at h
    split at h
    · cases h
    · cases h; exact ⟨hs, ‹_›⟩
  | succ n ih =>
    rw [mergeLoop] at h
    split at h
    · rename_i hq
      obtain ⟨u, hu, h⟩ := bind_eq_ok.mp h
      exact ih h (hstep hs hq hu)
    · cases h; exact ⟨hs, ‹_›⟩

theorem runTbuild_frame {s t : State} (h : runTbuild s = .ok t) : OnlyTreeChanged s t := by
  obtain ⟨u, hu, h⟩ := bind_eq_ok.mp h
  exact (mergeLoop_induction (P := OnlyTreeChanged s) (fun hs _ hm => hs.trans (runTmerge_frame hm)) h
    (runTinit_frame hu)).1

/-! ### The frames of the commands (R52, R69) -/

/-- A command that ends without a fault has completed its pseudocode (R112). -/
theorem exec_unfaulted {i : Instr} {s t : State} (hi : i ≠ .sreset) (h : exec i s = .next t) (hf : t.fault = false) :
    legalAt i s.stage = true ∧ ∃ u, bodyOf i s = .ok u ∧ t = complete u := by
  rw [exec_eq_runCommand hi] at h
  rcases runCommand_next h with h | ⟨-, e, -, rfl⟩ | ⟨-, rfl⟩
  · exact h
  · cases hf
  · cases hf

theorem bytesKept_of_buf {s t : State} {written : List BufId} (h : ∀ b, b ∉ written → t.buf b = s.buf b) :
    BytesKept s t written := fun b hb => byteAt_congr (h b hb)

/-- TINIT, TMERGE and TBUILD share one frame. -/
theorem treeCommand_frame {i : Instr} {s t : State} (hi : i ∈ [Instr.tinit, .tmerge, .tbuild])
    (h : bodyOf i s = .ok t) : OnlyTreeChanged s t := by
  simp only [List.mem_cons, List.not_mem_nil, or_false] at hi
  rcases hi with rfl | rfl | rfl
  · exact runTinit_frame h
  · exact runTmerge_frame h
  · exact runTbuild_frame h

/-- Settles O55: each command's pseudocode writes only the registers of its list. -/
theorem commandsThatStoreNothing : Obligations.CommandsThatStoreNothing := by
  intro i s t hi h hf
  have hne : i ≠ .sreset := by rintro rfl; revert hi; decide
  obtain ⟨-, u, hu, rfl⟩ := exec_unfaulted hne h hf
  cases i
  case freq =>
    obtain ⟨-, rfl⟩ := runFreq_eq_ok.mp hu
    exact ⟨bytesKept_of_buf fun b _ => by cases b <;> rfl, rfl⟩
  case tinit | tmerge | tbuild =>
    obtain ⟨_, _, _, _, _, _, rfl⟩ := treeCommand_frame (by decide) hu
    exact ⟨bytesKept_of_buf fun b _ => by cases b <;> rfl, rfl⟩
  case assign =>
    obtain ⟨ct, -, rfl⟩ := runAssign_eq_ok.mp hu
    exact ⟨bytesKept_of_buf fun b _ => by cases b <;> rfl, rfl⟩
  case chktab =>
    obtain ⟨-, rfl⟩ := runChktab_eq_ok.mp hu
    exact ⟨bytesKept_of_buf fun b _ => by cases b <;> rfl, rfl⟩
  case unpack =>
    obtain ⟨-, -, rfl⟩ := runUnpack_eq_ok.mp hu
    exact ⟨bytesKept_of_buf fun b _ => by cases b <;> rfl, rfl⟩
  all_goals exact absurd hi (by decide)

/-- What COMPRESS does when it ends well, stage by stage (R216). -/
theorem runCompress_eq_ok {s t : State} :
    runCompress s = .ok t ↔ ∃ a b c d, runFreq s = .ok a ∧ runTbuild a = .ok b ∧ runAssign b = .ok c ∧
      runEncode c = .ok d ∧ runSerialize d = .ok t := by
  unfold runCompress
  simp only [bind_eq_ok]
  constructor
  · rintro ⟨d, ⟨c, ⟨b, ⟨a, ha, hb⟩, hc⟩, hd⟩, ht⟩
    exact ⟨a, b, c, d, ha, hb, hc, hd, ht⟩
  · rintro ⟨a, b, c, d, ha, hb, hc, hd, ht⟩
    exact ⟨d, ⟨c, ⟨b, ⟨a, ha, hb⟩, hc⟩, hd⟩, ht⟩

/-- What DECOMPRESS does when it ends well, stage by stage (R218). -/
theorem runDecompress_eq_ok {s t : State} :
    runDecompress s = .ok t ↔ ∃ a b c, runParse s = .ok a ∧ runChktab a = .ok b ∧ runUnpack b = .ok c ∧
      runDecode c = .ok t := by
  unfold runDecompress
  simp only [bind_eq_ok]
  constructor
  · rintro ⟨c, ⟨b, ⟨a, ha, hb⟩, hc⟩, ht⟩
    exact ⟨a, b, c, ha, hb, hc, ht⟩
  · rintro ⟨a, b, c, ha, hb, hc, ht⟩
    exact ⟨c, ⟨b, ⟨a, ha, hb⟩, hc⟩, ht⟩

/-- ENCODE stores some bytes to PBUF and sets PADDING, NBITS and STAGE. -/
theorem runEncode_frame {s t : State} (h : runEncode s = .ok t) :
    ∃ x padding nbits, t = { stored .pbuf x s with padding := padding, nbits := nbits, stage := .cPacked } := by
  obtain ⟨p, -, -, -, rfl⟩ := runEncode_eq_ok.mp h
  exact ⟨_, _, _, rfl⟩

/-- SERIALIZE stores some bytes to CBUF and sets STAGE. -/
theorem runSerialize_frame {s t : State} (h : runSerialize s = .ok t) :
    ∃ x, t = { stored .cbuf x s with stage := .cDone } := by
  obtain ⟨-, -, -, rfl⟩ := runSerialize_eq_ok.mp h
  exact ⟨_, rfl⟩

/-- PARSE sets PADDING, CT and STAGE and stores some bytes to NBUF and PBUF. -/
theorem runParse_frame {s t : State} (h : runParse s = .ok t) :
    ∃ padding ct x y,
      t = { stored .pbuf y (stored .nbuf x { s with padding := padding, ct := ct }) with stage := .dParsed } := by
  obtain ⟨_, p, hd, -, -, -, -, -, -, rfl⟩ := runParse_eq_ok.mp h
  exact ⟨_, _, _, _, rfl⟩

/-- DECODE stores some bytes to DBUF and sets STAGE. -/
theorem runDecode_frame {s t : State} (h : runDecode s = .ok t) :
    ∃ x, t = { stored .dbuf x s with stage := .dDone } := by
  obtain ⟨x, -, -, -, -, rfl⟩ := runDecode_eq_ok.mp h
  exact ⟨x, rfl⟩

/-- Settles O56: each command's pseudocode stores to its own buffers and writes only the registers of its list. -/
theorem commandsThatStore : Obligations.CommandsThatStore := by
  intro i s t hi h hf
  have hne : i ≠ .sreset := by rintro rfl; revert hi; decide
  obtain ⟨-, u, hu, rfl⟩ := exec_unfaulted hne h hf
  cases i
  case encode =>
    obtain ⟨x, padding, nbits, rfl⟩ := runEncode_frame hu
    dsimp only [complete, stored, State.setBuf, State.setLen]
    exact ⟨bytesKept_of_buf fun
      | .dbuf, _ => rfl
      | .nbuf, _ => rfl
      | .cbuf, _ => rfl
      | .pbuf, hb => absurd hb (by decide), rfl⟩
  case serialize =>
    obtain ⟨x, rfl⟩ := runSerialize_frame hu
    dsimp only [complete, stored, State.setBuf, State.setLen]
    exact ⟨bytesKept_of_buf fun
      | .dbuf, _ => rfl
      | .nbuf, _ => rfl
      | .cbuf, hb => absurd hb (by decide)
      | .pbuf, _ => rfl, rfl⟩
  case parse =>
    obtain ⟨padding, ct, x, y, rfl⟩ := runParse_frame hu
    dsimp only [complete, stored, State.setBuf, State.setLen]
    exact ⟨bytesKept_of_buf fun
      | .dbuf, _ => rfl
      | .nbuf, hb => absurd hb (by decide)
      | .cbuf, _ => rfl
      | .pbuf, hb => absurd hb (by decide), rfl⟩
  case decode =>
    obtain ⟨x, rfl⟩ := runDecode_frame hu
    dsimp only [complete, stored, State.setBuf, State.setLen]
    exact ⟨bytesKept_of_buf fun
      | .dbuf, hb => absurd hb (by decide)
      | .nbuf, _ => rfl
      | .cbuf, _ => rfl
      | .pbuf, _ => rfl, rfl⟩
  case compress =>
    obtain ⟨a, b, c, d, ha, hb, hc, hd, ht⟩ := runCompress_eq_ok.mp hu
    obtain ⟨-, rfl⟩ := runFreq_eq_ok.mp ha
    generalize countBytes [] s.data = f at *
    obtain ⟨_, _, _, _, _, _, rfl⟩ := runTbuild_frame hb
    obtain ⟨ct, -, rfl⟩ := runAssign_eq_ok.mp hc
    obtain ⟨y, padding, nbits, rfl⟩ := runEncode_frame hd
    obtain ⟨x, rfl⟩ := runSerialize_frame ht
    dsimp only [complete, stored, State.setBuf, State.setLen]
    exact ⟨bytesKept_of_buf fun
      | .dbuf, _ => rfl
      | .nbuf, _ => rfl
      | .cbuf, hb => absurd hb (by decide)
      | .pbuf, hb => absurd hb (by decide), rfl⟩
  case decompress =>
    obtain ⟨a, b, c, ha, hb, hc, ht⟩ := runDecompress_eq_ok.mp hu
    obtain ⟨padding, ct, x, y, rfl⟩ := runParse_frame ha
    obtain ⟨-, rfl⟩ := runChktab_eq_ok.mp hb
    obtain ⟨-, -, rfl⟩ := runUnpack_eq_ok.mp hc
    obtain ⟨z, rfl⟩ := runDecode_frame ht
    dsimp only [complete, stored, State.setBuf, State.setLen]
    exact ⟨bytesKept_of_buf fun
      | .dbuf, hb => absurd hb (by decide)
      | .nbuf, hb => absurd hb (by decide)
      | .cbuf, _ => rfl
      | .pbuf, hb => absurd hb (by decide), rfl⟩
  all_goals exact absurd hi (by decide)

end Sys2Proof.Machine

/-!
PROOFS. What a step can be, said once: the core runs PEND, nothing happens, or the host's move has one of eight effects.
-/

namespace Sys2Proof.Machine

/-! ### What a step can be -/

/-- A word that decodes is the command's encoding (R82, R83). -/
theorem eq_encode_of_decode {w : Word} {i : Instr} (h : decode w = .ok i) : w = encode i := by
  unfold decode at h
  split at h
  · rename_i r hr
    obtain rfl := Except.ok.inj h
    have hsel : w &&& r.mask = r.pattern := by simpa [OpcodeRow.selects] using List.find?_some hr
    have hrow : ∀ r ∈ opcodeTable, r.mask = 0xFFFFFFFF#32 ∧ r.pattern = encode r.instr := by decide
    obtain ⟨hmask, hpat⟩ := hrow r (List.mem_of_find?_eq_some hr)
    rw [hmask, hpat] at hsel
    rw [← hsel]
    exact (BitVec.and_allOnes (x := w)).symm
  · split at h <;> cases h

/-- PEND keeps enough of an accepted word to decode it again (R110). -/
theorem pendingInstr_accept {w : Word} {i : Instr} (h : decode w = .ok i) (s : State) :
    pendingInstr (accept w s) = .ok i := by
  rw [pendingInstr, accept_pend, eq_encode_of_decode h]
  cases i <;> rfl

/-- What one move of the host can make of the state: a move that is ignored, reset, fault entry at issue, acceptance
of a command, a write that is taken, or a read. -/
inductive HostEffect (s : State) : State → Prop where
  | ignored : HostEffect s s
  | reset : HostEffect s (hardReset s)
  | faulted (e : Err) (hidle : idle s = true) (he : e ≠ .noError) : HostEffect s (faultEntry e s)
  | accepted (w : Word) (i : Instr) (hidle : idle s = true) (hne : i ≠ .sreset) (hw : decode w = .ok i)
      (hl : legalAt i s.stage = true) : HostEffect s (accept w s)
  | lenWritten (b : BufId) (n : Nat) (hidle : idle s = true) (hn : n ≤ capacity s.cfg b) :
      HostEffect s { s.setLen b n with stage := .empty }
  | selWritten (n : BitVec 9) : HostEffect s { s with sel := n }
  | byteWritten (b : BufId) (i : Nat) (v : Byte) (hidle : idle s = true) (hi : i < capacity s.cfg b) :
      HostEffect s { s.writeByte b i v with stage := .empty }
  | answered (answers : List Word) (draws : Nat) : HostEffect s { s with answers := answers, draws := draws }

theorem writeLen_effect {s : State} (h : idle s = true) (b : BufId) (v : Word) : HostEffect s (writeLen b v s) := by
  by_cases hv : v.toNat ≤ capacity s.cfg b
  · rw [writeLen_of_fits hv]
    exact .lenWritten b _ h hv
  · rw [writeLen_of_above hv]
    exact .ignored

theorem writeReg_effect (off : Nat) (v : Word) (s : State) : HostEffect s (writeReg off v s) := by
  by_cases hi : idle s = true
  · by_cases hw : off ∈ [0x08, 0x0C, 0x10, 0x20]
    · simp only [List.mem_cons, List.not_mem_nil, or_false] at hw
      rcases hw with rfl | rfl | rfl | rfl
      · rw [writeReg_len_of_idle hi (b := .dbuf) (by simp)]
        exact writeLen_effect hi _ _
      · rw [writeReg_len_of_idle hi (b := .nbuf) (by simp)]
        exact writeLen_effect hi _ _
      · rw [writeReg_len_of_idle hi (b := .cbuf) (by simp)]
        exact writeLen_effect hi _ _
      · rw [writeReg_sel_of_idle hi]
        exact .selWritten _
    · rw [writeReg_other hw]
      exact .ignored
  · rw [writeReg_of_not_idle hi]
    exact .ignored

theorem hostWrite_effect (b : BufId) (i : Nat) (v : Byte) (s : State) : HostEffect s (hostWrite b i v s) := by
  unfold hostWrite
  split
  · rename_i h
    simp only [Bool.and_eq_true, decide_eq_true_eq] at h
    obtain ⟨⟨hidle, hi⟩, -⟩ := h
    exact .byteWritten b i v hidle hi
  · exact .ignored

theorem hostReadReg_effect (off : Nat) (s : State) : HostEffect s (hostReadReg off s) := by
  unfold hostReadReg
  split
  · exact .answered _ _
  · exact .answered _ _

theorem hostReadBuf_effect (b : BufId) (i : Nat) (s : State) : HostEffect s (hostReadBuf b i s) := by
  unfold hostReadBuf
  split
  · split
    · exact .answered _ _
    · exact .answered _ _
  · exact .answered _ _

/-- What a write to CMD can make of the state (R110). -/
theorem issue_effect {w : Word} {s t : State} (h : issue w s = .done (.next t)) : HostEffect s t := by
  rcases issue_cases w s with ⟨-, e⟩ | ⟨-, e⟩ | ⟨hb, -, e⟩ | ⟨hb, hw, i, hd, e⟩
  · rw [e] at h; cases h
  · rw [e] at h; cases h; exact .ignored
  · rw [e] at h; cases h
    exact .faulted _ (idle_iff.mpr (by simpa using hb)) (by decide)
  · rw [e] at h; cases h
    have hidle : idle s = true := idle_iff.mpr (by simpa using hb)
    by_cases hl : legalAt i s.stage = true
    · rw [if_pos hl]
      refine .accepted w i hidle ?_ hd hl
      rintro rfl
      exact hw (eq_encode_of_decode hd)
    · rw [if_neg hl]
      exact .faulted _ hidle (by decide)

/-- What a move of the host that is no SRESET can make of the state. -/
theorem hostMove_effect {m : HostMove} {s t : State} (h : hostMove m s = .done (.next t)) : HostEffect s t := by
  cases m with
  | regWrite width off v =>
    simp only [hostMove] at h
    split at h
    · split at h
      · exact issue_effect h
      · cases h; exact writeReg_effect _ _ _
    · cases h
  | regRead width off =>
    simp only [hostMove] at h
    split at h
    · cases h; exact hostReadReg_effect _ _
    · cases h
  | bufWrite width b i v =>
    simp only [hostMove] at h
    split at h
    · cases h; exact hostWrite_effect _ _ _ _
    · cases h
  | bufRead width b i =>
    simp only [hostMove] at h
    split at h
    · cases h; exact hostReadBuf_effect _ _ _
    · cases h
  | wait => cases h; exact .answered _ _
  | reset => cases h; exact .reset

/-- What a step can be: the core runs PEND, nothing happens, or the host makes a move. -/
theorem step_cases {s t : State} (h : step s = .next t) :
    (s.busy = true ∧ ∃ i, pendingInstr s = .ok i ∧ exec i s = .next t) ∨ t = s ∨
      ∃ rest, HostEffect (hostTook rest s) t := by
  cases hturn : turn s with
  | run i u =>
    rw [step_eq_of_run hturn] at h
    rcases turn_run hturn with ⟨hc, hp, rfl⟩ | ⟨-, rfl, _, rest, -, rfl⟩
    · exact .inl ⟨by simp_all [coreTurn], i, hp, h⟩
    · rw [exec_sreset] at h
      cases h
      exact .inr (.inr ⟨rest, .reset⟩)
  | done o =>
    rw [step_eq_of_done hturn] at h
    subst h
    unfold turn at hturn
    split at hturn
    · split at hturn <;> cases hturn
    · split at hturn
      · cases hturn; exact .inr (.inl rfl)
      · rename_i m rest _
        exact .inr (.inr ⟨rest, hostMove_effect hturn⟩)

end Sys2Proof.Machine

/-!
PROOFS. What every command has in common: an induction over the stages a command runs, the registers none writes, and that
no command raises the error code 0.
-/

namespace Sys2Proof.Machine

/-! ### The registers a store leaves alone (R69) -/

@[simp] theorem stored_cfg (b : BufId) (x : List Byte) (s : State) : (stored b x s).cfg = s.cfg := by simp [stored]
@[simp] theorem stored_fault (b : BufId) (x : List Byte) (s : State) : (stored b x s).fault = s.fault := by simp [stored]
@[simp] theorem stored_err (b : BufId) (x : List Byte) (s : State) : (stored b x s).err = s.err := by simp [stored]
@[simp] theorem stored_padding (b : BufId) (x : List Byte) (s : State) : (stored b x s).padding = s.padding := by simp [stored]
@[simp] theorem stored_nbits (b : BufId) (x : List Byte) (s : State) : (stored b x s).nbits = s.nbits := by simp [stored]
@[simp] theorem stored_freq (b : BufId) (x : List Byte) (s : State) : (stored b x s).freq = s.freq := by simp [stored]
@[simp] theorem stored_node (b : BufId) (x : List Byte) (s : State) : (stored b x s).node = s.node := by simp [stored]
@[simp] theorem stored_root (b : BufId) (x : List Byte) (s : State) : (stored b x s).root = s.root := by simp [stored]
@[simp] theorem stored_rootV (b : BufId) (x : List Byte) (s : State) : (stored b x s).rootV = s.rootV := by simp [stored]
@[simp] theorem stored_next (b : BufId) (x : List Byte) (s : State) : (stored b x s).next = s.next := by simp [stored]
@[simp] theorem stored_nlive (b : BufId) (x : List Byte) (s : State) : (stored b x s).nlive = s.nlive := by simp [stored]
@[simp] theorem stored_ct (b : BufId) (x : List Byte) (s : State) : (stored b x s).ct = s.ct := by simp [stored]

/-! ### What every command does, from what its stages do -/

/-- The commands whose pseudocode runs no other command's. -/
def stageCommands : List Instr :=
  [.freq, .tinit, .tmerge, .assign, .encode, .serialize, .parse, .chktab, .unpack, .decode]

/-- A reflexive and transitive relation that every stage command meets is met by every command (R144, R216, R218). -/
theorem bodyOf_induction {R : State → State → Prop} (hrefl : ∀ s, R s s)
    (htrans : ∀ {s t u}, R s t → R t u → R s u)
    (hstage : ∀ {i s t}, i ∈ stageCommands → bodyOf i s = .ok t → R s t) {i : Instr} {s t : State}
    (h : bodyOf i s = .ok t) : R s t := by
  have htbuild : ∀ {s t}, runTbuild s = .ok t → R s t := fun {s t} h => by
    obtain ⟨u, hu, h⟩ := bind_eq_ok.mp h
    have hinit : R s u := hstage (i := .tinit) (by decide) hu
    exact (mergeLoop_induction (P := R s)
      (fun hs _ hm => htrans hs (hstage (i := .tmerge) (by decide) hm)) h hinit).1
  by_cases hi : i ∈ stageCommands
  · exact hstage hi h
  · have hcomposite : i = .sreset ∨ i = .tbuild ∨ i = .compress ∨ i = .decompress := by
      revert hi; cases i <;> decide
    rcases hcomposite with rfl | rfl | rfl | rfl
    · cases h; exact hrefl s
    · exact htbuild h
    · obtain ⟨a, b, c, d, ha, hb, hc, hd, ht⟩ := runCompress_eq_ok.mp h
      exact htrans (hstage (i := .freq) (by decide) ha) (htrans (htbuild hb)
        (htrans (hstage (i := .assign) (by decide) hc) (htrans (hstage (i := .encode) (by decide) hd)
          (hstage (i := .serialize) (by decide) ht))))
    · obtain ⟨a, b, c, ha, hb, hc, ht⟩ := runDecompress_eq_ok.mp h
      exact htrans (hstage (i := .parse) (by decide) ha) (htrans (hstage (i := .chktab) (by decide) hb)
        (htrans (hstage (i := .unpack) (by decide) hc) (hstage (i := .decode) (by decide) ht)))

/-- What no command's pseudocode writes: the capacities, FAULT and ERR. -/
theorem bodyOf_fixed {i : Instr} {s t : State} (h : bodyOf i s = .ok t) :
    t.cfg = s.cfg ∧ t.fault = s.fault ∧ t.err = s.err := by
  refine bodyOf_induction (R := fun s t => t.cfg = s.cfg ∧ t.fault = s.fault ∧ t.err = s.err)
    (fun _ => ⟨rfl, rfl, rfl⟩)
    (fun ⟨hc, hf, he⟩ ⟨hc', hf', he'⟩ => ⟨hc'.trans hc, hf'.trans hf, he'.trans he⟩) (fun {i s t} hi h => ?_) h
  cases i
  case freq =>
    obtain ⟨-, rfl⟩ := runFreq_eq_ok.mp h
    exact ⟨rfl, rfl, rfl⟩
  case tinit =>
    obtain ⟨_, _, _, _, _, _, rfl⟩ := runTinit_frame h
    exact ⟨rfl, rfl, rfl⟩
  case tmerge =>
    obtain ⟨_, _, _, _, _, _, rfl⟩ := runTmerge_frame h
    exact ⟨rfl, rfl, rfl⟩
  case assign =>
    obtain ⟨_, -, rfl⟩ := runAssign_eq_ok.mp h
    exact ⟨rfl, rfl, rfl⟩
  case encode =>
    obtain ⟨_, _, _, rfl⟩ := runEncode_frame h
    simp
  case serialize =>
    obtain ⟨_, rfl⟩ := runSerialize_frame h
    simp
  case parse =>
    obtain ⟨_, _, _, _, rfl⟩ := runParse_frame h
    simp
  case chktab =>
    obtain ⟨-, rfl⟩ := runChktab_eq_ok.mp h
    exact ⟨rfl, rfl, rfl⟩
  case unpack =>
    obtain ⟨-, -, rfl⟩ := runUnpack_eq_ok.mp h
    exact ⟨rfl, rfl, rfl⟩
  case decode =>
    obtain ⟨_, rfl⟩ := runDecode_frame h
    simp
  all_goals exact absurd hi (by decide)

/-! ### Every error a command raises is an error code of R240 -/

/-- A computation that does not raise the code 0. -/
def RaisesErrors {α : Type} (r : Except Stop α) : Prop := r ≠ .error (.raise .noError)

theorem RaisesErrors.bind {α β : Type} {r : Except Stop α} {f : α → Except Stop β} (h : RaisesErrors r)
    (hf : ∀ x, RaisesErrors (f x)) : RaisesErrors (r >>= f) := by
  cases r with
  | ok x => exact hf x
  | error e => exact fun he => h (by rw [Except.error.inj he])

theorem RaisesErrors.ok {α : Type} (x : α) : RaisesErrors (.ok x : Except Stop α) := nofun

theorem loadBuffer_raises (s : State) (b : BufId) : RaisesErrors (loadBuffer s b) := by
  unfold loadBuffer; split <;> exact nofun

theorem storeBuffer_raises (b : BufId) (x : List Byte) (s : State) : RaisesErrors (storeBuffer b x s) := by
  unfold storeBuffer; split <;> exact nofun

theorem extractMin_raises (nodes : Sparse Node) : RaisesErrors (extractMin nodes) := by
  unfold extractMin; split <;> exact nofun

theorem runTinit_raises (s : State) : RaisesErrors (runTinit s) := by
  obtain ⟨t, h⟩ := runTinit_ok s
  rw [h]
  exact .ok t

theorem runTmerge_raises (s : State) : RaisesErrors (runTmerge s) := by
  unfold runTmerge
  refine (extractMin_raises _).bind fun _ => (extractMin_raises _).bind fun _ => ?_
  dsimp only
  split
  · split <;> exact .ok _
  · exact nofun

theorem mergeLoop_raises (n : Nat) (s : State) : RaisesErrors (mergeLoop n s) := by
  induction n generalizing s with
  | zero => rw [mergeLoop]; split <;> exact nofun
  | succ n ih =>
    rw [mergeLoop]
    split
    · exact (runTmerge_raises s).bind ih
    · exact .ok s

theorem walk_raises (nodes : Sparse Node) (depth i : Nat) (p : Bits) (ct : Sparse Bits) :
    RaisesErrors (walk nodes depth i p ct) := by
  induction depth generalizing i p ct with
  | zero => exact nofun
  | succ depth ih =>
    rw [walk]
    split
    · exact nofun
    · split
      · exact .ok _
      · exact (ih _ _ _).bind fun _ => ih _ _ _

theorem assignCodes_raises (s : State) : RaisesErrors (assignCodes s) := by
  unfold assignCodes
  split
  · split
    · exact nofun
    · split
      · exact .ok _
      · exact walk_raises _ _ _ _ _
  · exact .ok _

theorem pushCodes_raises (ct : Sparse Bits) (x : List Byte) (p : Packer) : RaisesErrors (pushCodes ct p x) := by
  induction x generalizing p with
  | nil => exact .ok p
  | cons b x ih =>
    rw [pushCodes]
    split
    · exact ih _
    · exact nofun

theorem decodeLoop_raises (t : List (Nat × Bits)) (dMax : Nat) (bits cand : Bits) (dlen : Nat) (out : List Byte) :
    RaisesErrors (decodeLoop t dMax bits cand dlen out) := by
  induction bits generalizing cand dlen out with
  | nil => rw [decodeLoop]; split <;> exact nofun
  | cons x bits ih =>
    rw [decodeLoop]
    split
    · split
      · exact nofun
      · exact ih _ _ _
    · exact ih _ _ _

theorem runFreq_raises (s : State) : RaisesErrors (runFreq s) := (loadBuffer_raises _ _).bind fun _ => .ok _

theorem runTbuild_raises (s : State) : RaisesErrors (runTbuild s) := (runTinit_raises s).bind (mergeLoop_raises _)

theorem runAssign_raises (s : State) : RaisesErrors (runAssign s) := (assignCodes_raises s).bind fun _ => .ok _

theorem runEncode_raises (s : State) : RaisesErrors (runEncode s) :=
  (loadBuffer_raises _ _).bind fun _ => (pushCodes_raises _ _ _).bind fun _ =>
    (storeBuffer_raises _ _ _).bind fun _ => .ok _

theorem runSerialize_raises (s : State) : RaisesErrors (runSerialize s) :=
  (loadBuffer_raises _ _).bind fun _ => (loadBuffer_raises _ _).bind fun _ =>
    (storeBuffer_raises _ _ _).bind fun _ => .ok _

theorem runParse_raises (s : State) : RaisesErrors (runParse s) := by
  refine (loadBuffer_raises _ _).bind fun c => ?_
  split
  · exact nofun
  · split
    · exact nofun
    · split
      · exact nofun
      · split
        · exact nofun
        · exact (storeBuffer_raises _ _ _).bind fun _ => (storeBuffer_raises _ _ _).bind fun _ => .ok _

theorem runChktab_raises (s : State) : RaisesErrors (runChktab s) := by
  unfold runChktab; split <;> exact nofun

theorem runUnpack_raises (s : State) : RaisesErrors (runUnpack s) := by
  unfold runUnpack
  split
  · exact nofun
  · split <;> exact nofun

theorem runDecode_raises (s : State) : RaisesErrors (runDecode s) := by
  refine (loadBuffer_raises _ _).bind fun _ => ?_
  split
  · exact (decodeLoop_raises _ _ _ _ _ _).bind fun _ => (storeBuffer_raises _ _ _).bind fun _ => .ok _
  · exact nofun

/-- No command raises the code 0 (R240). -/
theorem bodyOf_raises (i : Instr) (s : State) : RaisesErrors (bodyOf i s) := by
  cases i with
  | sreset => exact .ok s
  | compress =>
    exact ((((runFreq_raises s).bind runTbuild_raises).bind runAssign_raises).bind runEncode_raises).bind
      runSerialize_raises
  | freq => exact runFreq_raises s
  | tinit => exact runTinit_raises s
  | tmerge => exact runTmerge_raises s
  | tbuild => exact runTbuild_raises s
  | assign => exact runAssign_raises s
  | encode => exact runEncode_raises s
  | serialize => exact runSerialize_raises s
  | decompress =>
    exact (((runParse_raises s).bind runChktab_raises).bind runUnpack_raises).bind runDecode_raises
  | parse => exact runParse_raises s
  | chktab => exact runChktab_raises s
  | unpack => exact runUnpack_raises s
  | decode => exact runDecode_raises s

end Sys2Proof.Machine

/-!
PROOFS. Every command keeps the canonical forms and ranges of memory, arrays and scalars.
-/

namespace Sys2Proof.Machine

/-! ### Sparse arrays whose entries meet a condition -/

namespace Sparse

variable {α : Type}

theorem mem_of_get {m : Sparse α} {i : Nat} {v : α} (h : get m i = some v) : (i, v) ∈ m := by
  induction m with
  | nil => cases h
  | cons e m ih =>
    obtain ⟨k, w⟩ := e
    rw [get_cons] at h
    split at h
    · rename_i hk
      cases h
      exact hk ▸ List.mem_cons_self
    · exact List.mem_cons_of_mem _ (ih h)

/-- A canonical array all of whose entries meet a condition. -/
def Fits (P : Nat × α → Prop) (m : Sparse α) : Prop := wf m ∧ ∀ e ∈ m, P e

theorem Fits.nil (P : Nat × α → Prop) : Fits P [] := ⟨List.Pairwise.nil, nofun⟩

theorem Fits.put {P : Nat × α → Prop} {m : Sparse α} (h : Fits P m) {i : Nat} {v : α} (hv : P (i, v)) :
    Fits P (put m i v) := by
  refine ⟨put_wf h.1 i v, fun e he => ?_⟩
  rcases mem_put he with rfl | he
  · exact hv
  · exact h.2 e he

theorem fits_tabulate {P : Nat × α → Prop} {n : Nat} {f : Nat → Option α}
    (h : ∀ i v, i < n → f i = some v → P (i, v)) : Fits P (tabulate n f) := by
  refine ⟨tabulate_wf n f, fun e he => ?_⟩
  obtain ⟨hi, hv⟩ := mem_tabulate.mp he
  exact h e.1 e.2 hi hv

end Sparse

/-- A histogram (R21): counts above 0 of byte values. -/
abbrev CountsFit : Sparse Nat → Prop := Sparse.Fits fun e => e.1 < 256 ∧ 0 < e.2

/-- A tree store (R25). -/
abbrev NodesFit : Sparse Node → Prop := Sparse.Fits fun e => e.1 ≤ 510

/-- A code table (R28). -/
abbrev CodesFit : Sparse Bits → Prop := Sparse.Fits fun e => e.1 < 256 ∧ e.2.length ≤ 255

theorem arraysWf_iff {s : State} : s.ArraysWf ↔ CountsFit s.freq ∧ NodesFit s.node ∧ CodesFit s.ct := Iff.rfl

theorem lengthsFit_iff {s : State} : s.LengthsFit ↔ ∀ b, s.len b ≤ capacity s.cfg b := by
  constructor
  · rintro ⟨hd, hn, hc, hp⟩ b
    cases b
    · exact hd
    · exact hn
    · exact hc
    · exact hp
  · exact fun h => ⟨h .dbuf, h .nbuf, h .cbuf, h .pbuf⟩

/-! ### The canonical forms and ranges every command keeps -/

/-- What `State.Inv` says of memory, arrays, scalars and lengths. -/
structure DataWf (s : State) : Prop where
  mem : s.MemWf
  arrays : s.ArraysWf
  scalars : s.ScalarsWf
  lengths : s.LengthsFit

theorem DataWf.node_wf {s : State} (h : DataWf s) : Sparse.wf s.node := by
  obtain ⟨-, ⟨hnode, -⟩, -⟩ := h.arrays
  exact hnode

theorem DataWf.padding_le {s : State} (h : DataWf s) : s.padding ≤ 8 := h.scalars.1

/-- A change of registers and arrays alone keeps what `DataWf` says of the buffers. -/
theorem DataWf.of_registers {s t : State} (h : DataWf s) (hcfg : t.cfg = s.cfg) (hbuf : ∀ b, t.buf b = s.buf b)
    (hlen : ∀ b, t.len b = s.len b) (ha : t.ArraysWf) (hs : t.ScalarsWf) : DataWf t := by
  obtain ⟨hm, -, -, hl⟩ := h
  refine ⟨memWf_congr hm hcfg hbuf, ha, hs, lengthsFit_iff.mpr fun b => ?_⟩
  rw [hcfg, hlen]
  exact lengthsFit_iff.mp hl b

theorem DataWf.withRoot {s : State} (h : DataWf s) (root : BitVec 9) (rootV : Bool) (stage : Stage) :
    DataWf { s with root := root, rootV := rootV, stage := stage } :=
  h.of_registers rfl (fun b => by cases b <;> rfl) (fun b => by cases b <;> rfl) h.arrays h.scalars

theorem DataWf.withStage {s : State} (h : DataWf s) (stage : Stage) : DataWf { s with stage := stage } :=
  h.withRoot s.root s.rootV stage

theorem DataWf.withPadding {s : State} (h : DataWf s) {padding : Nat} (hp : padding ≤ 8) (nbits : Nat) (stage : Stage) :
    DataWf { s with padding := padding, nbits := nbits, stage := stage } :=
  h.of_registers rfl (fun b => by cases b <;> rfl) (fun b => by cases b <;> rfl) h.arrays
    ⟨hp, h.scalars.2⟩

theorem countsFit_countBytes (x : List Byte) {f : Sparse Nat} (h : CountsFit f) : CountsFit (countBytes f x) := by
  induction x generalizing f with
  | nil => exact h
  | cons b x ih => exact ih (h.put ⟨b.isLt, Nat.succ_pos _⟩)

/-- The live node with the smallest key is a listed live node (R141). -/
theorem minLive_mem {m : Sparse Node} {i : Nat} {n : Node} (h : minLive m = some (i, n)) :
    (i, n) ∈ m ∧ n.live = true := by
  induction m generalizing i n with
  | nil => cases h
  | cons e r ih =>
    obtain ⟨j, k⟩ := e
    have tail : ∀ {i n}, minLive r = some (i, n) → (i, n) ∈ (j, k) :: r ∧ n.live = true := fun h =>
      ⟨List.mem_cons_of_mem _ (ih h).1, (ih h).2⟩
    rw [minLive] at h
    split at h
    · rename_i hlive
      have head : (j, k) ∈ (j, k) :: r ∧ k.live = true := ⟨List.mem_cons_self, hlive⟩
      split at h
      · rename_i hr
        split at h
        · cases h; exact tail hr
        · cases h; exact head
      · cases h; exact head
    · exact tail h

/-- The walk writes codes of at most 255 bits: a leaf `depth` levels down has a code of `depth` bits (R161). -/
theorem codesFit_walk {nodes : Sparse Node} {depth i : Nat} {p : Bits} {ct ct' : Sparse Bits}
    (h : walk nodes depth i p ct = .ok ct') (hp : p.length + depth ≤ 256) (hct : CodesFit ct) : CodesFit ct' := by
  induction depth generalizing i p ct ct' with
  | zero => cases h
  | succ depth ih =>
    rw [walk] at h
    split at h
    · cases h
    · split at h
      · cases h
        exact hct.put ⟨BitVec.isLt _, by dsimp only; omega⟩
      · obtain ⟨u, hu, h⟩ := except_bind_eq_ok.mp h
        have hlen : ∀ x : Bool, (p ++ [x]).length + depth ≤ 256 := fun x => by
          rw [List.length_append, List.length_singleton]; omega
        exact ih h (hlen true) (ih hu (hlen false) hct)

theorem codesFit_assignCodes {s : State} {ct : Sparse Bits} (h : assignCodes s = .ok ct) : CodesFit ct := by
  unfold assignCodes at h
  split at h
  · split at h
    · cases h
    · split at h
      · cases h
        exact (Sparse.Fits.nil _).put ⟨BitVec.isLt _, by simp⟩
      · exact codesFit_walk h (by decide) (.nil _)
  · cases h
    exact .nil _

/-- The table of a header whose codes fit (R195). -/
theorem codesFit_tableOf {t : List (Nat × Bits)} (h : ∀ e ∈ t, e.2.length ≤ 255) : CodesFit (tableOf t) := by
  exact Sparse.fits_tabulate fun b c hb hc => ⟨hb, h (b, c) (Sparse.mem_of_get hc)⟩

theorem stored_memWf {b : BufId} {x : List Byte} {s : State} (h : s.MemWf) (hx : x.length ≤ capacity s.cfg b) :
    (stored b x s).MemWf := storeBuffer_memWf h (storeBuffer_of_fits hx)

theorem stored_lengthsFit {b : BufId} {x : List Byte} {s : State} (h : s.LengthsFit)
    (hx : x.length ≤ capacity s.cfg b) : (stored b x s).LengthsFit := by
  refine lengthsFit_iff.mpr fun c => ?_
  rw [stored_cfg]
  by_cases hc : c = b
  · subst hc
    rw [stored_len_same]
    exact hx
  · rw [stored_len_other x s hc]
    exact lengthsFit_iff.mp h c

/-- A store of bytes that fit keeps the canonical forms and ranges. -/
theorem stored_dataWf {b : BufId} {x : List Byte} {s : State} (h : DataWf s) (hx : x.length ≤ capacity s.cfg b) :
    DataWf (stored b x s) := by
  obtain ⟨hm, ha, hs, hl⟩ := h
  refine ⟨stored_memWf hm hx, ?_, ?_, stored_lengthsFit hl hx⟩
  · simpa only [State.ArraysWf, stored_freq, stored_node, stored_ct] using ha
  · simpa only [State.ScalarsWf, stored_padding, stored_next, stored_nlive] using hs

theorem occurring_length_le (s : State) : (occurring s).length ≤ 256 := by
  simpa [occurring] using List.length_filter_le (fun b => decide (s.freqAt b > 0)) (List.range 256)

theorem withLeaves_nodesFit (s : State) : NodesFit (withLeaves s).node := by
  rw [withLeaves_node]
  exact Sparse.fits_tabulate fun i _ hi _ => Nat.lt_succ_iff.mp hi

theorem withLeaves_dataWf {s : State} (h : DataWf s) : DataWf (withLeaves s) := by
  obtain ⟨hfreq, -, hct⟩ := h.arrays
  refine h.of_registers (by simp) (by simp) (by simp) (arraysWf_iff.mpr ⟨?_, withLeaves_nodesFit s, ?_⟩) ?_
  · rw [withLeaves_freq]; exact hfreq
  · rw [withLeaves_ct]; exact hct
  · rw [State.ScalarsWf, withLeaves_padding, withLeaves_next, withLeaves_nlive]
    exact ⟨h.padding_le, by decide, by decide, occurring_length_le s⟩

theorem runTinit_dataWf {s t : State} (h : runTinit s = .ok t) (hs : DataWf s) : DataWf t := by
  have hleaves := withLeaves_dataWf hs
  rcases runTinit_cases h with ⟨-, rfl⟩ | ⟨b, -, rfl⟩ | ⟨-, rfl⟩
  · exact hleaves.withRoot _ _ _
  · exact hleaves.withRoot _ _ _
  · exact hleaves.withRoot _ _ _

theorem runFreq_dataWf {s t : State} (h : runFreq s = .ok t) (hs : DataWf s) : DataWf t := by
  obtain ⟨-, rfl⟩ := runFreq_eq_ok.mp h
  obtain ⟨hm, ⟨-, hnode, hct⟩, hsc, hl⟩ := hs
  exact ⟨memWf_congr hm rfl fun b => by cases b <;> rfl,
    arraysWf_iff.mpr ⟨countsFit_countBytes _ (.nil _), hnode, hct⟩, hsc, hl⟩

theorem runTmerge_dataWf {s t : State} (h : runTmerge s = .ok t) (hs : DataWf s) : DataWf t := by
  obtain ⟨a, na, b, nb, ha, hb, hnext, rfl⟩ := runTmerge_eq_ok.mp h
  obtain ⟨hm, harrays, ⟨hpad, hlo, -, hlive⟩, hl⟩ := hs
  obtain ⟨hfreq, hnode, hct⟩ := arraysWf_iff.mp harrays
  have hna : NodesFit (Sparse.put s.node a { na with live := false }) :=
    hnode.put (hnode.2 (a, na) (minLive_mem ha).1)
  have hnb : NodesFit (Sparse.put (Sparse.put s.node a { na with live := false }) b { nb with live := false }) :=
    hna.put (hna.2 (b, nb) (minLive_mem hb).1)
  exact ⟨memWf_congr hm rfl fun b => by cases b <;> rfl, arraysWf_iff.mpr ⟨hfreq, hnb.put hnext, hct⟩,
    ⟨hpad, by dsimp only; omega, by dsimp only; omega, by dsimp only; omega⟩, hl⟩

theorem runAssign_dataWf {s t : State} (h : runAssign s = .ok t) (hs : DataWf s) : DataWf t := by
  obtain ⟨ct, hct, rfl⟩ := runAssign_eq_ok.mp h
  obtain ⟨hm, ⟨hfreq, -, -⟩, ⟨hpad, -, -, -⟩, hl⟩ := hs
  exact ⟨memWf_congr hm rfl fun b => by cases b <;> rfl,
    arraysWf_iff.mpr ⟨hfreq, .nil _, codesFit_assignCodes hct⟩,
    ⟨hpad, le_refl 256, (by decide : 256 ≤ 511), Nat.zero_le 256⟩, hl⟩

theorem runEncode_dataWf {s t : State} (h : runEncode s = .ok t) (hs : DataWf s) : DataWf t := by
  obtain ⟨p, -, -, hfit, rfl⟩ := runEncode_eq_ok.mp h
  have hpad : p.padding ≤ 8 := (Nat.mod_lt _ (by decide)).le
  exact (stored_dataWf (b := .pbuf) hs hfit).withPadding hpad _ _

theorem runSerialize_dataWf {s t : State} (h : runSerialize s = .ok t) (hs : DataWf s) : DataWf t := by
  obtain ⟨-, -, hfit, rfl⟩ := runSerialize_eq_ok.mp h
  exact (stored_dataWf (b := .cbuf) hs hfit).withStage _

theorem runParse_dataWf {s t : State} (h : runParse s = .ok t) (hs : DataWf s) : DataWf t := by
  obtain ⟨_, p, hd, -, -, -, hcodes, hname, hp, rfl⟩ := runParse_eq_ok.mp h
  have hfields : DataWf { s with padding := min hd.padding 8, ct := tableOf hd.codes } := by
    obtain ⟨hm, ⟨hfreq, hnode, -⟩, ⟨-, hlo, hhi, hlive⟩, hl⟩ := hs
    exact ⟨memWf_congr hm rfl fun b => by cases b <;> rfl, ⟨hfreq, hnode, codesFit_tableOf hcodes⟩,
      ⟨Nat.min_le_right _ _, hlo, hhi, hlive⟩, hl⟩
  have hstored := stored_dataWf (b := .nbuf) hfields hname
  exact (stored_dataWf (b := .pbuf) hstored (by rw [stored_cfg]; exact hp)).withStage _

theorem runChktab_dataWf {s t : State} (h : runChktab s = .ok t) (hs : DataWf s) : DataWf t := by
  obtain ⟨-, rfl⟩ := runChktab_eq_ok.mp h
  exact hs.withStage _

theorem runUnpack_dataWf {s t : State} (h : runUnpack s = .ok t) (hs : DataWf s) : DataWf t := by
  obtain ⟨-, -, rfl⟩ := runUnpack_eq_ok.mp h
  exact hs.withPadding hs.padding_le _ _

theorem runDecode_dataWf {s t : State} (h : runDecode s = .ok t) (hs : DataWf s) : DataWf t := by
  obtain ⟨x, -, -, -, hfit, rfl⟩ := runDecode_eq_ok.mp h
  exact (stored_dataWf (b := .dbuf) hs hfit).withStage _

/-- Every command keeps the canonical forms and ranges. -/
theorem bodyOf_dataWf {i : Instr} {s t : State} (h : bodyOf i s = .ok t) (hs : DataWf s) : DataWf t := by
  refine bodyOf_induction (R := fun s t => DataWf s → DataWf t) (fun _ => id) (fun h h' => h' ∘ h)
    (fun {i s t} hi h => ?_) h hs
  cases i
  case freq => exact runFreq_dataWf h
  case tinit => exact runTinit_dataWf h
  case tmerge => exact runTmerge_dataWf h
  case assign => exact runAssign_dataWf h
  case encode => exact runEncode_dataWf h
  case serialize => exact runSerialize_dataWf h
  case parse => exact runParse_dataWf h
  case chktab => exact runChktab_dataWf h
  case unpack => exact runUnpack_dataWf h
  case decode => exact runDecode_dataWf h
  all_goals exact absurd hi (by decide)

end Sys2Proof.Machine

/-!
PROOFS. Reset leaves a legal state, and every step keeps the state legal.
-/

namespace Sys2Proof.Machine

/-! ### The states that reset and fault entry leave are legal -/

theorem freeFreq_fit (n : Nat) : CountsFit (freeFreq n) := by
  refine Sparse.fits_tabulate fun b c hb hc => ⟨hb, ?_⟩
  split at hc
  · cases hc
  · cases hc; exact Nat.pos_of_ne_zero ‹_›

theorem freeNode_fit (n : Nat) : NodesFit (freeNode n) :=
  Sparse.fits_tabulate fun _ _ hi _ => Nat.lt_succ_iff.mp hi

theorem freeCt_fit (n : Nat) : CodesFit (freeCt n) := by
  refine Sparse.fits_tabulate fun b c hb hc => ⟨hb, ?_⟩
  obtain ⟨x, -, rfl⟩ := Option.map_eq_some_iff.mp hc
  exact List.length_take_le 255 x

/-- A state that is not busy has no pending command to be legal. -/
theorem pendingLegal_of_not_busy {s : State} (h : s.busy = false) : s.PendingLegal := fun hb => by
  rw [h] at hb; cases hb

theorem faultEntry_arraysWf (e : Err) (s : State) : (faultEntry e s).ArraysWf := by
  rw [arraysWf_iff]
  dsimp only [faultEntry]
  exact ⟨freeFreq_fit _, freeNode_fit _, freeCt_fit _⟩

theorem resetWith_arraysWf (c : Config) (n : Nat) (hs : List HostMove) (as : List Word) :
    (State.resetWith c n hs as).ArraysWf := by
  rw [arraysWf_iff]
  dsimp only [State.resetWith]
  exact ⟨freeFreq_fit n, freeNode_fit n, freeCt_fit n⟩

theorem faultEntry_inv {e : Err} {s : State} (hc : s.cfg.ok) (he : e ≠ .noError) : (faultEntry e s).Inv := by
  refine ⟨hc, faultEntry_memWf e s, faultEntry_arraysWf e s, ⟨?_, ?_, ?_, ?_⟩,
    ⟨nofun, ⟨fun _ => he, fun _ => rfl⟩, fun _ => rfl⟩, pendingLegal_of_not_busy rfl, nofun⟩
  · exact Nat.le_of_lt_succ (Nat.mod_lt _ (by decide))
  · exact Nat.le_add_right 256 _
  · exact Nat.add_le_add_left (Nat.le_of_lt_succ (Nat.mod_lt _ (by decide))) 256
  · exact Nat.le_of_lt_succ (Nat.mod_lt _ (by decide))

theorem resetWith_inv {c : Config} (hc : c.ok) (n : Nat) (hs : List HostMove) (as : List Word) :
    (State.resetWith c n hs as).Inv :=
  ⟨hc, resetWith_memWf c n hs as, resetWith_arraysWf c n hs as,
    ⟨Nat.zero_le 8, le_refl 256, (by decide : 256 ≤ 511), Nat.zero_le 256⟩,
    ⟨nofun, ⟨nofun, fun h => absurd rfl h⟩, nofun⟩, pendingLegal_of_not_busy rfl,
    fun _ => ⟨Nat.zero_le _, Nat.zero_le _, Nat.zero_le _, Nat.zero_le _⟩⟩

theorem stageMeaning_of_empty {s : State} (h : s.stage = .empty) : s.StageMeaning := by
  rw [State.StageMeaning, h]
  trivial

/-- Settles O57: reset leaves a legal state at STAGE EMPTY, which promises nothing. -/
theorem resetIsLegal : Obligations.ResetIsLegal :=
  ⟨resetWith_inv (by decide) 0 [] [], stageMeaning_of_empty rfl⟩

/-! ### The core's step keeps the state legal -/

theorem inv_dataWf {s : State} (h : s.Inv) (hf : s.fault = false) : DataWf s :=
  let ⟨_, hm, ha, hs, _, _, hl⟩ := h
  ⟨hm, ha, hs, hl hf⟩

/-- A state that is neither busy nor faulted is legal when its data are. -/
theorem inv_of_idle {s : State} (hc : s.cfg.ok) (h : DataWf s) (hb : s.busy = false) (hf : s.fault = false)
    (he : s.err = .noError) : s.Inv := by
  obtain ⟨hm, ha, hs, hl⟩ := h
  refine ⟨hc, hm, ha, hs, ⟨?_, ?_, ?_⟩, pendingLegal_of_not_busy hb, fun _ => hl⟩
  · rw [hb]; exact nofun
  · rw [hf, he]; exact ⟨nofun, fun h => absurd rfl h⟩
  · rw [hf]; exact nofun

theorem err_eq_noError {s : State} (h : s.FlagsWf) (hf : s.fault = false) : s.err = .noError := by
  obtain ⟨-, herr, -⟩ := h
  simpa [hf] using herr

theorem fault_eq_false_of_busy {s : State} (h : s.FlagsWf) (hb : s.busy = true) : s.fault = false := by
  have hnot := h.1
  simpa [hb] using hnot

theorem complete_dataWf {s : State} (h : DataWf s) : DataWf (complete s) :=
  h.of_registers rfl (complete_buf s) (complete_len s) h.arrays h.scalars

theorem exec_inv {i : Instr} {s t : State} (hs : s.Inv) (hb : s.busy = true) (h : exec i s = .next t) : t.Inv := by
  have ⟨hc, _, _, _, hflags, _, _⟩ := hs
  have hf := fault_eq_false_of_busy hflags hb
  by_cases hi : i = .sreset
  · subst hi
    cases h
    exact resetWith_inv hc _ _ _
  rw [exec_eq_runCommand hi] at h
  rcases runCommand_next h with ⟨-, u, hu, rfl⟩ | ⟨-, e, he, rfl⟩ | ⟨-, rfl⟩
  · obtain ⟨hcfg, hfault, herr⟩ := bodyOf_fixed hu
    exact inv_of_idle (hcfg ▸ hc) (complete_dataWf (bodyOf_dataWf hu (inv_dataWf hs hf))) rfl (hfault.trans hf)
      (herr.trans (err_eq_noError hflags hf))
  · exact faultEntry_inv hc fun h0 => bodyOf_raises i s (h0 ▸ he)
  · exact faultEntry_inv hc (by decide)

/-! ### The host's moves keep the state legal -/

theorem hostTook_inv {s : State} (h : s.Inv) (rest : List HostMove) : (hostTook rest s).Inv := by
  obtain ⟨hc, hm, ha, hs, hflags, hp, hl⟩ := h
  exact ⟨hc, memWf_congr hm rfl fun b => by cases b <;> rfl, ha, hs, hflags, hp, hl⟩

theorem setLen_dataWf {s : State} (h : DataWf s) {b : BufId} {n : Nat} (hn : n ≤ capacity s.cfg b) :
    DataWf (s.setLen b n) := by
  obtain ⟨hm, ha, hs, hl⟩ := h
  refine ⟨memWf_congr hm (setLen_cfg s b n) (setLen_buf s b n), ?_, ?_, lengthsFit_iff.mpr fun c => ?_⟩
  · simpa only [State.ArraysWf, setLen_freq, setLen_node, setLen_ct] using ha
  · simpa only [State.ScalarsWf, setLen_padding, setLen_next, setLen_nlive] using hs
  · rw [setLen_cfg]
    by_cases hc : c = b
    · subst hc; rw [setLen_len_same]; exact hn
    · rw [setLen_len_other s n hc]; exact lengthsFit_iff.mp hl c

theorem writeByte_dataWf {s : State} (h : DataWf s) {b : BufId} {i : Nat} (hi : i < capacity s.cfg b) (v : Byte) :
    DataWf (s.writeByte b i v) := by
  obtain ⟨hm, ha, hs, hl⟩ := h
  refine ⟨writeByte_memWf hm hi v, ?_, ?_, lengthsFit_iff.mpr fun c => ?_⟩
  · simpa only [State.writeByte, State.ArraysWf, setBuf_freq, setBuf_node, setBuf_ct] using ha
  · simpa only [State.writeByte, State.ScalarsWf, setBuf_padding, setBuf_next, setBuf_nlive] using hs
  · simpa only [State.writeByte, setBuf_cfg, setBuf_len] using lengthsFit_iff.mp hl c

theorem hostEffect_inv {s t : State} (hs : s.Inv) (h : HostEffect s t) : t.Inv := by
  have ⟨hc, hm, ha, hsc, hflags, hp, hl⟩ := hs
  cases h with
  | ignored => exact hs
  | reset => exact resetWith_inv hc _ _ _
  | faulted e hidle he => exact faultEntry_inv hc he
  | accepted w i hidle hne hw hlegal =>
    obtain ⟨-, hf⟩ := idle_iff.mp hidle
    obtain ⟨-, herr, hstage⟩ := hflags
    refine ⟨hc, memWf_congr hm rfl fun b => by cases b <;> rfl, ha, hsc, ⟨?_, herr, hstage⟩, fun _ => ?_, hl⟩
    · rw [accept_fault, hf]; exact nofun
    · exact ⟨i, hne, pendingInstr_accept hw s, hlegal⟩
  | lenWritten b n hidle hn =>
    obtain ⟨hb, hf⟩ := idle_iff.mp hidle
    exact inv_of_idle ((setLen_cfg s b n).symm ▸ hc) ((setLen_dataWf (inv_dataWf hs hf) hn).withStage _)
      ((setLen_busy s b n).trans hb) ((setLen_fault s b n).trans hf)
      ((setLen_err s b n).trans (err_eq_noError hflags hf))
  | selWritten n =>
    exact ⟨hc, memWf_congr hm rfl fun b => by cases b <;> rfl, ha, hsc, hflags, hp, hl⟩
  | byteWritten b i v hidle hi =>
    obtain ⟨hb, hf⟩ := idle_iff.mp hidle
    exact inv_of_idle ((setBuf_cfg s b _).symm ▸ hc) ((writeByte_dataWf (inv_dataWf hs hf) hi v).withStage _)
      ((setBuf_busy s b _).trans hb) ((setBuf_fault s b _).trans hf)
      ((setBuf_err s b _).trans (err_eq_noError hflags hf))
  | answered answers draws =>
    exact ⟨hc, memWf_congr hm rfl fun b => by cases b <;> rfl, ha, hsc, hflags, hp, hl⟩

/-- Settles O58: the core's step and every move of the host keep the state legal. -/
theorem stepKeepsLegal : Obligations.StepKeepsLegal := by
  intro s t hs h
  rcases step_cases h with ⟨hb, i, -, hi⟩ | rfl | ⟨rest, heffect⟩
  · exact exec_inv hs hb hi
  · exact hs
  · exact hostEffect_inv (hostTook_inv hs rest) heffect

end Sys2Proof.Machine

/-!
PROOFS. FREQ leaves the histogram of the data; sums over sparse arrays.
-/

namespace Sys2Proof.Machine

/-! ### The histogram (R130, R131) -/

theorem eq_ofNat_iff {a : Byte} {b : Nat} (hb : b < 256) : a = BitVec.ofNat 8 b ↔ a.toNat = b := by
  rw [← BitVec.toNat_inj, BitVec.toNat_ofNat, Nat.mod_eq_of_lt hb]

/-- Counting adds to each count the occurrences of its byte value. -/
theorem get_countBytes (x : List Byte) (f : Sparse Nat) {b : Nat} (hb : b < 256) :
    (Sparse.get (countBytes f x) b).getD 0 = (Sparse.get f b).getD 0 + x.count (BitVec.ofNat 8 b) := by
  induction x generalizing f with
  | nil => rfl
  | cons a x ih =>
    rw [countBytes, ih, Sparse.get_put, List.count_cons]
    by_cases h : b = a.toNat
    · have hab : a = BitVec.ofNat 8 b := (eq_ofNat_iff hb).mpr h.symm
      rw [if_pos h, if_pos (beq_iff_eq.mpr hab), ← h, Option.getD_some]
      omega
    · have hab : ¬ a = BitVec.ofNat 8 b := fun e => h ((eq_ofNat_iff hb).mp e).symm
      rw [if_neg h, if_neg (mt beq_iff_eq.mp hab), Nat.add_zero]

theorem runFreq_histogram {s t : State} (h : runFreq s = .ok t) : t.Histogram := by
  obtain ⟨-, rfl⟩ := runFreq_eq_ok.mp h
  intro b hb
  exact (get_countBytes s.data [] hb).trans (Nat.zero_add _)

theorem sum_map_range (n : Nat) (f : Nat → Nat) : ((List.range n).map f).sum = ∑ i ∈ Finset.range n, f i := rfl

/-- Every byte of a list is counted once, under its value. -/
theorem sum_count_bytes (x : List Byte) :
    ((List.range 256).map fun b => x.count (BitVec.ofNat 8 b)).sum = x.length := by
  rw [sum_map_range]
  induction x with
  | nil => exact Finset.sum_const_zero
  | cons a x ih =>
    have hone : ∑ b ∈ Finset.range 256, (if a == BitVec.ofNat 8 b then 1 else 0) = 1 := by
      have hind : ∀ b ∈ Finset.range 256, (if a == BitVec.ofNat 8 b then 1 else 0) = if a.toNat = b then 1 else 0 := by
        intro b hb
        have hlt := Finset.mem_range.mp hb
        simp only [beq_iff_eq, eq_ofNat_iff hlt]
      rw [Finset.sum_congr rfl hind, Finset.sum_ite_eq, if_pos (Finset.mem_range.mpr a.isLt)]
    simp only [List.count_cons, Finset.sum_add_distrib]
    rw [ih, hone, List.length_cons]

/-! ### Sums over sparse arrays -/

namespace Sparse

variable {α : Type}

/-- The sum of a weight over the entries of an array. -/
def sum (w : Nat × α → Nat) (m : Sparse α) : Nat := (m.map w).sum

theorem sum_cons (w : Nat × α → Nat) (e : Nat × α) (m : Sparse α) : sum w (e :: m) = w e + sum w m := rfl

/-- A write to an index without an entry adds the new entry's weight. -/
theorem sum_put_new {w : Nat × α → Nat} {m : Sparse α} {i : Nat} {v : α} (h : get m i = none) :
    sum w (put m i v) = sum w m + w (i, v) := by
  induction m with
  | nil => simp [put, sum]
  | cons e m ih =>
    obtain ⟨k, u⟩ := e
    rw [get_cons] at h
    split at h
    · cases h
    · rename_i hk
      rw [put, if_neg hk]
      split
      · rw [sum_cons, Nat.add_comm]
      · rw [sum_cons, sum_cons, ih h, Nat.add_assoc]

/-- A write to an index with an entry trades the old entry's weight for the new one's. -/
theorem sum_put_old {w : Nat × α → Nat} {m : Sparse α} (hm : wf m) {i : Nat} {u v : α} (h : get m i = some u) :
    sum w (put m i v) + w (i, u) = sum w m + w (i, v) := by
  induction m with
  | nil => cases h
  | cons e m ih =>
    obtain ⟨k, x⟩ := e
    obtain ⟨hk, hm⟩ := wf_cons.mp hm
    rw [get_cons] at h
    split at h
    · rename_i hik
      cases h
      subst hik
      rw [put, if_neg (lt_irrefl _), if_pos rfl, sum_cons, sum_cons]
      omega
    · rename_i hik
      have hlt : k < i := hk (i, u) (mem_of_get h)
      rw [put, if_neg (by omega), if_neg hik, sum_cons, sum_cons, Nat.add_assoc, ih hm h, Nat.add_assoc]

end Sparse

/-- The weight that counts the live nodes. -/
def liveWeight (e : Nat × Node) : Nat := if e.2.live then 1 else 0

/-- The weight that adds up the frequencies of the live nodes. -/
def freqWeight (e : Nat × Node) : Nat := if e.2.live then e.2.freq else 0

theorem live_length (s : State) : s.live.length = Sparse.sum liveWeight s.node := by
  rw [State.live, List.length_map]
  induction s.node with
  | nil => rfl
  | cons e m ih =>
    rw [Sparse.sum_cons, ← ih, liveWeight, List.filter_cons]
    split
    · rw [List.length_cons, Nat.add_comm]
    · rw [Nat.zero_add]

theorem live_freq_sum (m : Sparse Node) :
    ((m.filter fun e => e.2.live).map fun e => e.2.freq).sum = Sparse.sum freqWeight m := by
  induction m with
  | nil => rfl
  | cons e m ih =>
    rw [Sparse.sum_cons, ← ih, freqWeight, List.filter_cons]
    split
    · rfl
    · rw [Nat.zero_add]

end Sys2Proof.Machine

/-!
PROOFS. TINIT leaves a forest: the leaves of the byte values that occur.
-/

namespace Sys2Proof.Machine

/-! ### The tree store after TINIT (R140, R143) -/

/-- The leaf TINIT makes of a byte value that occurs. -/
def leafNode (s : State) (i : Nat) : Node := ⟨true, true, BitVec.ofNat 8 i, s.freqAt i, 0#9, 0#9⟩

theorem mem_occurring {s : State} {i : Nat} : i ∈ occurring s ↔ i < 256 ∧ 0 < s.freqAt i := by
  simp [occurring]

theorem nodeAt_withLeaves (s : State) (i : Nat) :
    (withLeaves s).nodeAt i = if i < 256 ∧ 0 < s.freqAt i then some (leafNode s i) else none := by
  rw [State.nodeAt, withLeaves_node, Sparse.get_tabulate]
  by_cases hi : i < 256
  · have hi' : i < 511 := by omega
    by_cases hf : 0 < s.freqAt i
    · rw [if_pos hi', if_pos hi, if_pos ⟨hi, hf⟩, leafOf, if_pos hf, leafNode]
    · rw [if_pos hi', if_pos hi, if_neg (mt And.right hf), leafOf, if_neg hf]
  · rw [if_neg hi, if_neg (mt And.left hi), ite_self]

theorem occurring_pairwise (s : State) : (occurring s).Pairwise (· < ·) := List.pairwise_lt_range.filter _

/-- The tree store lists the leaves of the occurring byte values in order. -/
theorem withLeaves_node_eq (s : State) : (withLeaves s).node = (occurring s).map fun i => (i, leafNode s i) := by
  have hwf : Sparse.wf ((occurring s).map fun i => (i, leafNode s i)) := by
    rw [Sparse.wf, List.map_map]
    exact (List.map_id _).symm ▸ occurring_pairwise s
  refine Sparse.ext_of_wf (withLeaves_nodesFit s).1 hwf fun i => Option.ext fun n => ?_
  rw [← Sparse.mem_iff_get hwf, ← State.nodeAt, nodeAt_withLeaves, List.mem_map]
  constructor
  · intro h
    split at h
    · rename_i hi
      exact ⟨i, mem_occurring.mpr hi, by rw [Option.some.inj h]⟩
    · cases h
  · rintro ⟨j, hj, h⟩
    cases h
    rw [if_pos (mem_occurring.mp hj)]

theorem live_withLeaves (s : State) : (withLeaves s).live = occurring s := by
  rw [State.live, withLeaves_node_eq, List.filter_eq_self.mpr, List.map_map]
  · exact List.map_id _
  · intro e he
    obtain ⟨i, -, rfl⟩ := List.mem_map.mp he
    rfl

/-- Counts of 0 add nothing. -/
theorem sum_map_filter_pos (f : Nat → Nat) (l : List Nat) :
    ((l.filter fun b => decide (f b > 0)).map f).sum = (l.map f).sum := by
  induction l with
  | nil => rfl
  | cons b l ih =>
    rw [List.filter_cons]
    split
    · rw [List.map_cons, List.sum_cons, List.map_cons, List.sum_cons, ih]
    · rename_i h
      have h0 : f b = 0 := by simpa using h
      rw [List.map_cons, List.sum_cons, h0, Nat.zero_add, ih]

/-- The counts of a histogram add up to the number of data bytes (R131). -/
theorem sum_counts_of_histogram {s : State} (h : s.Histogram) : ((List.range 256).map s.freqAt).sum = s.dlen := by
  rw [List.map_congr_left fun b hb => h b (List.mem_range.mp hb), sum_count_bytes]
  exact bytes_length s .dbuf

theorem sum_freqWeight_withLeaves {s : State} (h : s.Histogram) : Sparse.sum freqWeight (withLeaves s).node = s.dlen := by
  have hweight : freqWeight ∘ (fun i => (i, leafNode s i)) = s.freqAt := rfl
  rw [withLeaves_node_eq, Sparse.sum, List.map_map, hweight, ← sum_counts_of_histogram h, occurring]
  exact sum_map_filter_pos s.freqAt (List.range 256)

/-- A node of the tree store right after TINIT is the leaf of an occurring byte value. -/
theorem nodeAt_withLeaves_eq_some {s : State} {i : Nat} {n : Node} (h : (withLeaves s).nodeAt i = some n) :
    i < 256 ∧ n = leafNode s i := by
  rw [nodeAt_withLeaves] at h
  split at h
  · rename_i hi
    exact ⟨hi.1, (Option.some.inj h).symm⟩
  · cases h

/-- The invariants of the tree store hold after TINIT (R143). -/
theorem forest_withLeaves {s : State} (h : s.Histogram) : (withLeaves s).Forest := by
  have hfreq : ∀ i, (withLeaves s).freqAt i = s.freqAt i := fun i => by rw [State.freqAt, withLeaves_freq, State.freqAt]
  have hleaf : ∀ {i n c}, (withLeaves s).nodeAt i = some n → ¬ State.ChildOf n c := fun hn hc => by
    obtain ⟨-, rfl⟩ := nodeAt_withLeaves_eq_some hn
    cases hc.1
  refine ⟨fun i => ?_, fun i n hn => ?_, fun i n hn hl => ?_, ⟨?_, fun c k hk => ?_⟩, ⟨?_, ?_, ?_⟩, ?_⟩
  · rw [nodeAt_withLeaves, hfreq, withLeaves_next]
    split <;> simp_all
  · obtain ⟨hi, rfl⟩ := nodeAt_withLeaves_eq_some hn
    exact ⟨⟨fun _ => hi, fun _ => rfl⟩, fun _ => ⟨by simp [leafNode, Nat.mod_eq_of_lt hi], (hfreq i).symm, rfl, rfl⟩⟩
  · obtain ⟨-, rfl⟩ := nodeAt_withLeaves_eq_some hn
    cases hl
  · exact fun i j n m c hn _ hc => absurd hc (hleaf hn)
  · obtain ⟨-, rfl⟩ := nodeAt_withLeaves_eq_some hk
    exact ⟨fun _ ⟨i, n, hn, hc⟩ => hleaf hn hc, fun _ => rfl⟩
  · rw [live_withLeaves, withLeaves_nlive]
  · have hocc : occurring (withLeaves s) = occurring s := by simp only [occurring, hfreq]
    rw [withLeaves_nlive, withLeaves_next, hocc]
    rfl
  · rw [withLeaves_next]
  · rw [State.LiveFrequenciesAddUp, live_freq_sum, sum_freqWeight_withLeaves h, withLeaves_dlen]

end Sys2Proof.Machine

/-!
PROOFS. TMERGE keeps the invariants of the tree store.
-/

namespace Sys2Proof.Machine

/-! ### The tree store after TMERGE (R142, R143) -/

/-- A node taken out of the queue if it is one of the two extracted. -/
def takenOut (a b i : Nat) (n : Node) : Node := { n with live := n.live && i != a && i != b }

@[simp] theorem takenOut_live (a b i : Nat) (n : Node) :
    (takenOut a b i n).live = true ↔ n.live = true ∧ i ≠ a ∧ i ≠ b := by
  simp [takenOut, and_assoc]

theorem takenOut_other {a b i : Nat} (ha : i ≠ a) (hb : i ≠ b) (n : Node) : takenOut a b i n = n := by
  cases n
  simp [takenOut, bne_iff_ne.mpr ha, bne_iff_ne.mpr hb]

theorem takenOut_left_eq (a b : Nat) (n : Node) : takenOut a b a n = { n with live := false } := by
  simp [takenOut]

theorem takenOut_right_eq (a b : Nat) (n : Node) : takenOut a b b n = { n with live := false } := by
  simp [takenOut]

/-- The tree store after a merge: `a` and `b` are taken out of the queue, then their combination is put in (R142). -/
def mergedNodes (m : Sparse Node) (a : Nat) (na : Node) (b : Nat) (nb : Node) (next : Nat) : Sparse Node :=
  Sparse.put (Sparse.put (Sparse.put m a { na with live := false }) b { nb with live := false }) next
    (combine a na b nb)

section
variable {m : Sparse Node} {a b : Nat} {na nb : Node}

theorem get_mergedNodes (hga : Sparse.get m a = some na) (hgb : Sparse.get m b = some nb) (next i : Nat) :
    Sparse.get (mergedNodes m a na b nb next) i =
      if i = next then some (combine a na b nb) else (Sparse.get m i).map (takenOut a b i) := by
  rw [mergedNodes, Sparse.get_put, Sparse.get_put, Sparse.get_put]
  split
  · rfl
  · by_cases hib : i = b
    · rw [if_pos hib, hib, hgb, Option.map_some, takenOut_right_eq]
    · rw [if_neg hib]
      by_cases hia : i = a
      · rw [if_pos hia, hia, hga, Option.map_some, takenOut_left_eq]
      · rw [if_neg hia, Option.map_congr fun n _ => takenOut_other hia hib n, Option.map_id']

/-- A merge moves weight from the two nodes it takes out to their combination. -/
theorem sum_mergedNodes (w : Nat × Node → Nat) (hm : Sparse.wf m) (hne : a ≠ b) (hga : Sparse.get m a = some na)
    (hgb : Sparse.get m b = some nb) {next : Nat} (hn : Sparse.get m next = none) :
    Sparse.sum w (mergedNodes m a na b nb next) + w (a, na) + w (b, nb) =
      Sparse.sum w m + w (a, { na with live := false }) + w (b, { nb with live := false }) +
        w (next, combine a na b nb) := by
  have hna : next ≠ a := fun e => by rw [e, hga] at hn; cases hn
  have hnb : next ≠ b := fun e => by rw [e, hgb] at hn; cases hn
  have h1 := Sparse.sum_put_old (w := w) hm (v := { na with live := false }) hga
  have h2 := Sparse.sum_put_old (w := w) (Sparse.put_wf hm a { na with live := false })
    (v := { nb with live := false }) ((Sparse.get_put_other _ _ hne.symm).trans hgb)
  have h3 := Sparse.sum_put_new (w := w) (v := combine a na b nb)
    (((Sparse.get_put_other _ { nb with live := false } hnb).trans
      (Sparse.get_put_other m { na with live := false } hna)).trans hn)
  rw [mergedNodes]
  omega

end

/-- `t` is `s` after one merge of the live nodes `a` and `b`, in what the tree store's invariants speak of (R142). -/
structure Merged (s t : State) (a b : Nat) (na nb : Node) : Prop where
  wf : Sparse.wf s.node
  ne : a ≠ b
  left : s.nodeAt a = some na
  leftLive : na.live = true
  right : s.nodeAt b = some nb
  rightLive : nb.live = true
  next_le : s.next ≤ 510
  freq : t.freq = s.freq
  dlen : t.dlen = s.dlen
  next : t.next = s.next + 1
  nlive : t.nlive = s.nlive - 1
  node : t.node = mergedNodes s.node a na b nb s.next

/-- TMERGE merges two different live nodes. -/
theorem merged_of_runTmerge {s t : State} (h : runTmerge s = .ok t) (hwf : Sparse.wf s.node) :
    ∃ a b na nb, Merged s t a b na nb := by
  obtain ⟨a, na, b, nb, ha, hb, hnext, rfl⟩ := runTmerge_eq_ok.mp h
  obtain ⟨hma, hla⟩ := minLive_mem ha
  obtain ⟨hmb, hlb⟩ := minLive_mem hb
  have hga := (Sparse.mem_iff_get hwf).mp hma
  have hgb := (Sparse.mem_iff_get (Sparse.put_wf hwf a { na with live := false })).mp hmb
  have hne : a ≠ b := by
    rintro rfl
    rw [Sparse.get_put_same] at hgb
    cases hgb
    cases hlb
  rw [Sparse.get_put_other _ _ hne.symm] at hgb
  exact ⟨a, b, na, nb, hwf, hne, hga, hla, hgb, hlb, hnext, rfl, rfl, rfl, rfl, rfl⟩

namespace Merged

variable {s t : State} {a b : Nat} {na nb : Node}

theorem nodeAt (h : Merged s t a b na nb) (i : Nat) :
    t.nodeAt i = if i = s.next then some (combine a na b nb) else (s.nodeAt i).map (takenOut a b i) := by
  rw [State.nodeAt, h.node]
  exact get_mergedNodes h.left h.right s.next i

theorem nodeAt_next (h : Merged s t a b na nb) : t.nodeAt s.next = some (combine a na b nb) := by
  rw [h.nodeAt, if_pos rfl]

/-- An older node keeps everything but its place in the queue. -/
theorem nodeAt_old (h : Merged s t a b na nb) {i : Nat} {n : Node} (hi : i ≠ s.next) (hn : s.nodeAt i = some n) :
    t.nodeAt i = some (takenOut a b i n) := by
  rw [h.nodeAt, if_neg hi, hn, Option.map_some]

/-- A node after the merge is the new one or an older one. -/
theorem cases_nodeAt (h : Merged s t a b na nb) {i : Nat} {n : Node} (hn : t.nodeAt i = some n) :
    (i = s.next ∧ n = combine a na b nb) ∨ ∃ k, i ≠ s.next ∧ s.nodeAt i = some k ∧ n = takenOut a b i k := by
  rw [h.nodeAt] at hn
  split at hn
  · rename_i hi
    exact .inl ⟨hi, (Option.some.inj hn).symm⟩
  · rename_i hi
    obtain ⟨k, hk, rfl⟩ := Option.map_eq_some_iff.mp hn
    exact .inr ⟨k, hi, hk, rfl⟩

theorem freqAt (h : Merged s t a b na nb) (i : Nat) : t.freqAt i = s.freqAt i := by
  rw [State.freqAt, h.freq, State.freqAt]

theorem left_toNat (h : Merged s t a b na nb) (hlt : a < s.next) : (combine a na b nb).left.toNat = a := by
  have := h.next_le
  rw [combine, BitVec.toNat_ofNat, Nat.mod_eq_of_lt (by omega)]

theorem right_toNat (h : Merged s t a b na nb) (hlt : b < s.next) : (combine a na b nb).right.toNat = b := by
  have := h.next_le
  rw [combine, BitVec.toNat_ofNat, Nat.mod_eq_of_lt (by omega)]

end Merged

/-! What the invariants say of valid nodes. -/

theorem lt_next_of_valid {s : State} (h : s.Forest) {i : Nat} {n : Node} (hn : s.nodeAt i = some n) : i < s.next := by
  obtain ⟨hnodes, -, -, -, ⟨-, -, hnext⟩, -⟩ := h
  have hi := (hnodes i).mp (by rw [hn]; rfl)
  omega

theorem nodeAt_next_eq_none {s : State} (h : s.Forest) : s.nodeAt s.next = none := by
  cases hn : s.nodeAt s.next with
  | none => rfl
  | some n => exact absurd (lt_next_of_valid h hn) (lt_irrefl _)

/-- A child is older than its parent and out of the queue (R143 items 2 and 3). -/
theorem child_lt_and_not_live {s : State} (h : s.Forest) {i c : Nat} {n : Node} (hn : s.nodeAt i = some n)
    (hc : State.ChildOf n c) : c < i ∧ ∃ k, s.nodeAt c = some k ∧ k.live = false := by
  obtain ⟨-, -, hint, -, -, -⟩ := h
  obtain ⟨hleaf, hc⟩ := hc
  obtain ⟨-, hl, hr, l, r, hnl, hnr, hll, hlr, -⟩ := hint i n hn hleaf
  rcases hc with rfl | rfl
  · exact ⟨hl, l, hnl, hll⟩
  · exact ⟨hr, r, hnr, hlr⟩

section
variable {s t : State} {a b : Nat} {na nb : Node}

/-- The children of the new node. -/
theorem combine_childOf (h : Merged s t a b na nb) (hs : s.Forest) {c : Nat} :
    State.ChildOf (combine a na b nb) c ↔ c = a ∨ c = b := by
  rw [State.ChildOf, h.left_toNat (lt_next_of_valid hs h.left), h.right_toNat (lt_next_of_valid hs h.right)]
  simp [combine, eq_comm]

/-- An older node is no parent of the nodes taken out of the queue. -/
theorem not_childOf_takenOut (h : Merged s t a b na nb) (hs : s.Forest) {i : Nat} {n : Node}
    (hn : s.nodeAt i = some n) : ¬ State.ChildOf n a ∧ ¬ State.ChildOf n b := by
  constructor
  · intro hc
    obtain ⟨-, k, hk, hlive⟩ := child_lt_and_not_live hs hn hc
    rw [h.left] at hk
    cases hk
    rw [h.leftLive] at hlive
    cases hlive
  · intro hc
    obtain ⟨-, k, hk, hlive⟩ := child_lt_and_not_live hs hn hc
    rw [h.right] at hk
    cases hk
    rw [h.rightLive] at hlive
    cases hlive

theorem merged_nodesAreTheLeavesAndMerges (h : Merged s t a b na nb) (hs : s.Forest) :
    t.NodesAreTheLeavesAndMerges := by
  obtain ⟨hnodes, -, -, -, ⟨-, -, hnext⟩, -⟩ := hs
  intro i
  rw [h.nodeAt, h.freqAt, h.next]
  by_cases hi : i = s.next
  · rw [if_pos hi]
    exact ⟨fun _ => .inr (by omega), fun _ => rfl⟩
  · rw [if_neg hi, Option.isSome_map, hnodes i]
    omega

theorem merged_leavesHoldTheCounts (h : Merged s t a b na nb) (hs : s.Forest) : t.LeavesHoldTheCounts := by
  obtain ⟨-, hleaves, -, -, ⟨-, -, hnext⟩, -⟩ := hs
  intro i n hn
  rw [h.freqAt]
  rcases h.cases_nodeAt hn with ⟨rfl, rfl⟩ | ⟨k, -, hk, rfl⟩
  · exact ⟨⟨nofun, fun hi => absurd hi (by omega)⟩, nofun⟩
  · exact hleaves i k hk

theorem merged_internalNodesCombine (h : Merged s t a b na nb) (hs : s.Forest) : t.InternalNodesCombine := by
  have hla := lt_next_of_valid hs h.left
  have hlb := lt_next_of_valid hs h.right
  intro i n hn hleaf
  rcases h.cases_nodeAt hn with ⟨rfl, rfl⟩ | ⟨k, hi, hk, rfl⟩
  · have hl := h.left_toNat hla
    have hr := h.right_toNat hlb
    refine ⟨fun e => h.ne ?_, by omega, by omega, takenOut a b a na, takenOut a b b nb, ?_, ?_, ?_, ?_, rfl⟩
    · exact hl.symm.trans ((congrArg BitVec.toNat e).trans hr)
    · rw [hl]; exact h.nodeAt_old hla.ne h.left
    · rw [hr]; exact h.nodeAt_old hlb.ne h.right
    · rw [takenOut_left_eq]
    · rw [takenOut_right_eq]
  · obtain ⟨-, -, hint, -, -, -⟩ := id hs
    obtain ⟨hne, hl, hr, l, r, hnl, hnr, hll, hlr, hsum⟩ := hint i k hk hleaf
    have hdead : ∀ {c : Nat} {n : Node}, n.live = false → (takenOut a b c n).live = false := fun hn => by
      simp [takenOut, hn]
    exact ⟨hne, hl, hr, takenOut a b _ l, takenOut a b _ r, h.nodeAt_old (lt_next_of_valid hs hnl).ne hnl,
      h.nodeAt_old (lt_next_of_valid hs hnr).ne hnr, hdead hll, hdead hlr, hsum⟩

theorem merged_childrenAreNotShared (h : Merged s t a b na nb) (hs : s.Forest) : t.ChildrenAreNotShared := by
  obtain ⟨-, -, -, ⟨hunique, horphan⟩, -, -⟩ := id hs
  refine ⟨fun i j n m c hn hm hcn hcm => ?_, fun c k hk => ?_⟩
  · rcases h.cases_nodeAt hn with ⟨rfl, rfl⟩ | ⟨n₀, -, hn₀, rfl⟩
    · rcases h.cases_nodeAt hm with ⟨rfl, rfl⟩ | ⟨m₀, -, hm₀, rfl⟩
      · rfl
      · have hno := not_childOf_takenOut h hs hm₀
        rcases (combine_childOf h hs).mp hcn with rfl | rfl
        · exact absurd hcm hno.1
        · exact absurd hcm hno.2
    · rcases h.cases_nodeAt hm with ⟨rfl, rfl⟩ | ⟨m₀, -, hm₀, rfl⟩
      · have hno := not_childOf_takenOut h hs hn₀
        rcases (combine_childOf h hs).mp hcm with rfl | rfl
        · exact absurd hcn hno.1
        · exact absurd hcn hno.2
      · exact hunique i j n₀ m₀ c hn₀ hm₀ hcn hcm
  · rcases h.cases_nodeAt hk with ⟨rfl, rfl⟩ | ⟨k₀, -, hk₀, rfl⟩
    · refine ⟨fun _ ⟨i, n, hn, hcn⟩ => ?_, fun _ => rfl⟩
      rcases h.cases_nodeAt hn with ⟨rfl, rfl⟩ | ⟨n₀, -, hn₀, rfl⟩
      · rcases (combine_childOf h hs).mp hcn with e | e
        · exact (lt_next_of_valid hs h.left).ne e.symm
        · exact (lt_next_of_valid hs h.right).ne e.symm
      · have hlt := (child_lt_and_not_live hs hn₀ hcn).1
        have := lt_next_of_valid hs hn₀
        omega
    · rw [takenOut_live, horphan c k₀ hk₀]
      constructor
      · rintro ⟨hno, hca, hcb⟩ ⟨i, n, hn, hcn⟩
        rcases h.cases_nodeAt hn with ⟨rfl, rfl⟩ | ⟨n₀, -, hn₀, rfl⟩
        · rcases (combine_childOf h hs).mp hcn with e | e
          · exact hca e
          · exact hcb e
        · exact hno ⟨i, n₀, hn₀, hcn⟩
      · intro hno
        refine ⟨fun ⟨i, n, hn, hcn⟩ => hno ⟨i, _, h.nodeAt_old (lt_next_of_valid hs hn).ne hn, hcn⟩, ?_, ?_⟩
        · exact fun e => hno ⟨s.next, _, h.nodeAt_next, (combine_childOf h hs).mpr (.inl e)⟩
        · exact fun e => hno ⟨s.next, _, h.nodeAt_next, (combine_childOf h hs).mpr (.inr e)⟩

theorem merged_live_length (h : Merged s t a b na nb) (hs : s.Forest) : t.live.length + 1 = s.live.length := by
  have hsum := sum_mergedNodes liveWeight h.wf h.ne h.left h.right (nodeAt_next_eq_none hs)
  rw [live_length, live_length, h.node]
  simp only [liveWeight, h.leftLive, h.rightLive, combine, if_true, Bool.false_eq_true, if_false] at hsum
  omega

theorem merged_liveIsCounted (h : Merged s t a b na nb) (hs : s.Forest) : t.LiveIsCounted := by
  obtain ⟨-, -, -, -, ⟨hcount, hocc, hnext⟩, -⟩ := id hs
  have hlen := merged_live_length h hs
  have hsame : occurring t = occurring s := by simp only [occurring, h.freqAt]
  rw [State.LiveIsCounted, hsame, h.nlive, h.next]
  omega

theorem merged_liveFrequenciesAddUp (h : Merged s t a b na nb) (hs : s.Forest) : t.LiveFrequenciesAddUp := by
  obtain ⟨-, -, -, -, -, hadd⟩ := id hs
  have hsum := sum_mergedNodes freqWeight h.wf h.ne h.left h.right (nodeAt_next_eq_none hs)
  rw [State.LiveFrequenciesAddUp, live_freq_sum] at hadd ⊢
  rw [h.dlen, h.node, ← hadd]
  simp only [freqWeight, h.leftLive, h.rightLive, combine, if_true, Bool.false_eq_true, if_false] at hsum
  omega

/-- A merge keeps the invariants of the tree store (R143). -/
theorem forest_of_merged (h : Merged s t a b na nb) (hs : s.Forest) : t.Forest :=
  ⟨merged_nodesAreTheLeavesAndMerges h hs, merged_leavesHoldTheCounts h hs, merged_internalNodesCombine h hs,
    merged_childrenAreNotShared h hs, merged_liveIsCounted h hs, merged_liveFrequenciesAddUp h hs⟩

/-- The last merge leaves one live node, its own (R142). -/
theorem live_eq_of_merged (h : Merged s t a b na nb) (hs : s.Forest) (hone : t.nlive = 1) : t.live = [s.next] := by
  obtain ⟨hcount, -, -⟩ := merged_liveIsCounted h hs
  obtain ⟨i, hi⟩ := List.length_eq_one_iff.mp (hcount.symm.trans hone)
  have hmem : s.next ∈ t.live := List.mem_map.mpr ⟨(s.next, combine a na b nb),
    List.mem_filter.mpr ⟨Sparse.mem_of_get h.nodeAt_next, rfl⟩, rfl⟩
  rw [hi] at hmem ⊢
  rw [List.mem_singleton.mp hmem]

end

end Sys2Proof.Machine

/-!
PROOFS. ASSIGN leaves a decodable table: the codes are the paths to the leaves of a built tree.
-/

namespace Sys2Proof.Machine

/-! ### Decodable tables (R210) -/

theorem isPrefix_iff (a b : Bits) : isPrefix a b = true ↔ a <+: b := by
  induction a generalizing b with
  | nil => simp [isPrefix]
  | cons x a ih =>
    cases b with
    | nil => simp [isPrefix]
    | cons y b => simp [isPrefix, ih, List.cons_prefix_cons]

theorem mem_table {s : State} {b : Nat} {c : Bits} : (b, c) ∈ s.table ↔ b < 256 ∧ s.codeAt b = some c :=
  Sparse.mem_tabulate

/-- A table is decodable when no code is empty and none begins another entry's code (R210). -/
theorem decodable_table_iff {s : State} :
    decodable s.table = true ↔
      (∀ b c, b < 256 → s.codeAt b = some c → c ≠ []) ∧
        ∀ b b' c c', b < 256 → b' < 256 → b ≠ b' → s.codeAt b = some c → s.codeAt b' = some c' → ¬ c <+: c' := by
  have hmem : ∀ P : Nat × Bits → Prop, (∀ e ∈ s.table, P e) ↔ ∀ b c, b < 256 → s.codeAt b = some c → P (b, c) :=
    fun P => ⟨fun h b c hb hc => h _ (mem_table.mpr ⟨hb, hc⟩),
      fun h e he => h e.1 e.2 (mem_table.mp he).1 (mem_table.mp he).2⟩
  rw [decodable, Bool.and_eq_true, List.all_eq_true, List.all_eq_true]
  simp only [List.all_eq_true, hmem]
  refine and_congr (by simp) ⟨fun h b b' c c' hb hb' hne hc hc' hpre => ?_, fun h b c hb hc b' c' hb' hc' => ?_⟩
  · have := h b c hb hc b' c' hb' hc'
    simp [hne, (isPrefix_iff c c').mpr hpre] at this
  · by_cases hne : b = b'
    · simp [hne]
    · have hno : isPrefix c c' = false := by
        simpa using mt (isPrefix_iff c c').mp (h b b' c c' hb hb' hne hc hc')
      simp [hno]

/-! ### Paths in the tree (R161) -/

section
variable {s : State}

theorem followPath_nil_of_leaf {i : Nat} {n : Node} (hn : s.nodeAt i = some n) (hl : n.leaf = true) :
    s.followPath i [] = some n.sym.toNat := by
  simp [State.followPath, hn, hl]

theorem followPath_nil_of_internal {i : Nat} {n : Node} (hn : s.nodeAt i = some n) (hl : n.leaf = false) :
    s.followPath i [] = none := by
  simp [State.followPath, hn, hl]

theorem followPath_cons_of_leaf {i : Nat} {n : Node} (hn : s.nodeAt i = some n) (hl : n.leaf = true) (x : Bool)
    (r : Bits) : s.followPath i (x :: r) = none := by
  simp [State.followPath, hn, hl]

theorem followPath_cons_of_internal {i : Nat} {n : Node} (hn : s.nodeAt i = some n) (hl : n.leaf = false) (x : Bool)
    (r : Bits) : s.followPath i (x :: r) = s.followPath (if x then n.right.toNat else n.left.toNat) r := by
  simp [State.followPath, hn, hl]

/-- A path that ends, ends in a leaf. -/
theorem leaf_of_followPath {i : Nat} {q : Bits} {b : Nat} (h : s.followPath i q = some b) :
    ∃ j n, s.nodeAt j = some n ∧ n.leaf = true ∧ n.sym.toNat = b := by
  induction q generalizing i with
  | nil =>
    rw [State.followPath] at h
    split at h
    · rename_i n hn
      split at h
      · exact ⟨i, n, hn, ‹_›, Option.some.inj h⟩
      · cases h
    · cases h
  | cons x r ih =>
    rw [State.followPath] at h
    split at h
    · split at h
      · cases h
      · exact ih h
    · cases h

/-- No path to a leaf goes on: the codes of two leaves do not begin with each other (R163). -/
theorem followPath_append_eq_some {i : Nat} {q r : Bits} {b b' : Nat} (h : s.followPath i q = some b)
    (h' : s.followPath i (q ++ r) = some b') : b' = b := by
  induction q generalizing i with
  | nil =>
    cases r with
    | nil => exact Option.some.inj (h'.symm.trans h)
    | cons x r =>
      rw [State.followPath] at h
      split at h
      · rename_i n hn
        split at h
        · rw [List.nil_append, followPath_cons_of_leaf hn ‹_›] at h'
          cases h'
        · cases h
      · cases h
  | cons x q ih =>
    rw [State.followPath] at h
    rw [List.cons_append, State.followPath] at h'
    split at h
    · rename_i n hn
      rw [hn] at h'
      split at h
      · cases h
      · rename_i hl
        simp only [hl] at h'
        exact ih h h'
    · cases h

/-- Every valid node hangs below a live one: paths from there lead through it (R143 item 3). -/
theorem exists_live_above (hs : s.Forest) {i : Nat} {n : Node} (hn : s.nodeAt i = some n) :
    ∃ j k q, s.nodeAt j = some k ∧ k.live = true ∧ ∀ r, s.followPath j (q ++ r) = s.followPath i r := by
  induction hm : s.next - i using Nat.strong_induction_on generalizing i n with
  | _ d ih =>
    by_cases hlive : n.live = true
    · exact ⟨i, n, [], hn, hlive, fun r => rfl⟩
    · obtain ⟨-, -, -, ⟨-, horphan⟩, -, -⟩ := id hs
      obtain ⟨p, m, hp, hchild⟩ := not_not.mp (mt (horphan i n hn).mpr hlive)
      have hlt := (child_lt_and_not_live hs hp hchild).1
      have hpn := lt_next_of_valid hs hp
      obtain ⟨j, k, q, hj, hk, hq⟩ := ih (s.next - p) (by omega) hp rfl
      obtain ⟨hleaf, hc⟩ := hchild
      obtain ⟨x, hx⟩ : ∃ x : Bool, (if x then m.right.toNat else m.left.toNat) = i := by
        rcases hc with hc | hc
        · exact ⟨false, hc⟩
        · exact ⟨true, hc⟩
      refine ⟨j, k, q ++ [x], hj, hk, fun r => ?_⟩
      rw [List.append_assoc, hq, List.singleton_append, followPath_cons_of_internal hp hleaf, hx]

end

/-! ### What the walk writes (R161) -/

/-- Every code the walk writes is the path to its leaf. -/
theorem walk_sound {s : State} {depth i : Nat} {p : Bits} {ct ct' : Sparse Bits}
    (h : walk s.node depth i p ct = .ok ct') {b : Nat} {c : Bits} (hc : Sparse.get ct' b = some c) :
    Sparse.get ct b = some c ∨ ∃ q, c = p ++ q ∧ s.followPath i q = some b := by
  induction depth generalizing i p ct ct' with
  | zero => cases h
  | succ depth ih =>
    rw [walk] at h
    split at h
    · cases h
    · rename_i n hn
      have hn : s.nodeAt i = some n := hn
      split at h
      · rename_i hl
        cases h
        rw [Sparse.get_put] at hc
        split at hc
        · rename_i hb
          cases hc
          exact .inr ⟨[], (List.append_nil _).symm, by rw [followPath_nil_of_leaf hn hl, hb]⟩
        · exact .inl hc
      · rename_i hl
        have hl : n.leaf = false := by simpa using hl
        obtain ⟨u, hu, h⟩ := except_bind_eq_ok.mp h
        rcases ih h hc with hc | ⟨q, rfl, hq⟩
        · rcases ih hu hc with hc | ⟨q, rfl, hq⟩
          · exact .inl hc
          · exact .inr ⟨false :: q, by simp, by rw [followPath_cons_of_internal hn hl]; exact hq⟩
        · exact .inr ⟨true :: q, by simp, by rw [followPath_cons_of_internal hn hl]; exact hq⟩

/-- The walk writes a code for every leaf below its node and drops none. -/
theorem walk_complete {s : State} {depth i : Nat} {p : Bits} {ct ct' : Sparse Bits}
    (h : walk s.node depth i p ct = .ok ct') {b : Nat}
    (hb : (Sparse.get ct b).isSome = true ∨ ∃ q, s.followPath i q = some b) : (Sparse.get ct' b).isSome = true := by
  induction depth generalizing i p ct ct' with
  | zero => cases h
  | succ depth ih =>
    rw [walk] at h
    split at h
    · cases h
    · rename_i n hn
      have hn : s.nodeAt i = some n := hn
      split at h
      · rename_i hl
        cases h
        rw [Sparse.get_put]
        split
        · rfl
        · rename_i hne
          rcases hb with hb | ⟨q, hq⟩
          · exact hb
          · cases q with
            | nil =>
              rw [followPath_nil_of_leaf hn hl] at hq
              exact absurd (Option.some.inj hq).symm hne
            | cons x q =>
              rw [followPath_cons_of_leaf hn hl] at hq
              cases hq
      · rename_i hl
        have hl : n.leaf = false := by simpa using hl
        obtain ⟨u, hu, h⟩ := except_bind_eq_ok.mp h
        rcases hb with hb | ⟨q, hq⟩
        · exact ih h (.inl (ih hu (.inl hb)))
        · cases q with
          | nil =>
            rw [followPath_nil_of_internal hn hl] at hq
            cases hq
          | cons x q =>
            rw [followPath_cons_of_internal hn hl] at hq
            cases x with
            | false => exact ih h (.inl (ih hu (.inr ⟨q, hq⟩)))
            | true => exact ih h (.inr ⟨q, hq⟩)

/-! ### ASSIGN (R160 to R165) -/

/-- The code of a leaf: "0" for a root that is a leaf (R162), else the path to it (R161). -/
def IsCode (s : State) (b : Nat) (c : Bits) : Prop :=
  s.rootV = true ∧ c ≠ [] ∧
    (s.followPath s.root.toNat c = some b ∨ s.followPath s.root.toNat [] = some b ∧ c = [false])

theorem assignCodes_sound {s : State} {ct : Sparse Bits} (h : assignCodes s = .ok ct) {b : Nat} {c : Bits}
    (hc : Sparse.get ct b = some c) : IsCode s b c := by
  unfold assignCodes at h
  split at h
  · rename_i hroot
    split at h
    · cases h
    · rename_i n hn
      split at h
      · rename_i hl
        cases h
        rw [Sparse.get_cons] at hc
        split at hc
        · rename_i hb
          cases hc
          exact ⟨hroot, by simp, .inr ⟨by rw [followPath_nil_of_leaf hn hl, hb], rfl⟩⟩
        · cases hc
      · rename_i hl
        rcases walk_sound h hc with hc | ⟨q, rfl, hq⟩
        · cases hc
        · refine ⟨hroot, ?_, .inl hq⟩
          rintro rfl
          rw [followPath_nil_of_internal hn (by simpa using hl)] at hq
          cases hq
  · cases h; cases hc

theorem assignCodes_complete {s : State} {ct : Sparse Bits} (h : assignCodes s = .ok ct) (hroot : s.rootV = true)
    {b : Nat} {q : Bits} (hq : s.followPath s.root.toNat q = some b) : (Sparse.get ct b).isSome = true := by
  unfold assignCodes at h
  rw [if_pos hroot] at h
  split at h
  · cases h
  · rename_i n hn
    split at h
    · rename_i hl
      cases h
      cases q with
      | nil =>
        rw [followPath_nil_of_leaf hn hl] at hq
        rw [Sparse.get_cons, if_pos (Option.some.inj hq).symm]
        rfl
      | cons x q =>
        rw [followPath_cons_of_leaf hn hl] at hq
        cases hq
    · exact walk_complete h (.inr ⟨q, hq⟩)

/-- Two codes of which one begins the other belong to the same byte value (R163). -/
theorem IsCode.eq_of_append {s : State} {b b' : Nat} {c r : Bits} (h : IsCode s b c) (h' : IsCode s b' (c ++ r)) :
    b = b' := by
  obtain ⟨-, hne, hc⟩ := h
  obtain ⟨-, hne', hc'⟩ := h'
  rcases hc with hc | ⟨hc, rfl⟩
  · rcases hc' with hc' | ⟨hc', -⟩
    · exact (followPath_append_eq_some hc hc').symm
    · exact followPath_append_eq_some hc' (List.nil_append c ▸ hc)
  · rcases hc' with hc' | ⟨hc', -⟩
    · exact (followPath_append_eq_some hc hc').symm
    · exact Option.some.inj (hc.symm.trans hc')

section
variable {s : State}

/-- In a built tree the root leads to every byte value that occurs (R143). -/
theorem exists_path_of_occurs (hs : s.Forest) (ht : s.TreeBuilt) {b : Nat} (hb : b < 256) (hf : 0 < s.freqAt b) :
    s.rootV = true ∧ ∃ q, s.followPath s.root.toNat q = some b := by
  obtain ⟨hnodes, hleaves, -, -, ⟨hcount, -, -⟩, -⟩ := id hs
  obtain ⟨hle, hrootV, hlive, -⟩ := ht
  obtain ⟨n, hn⟩ := Option.isSome_iff_exists.mp ((hnodes b).mpr (.inl ⟨hb, hf⟩))
  obtain ⟨hleaf, hsym⟩ := hleaves b n hn
  have hl := hleaf.mpr hb
  obtain ⟨j, k, q, hj, hk, hq⟩ := exists_live_above hs hn
  have hmem : j ∈ s.live := List.mem_map.mpr ⟨(j, k), List.mem_filter.mpr ⟨Sparse.mem_of_get hj, hk⟩, rfl⟩
  have hpos := List.length_pos_of_mem hmem
  have hroot : s.rootV = true := hrootV.mpr (by omega)
  rw [hlive hroot, List.mem_singleton] at hmem
  refine ⟨hroot, q, ?_⟩
  rw [← hmem, ← List.append_nil q, hq, followPath_nil_of_leaf hn hl, (hsym hl).1]

/-- A byte value at the end of a path occurs (R143). -/
theorem occurs_of_followPath (hs : s.Forest) {i b : Nat} {q : Bits} (h : s.followPath i q = some b) :
    0 < s.freqAt b := by
  obtain ⟨hnodes, hleaves, -, -, -, -⟩ := hs
  obtain ⟨j, n, hn, hl, hsym⟩ := leaf_of_followPath h
  obtain ⟨hleaf, hfields⟩ := hleaves j n hn
  have hj : j = b := (hfields hl).1.symm.trans hsym
  subst hj
  have hvalid := (hnodes j).mp (by rw [hn]; rfl)
  have := hleaf.mp hl
  omega

/-- ASSIGN of a built tree leaves a decodable table with a code for exactly the byte values that occur (R164). -/
theorem runAssign_codesAssigned {t : State} (h : runAssign s = .ok t) (hs : s.Forest) (ht : s.TreeBuilt) :
    t.CodesAssigned := by
  obtain ⟨ct, hct, rfl⟩ := runAssign_eq_ok.mp h
  refine ⟨fun b hb => ⟨fun hsome => ?_, fun hf => ?_⟩, decodable_table_iff.mpr ⟨fun b c _ hc => ?_, ?_⟩,
    rfl, rfl, rfl, rfl, rfl⟩
  · obtain ⟨c, hc⟩ := Option.isSome_iff_exists.mp hsome
    obtain ⟨-, -, hpath | ⟨hpath, -⟩⟩ := assignCodes_sound hct hc
    · exact occurs_of_followPath hs hpath
    · exact occurs_of_followPath hs hpath
  · obtain ⟨hroot, q, hq⟩ := exists_path_of_occurs hs ht hb hf
    exact assignCodes_complete hct hroot hq
  · obtain ⟨-, hne, -⟩ := assignCodes_sound hct hc
    exact hne
  · rintro b b' c c' - - hne hc hc' ⟨r, rfl⟩
    exact hne ((assignCodes_sound hct hc).eq_of_append (assignCodes_sound hct hc'))

end

end Sys2Proof.Machine

/-!
PROOFS. What ENCODE packs, what DECODE reads off, and what PARSE puts in CT.
-/

namespace Sys2Proof.Machine

/-! ### The packed payload (R170 to R173) -/

@[simp] theorem push_nbits (p : Packer) (x : Bool) : (p.push x).nbits = p.nbits + 1 := by
  unfold Packer.push
  split <;> rfl

theorem pushAll_nbits (p : Packer) (x : Bits) : (p.pushAll x).nbits = p.nbits + x.length := by
  induction x generalizing p with
  | nil => rfl
  | cons b x ih => rw [Packer.pushAll, ih, push_nbits, List.length_cons, Nat.add_assoc, Nat.add_comm 1]

theorem pushAll_append (p : Packer) (x y : Bits) : p.pushAll (x ++ y) = (p.pushAll x).pushAll y := by
  induction x generalizing p with
  | nil => rfl
  | cons b x ih => exact ih (p.push b)

/-- The loop of ENCODE pushes the codes of the data in order (R172). -/
theorem pushCodes_eq_ok {s : State} {x : List Byte} {p q : Packer} (h : pushCodes s.ct p x = .ok q) :
    q = p.pushAll (s.encodedBits x) := by
  induction x generalizing p with
  | nil => exact (Except.ok.inj h).symm
  | cons b x ih =>
    rw [pushCodes] at h
    split at h
    · rename_i c hc
      have hbits : s.encodedBits (b :: x) = c ++ s.encodedBits x := by
        rw [State.encodedBits, List.flatMap_cons, State.codeAt, hc, Option.getD_some]
        rfl
      rw [ih h, hbits, pushAll_append]
    · cases h

/-! ### The decoded data (R214, R215) -/

theorem invert_eq_some {s : State} {c : Bits} {b : Nat} (h : invert s.table c = some b) :
    b < 256 ∧ s.codeAt b = some c := by
  obtain ⟨e, he, rfl⟩ := Option.map_eq_some_iff.mp h
  have hcode : e.2 = c := by simpa using List.find?_some he
  have hmem : (e.1, e.2) ∈ s.table := List.mem_of_find?_eq_some he
  obtain ⟨hb, hget⟩ := mem_table.mp hmem
  exact ⟨hb, hcode ▸ hget⟩

/-- The decode loop reads off bytes whose codes are the bits it is given (R214). -/
theorem decodeLoop_eq_ok {s : State} {dMax : Nat} {bits cand : Bits} {dlen : Nat} {out x : List Byte}
    (h : decodeLoop s.table dMax bits cand dlen out = .ok x) :
    ∃ y, x = out.reverse ++ y ∧ s.encodedBits y = cand ++ bits ∧ ∀ b ∈ y, (s.codeAt b.toNat).isSome = true := by
  induction bits generalizing cand dlen out with
  | nil =>
    rw [decodeLoop] at h
    split at h
    · rename_i hcand
      cases h
      exact ⟨[], (List.append_nil _).symm, by rw [hcand]; rfl, nofun⟩
    · cases h
  | cons a bits ih =>
    rw [decodeLoop] at h
    split at h
    · rename_i b hinv
      obtain ⟨hb, hcode⟩ := invert_eq_some hinv
      have hbyte : s.codeAt (BitVec.ofNat 8 b).toNat = some (cand ++ [a]) := by
        rw [BitVec.toNat_ofNat, Nat.mod_eq_of_lt hb, hcode]
      split at h
      · cases h
      · obtain ⟨y, rfl, hy, hall⟩ := ih h
        refine ⟨BitVec.ofNat 8 b :: y, by simp, ?_, fun z hz => ?_⟩
        · rw [State.encodedBits, List.flatMap_cons, hbyte, Option.getD_some, ← State.encodedBits, hy]
          simp
        · rcases List.mem_cons.mp hz with rfl | hz
          · rw [hbyte]; rfl
          · exact hall z hz
    · obtain ⟨y, hx, hy, hall⟩ := ih h
      exact ⟨y, hx, by rw [hy]; simp, hall⟩

/-- Every key of a header is a byte value (R94). -/
theorem keys_of_parseHeader {h : List Byte} {hd : Header} (hp : parseHeader h = some hd) :
    ∀ e ∈ hd.codes, e.1 ≤ 255 := by
  unfold parseHeader at hp
  simp only [Option.bind_eq_bind, Option.bind_eq_some_iff] at hp
  obtain ⟨_, -, _, -, _, -, _, -, _, -, _, -, _, -, hp⟩ := hp
  split at hp
  · rename_i hok
    cases hp
    simp only [Bool.and_eq_true, keysOk, List.all_eq_true, decide_eq_true_eq] at hok
    obtain ⟨-, hkeys, -⟩ := hok
    exact hkeys
  · cases hp

/-- CT after PARSE reads as the table of the header (R195). -/
theorem get_tableOf {t : List (Nat × Bits)} (h : ∀ e ∈ t, e.1 ≤ 255) (b : Nat) :
    Sparse.get (tableOf t) b = Sparse.get t b := by
  rw [tableOf, Sparse.get_tabulate]
  split
  · rfl
  · rename_i hb
    cases hg : Sparse.get t b with
    | none => rfl
    | some c =>
      have := h (b, c) (Sparse.mem_of_get hg)
      dsimp only at this
      omega

end Sys2Proof.Machine

/-!
PROOFS. Every step keeps valid what STAGE says is valid.
-/

namespace Sys2Proof.Machine

/-! ### What each part of the meaning of STAGE depends on -/

section
variable {s t : State}

theorem freqAt_congr (h : t.freq = s.freq) : t.freqAt = s.freqAt := funext fun b => by
  rw [State.freqAt, State.freqAt, h]

theorem codeAt_congr (h : t.ct = s.ct) : t.codeAt = s.codeAt := funext fun b => by
  rw [State.codeAt, State.codeAt, h]

theorem table_congr (h : t.ct = s.ct) : t.table = s.table := by
  rw [State.table, State.table, codeAt_congr h]

theorem encodedBits_congr (h : t.ct = s.ct) (x : List Byte) : t.encodedBits x = s.encodedBits x := by
  rw [State.encodedBits, State.encodedBits, codeAt_congr h]

theorem histogram_congr (hs : s.Histogram) (hf : t.freq = s.freq) (hd : t.data = s.data) : t.Histogram := by
  rwa [State.Histogram, freqAt_congr hf, hd]

theorem codesAssigned_congr (hs : s.CodesAssigned) (hct : t.ct = s.ct) (hf : t.freq = s.freq) (hn : t.node = s.node)
    (hr : t.root = s.root) (hrv : t.rootV = s.rootV) (hnext : t.next = s.next) (hl : t.nlive = s.nlive) :
    t.CodesAssigned := by
  rwa [State.CodesAssigned, codeAt_congr hct, table_congr hct, freqAt_congr hf, hn, hr, hrv, hnext, hl]

theorem packed_congr (hs : s.Packed) (hpay : t.payload = s.payload) (hpad : t.padding = s.padding)
    (hct : t.ct = s.ct) (hd : t.data = s.data) (hb : t.nbits = s.nbits) : t.Packed := by
  rwa [State.Packed, hpay, hpad, hd, encodedBits_congr hct, hb]

theorem parsed_congr (hs : s.Parsed) (hc : t.container = s.container) (hpay : t.payload = s.payload)
    (hpad : t.padding = s.padding) (hn : t.name = s.name) (hct : t.ct = s.ct) : t.Parsed := by
  rwa [State.Parsed, hc, hpay, hpad, hn, codeAt_congr hct]

theorem unpacked_congr (hs : s.Unpacked) (hpad : t.padding = s.padding) (hl : t.plen = s.plen)
    (hb : t.nbits = s.nbits) : t.Unpacked := by
  rwa [State.Unpacked, hpad, hl, hb]

/-- What STAGE means does not depend on the flags, on SEL, or on the host. -/
theorem stageMeaning_update (hs : s.StageMeaning) (busy : Bool) (pend : BitVec 8) (sel : BitVec 9)
    (host : List HostMove) (answers : List Word) (delay draws : Nat) :
    State.StageMeaning { s with busy := busy, pend := pend, sel := sel, host := host, answers := answers, delay := delay,
                                draws := draws } := hs

end

/-! ### What STAGE means after each stage of the compress chain (R23) -/

section
variable {s t : State}

theorem runFreq_meaning (h : runFreq s = .ok t) : t.stage = .cFreq ∧ t.StageMeaning := by
  have hh := runFreq_histogram h
  obtain ⟨-, rfl⟩ := runFreq_eq_ok.mp h
  exact ⟨rfl, hh⟩

theorem histogram_of_onlyTreeChanged (h : OnlyTreeChanged s t) (hs : s.Histogram) : t.Histogram := by
  obtain ⟨_, _, _, _, _, _, rfl⟩ := h
  exact hs

/-- TINIT leaves the leaves of the histogram: a built tree or a queue of at least two. -/
theorem runTinit_meaning (h : runTinit s = .ok t) (hs : s.Histogram) :
    (t.stage = .cTree ∨ t.stage = .cQueue) ∧ t.StageMeaning := by
  have hhist := histogram_of_onlyTreeChanged (runTinit_frame h) hs
  have hforest := forest_withLeaves hs
  have hnlive := withLeaves_nlive s
  have hlive := live_withLeaves s
  have hlt : ∀ b ∈ occurring s, b < 256 := fun b hb => (mem_occurring.mp hb).1
  have hcases := runTinit_cases h
  generalize withLeaves s = u at *
  generalize occurring s = o at *
  rcases hcases with ⟨rfl, rfl⟩ | ⟨b, rfl, rfl⟩ | ⟨hlen, rfl⟩
  · exact ⟨.inl rfl, hhist, hforest, by simp [hnlive], by simp [hnlive], nofun, fun _ => rfl⟩
  · have hb : (BitVec.ofNat 9 b).toNat = b := by
      have := hlt b (by simp)
      rw [BitVec.toNat_ofNat, Nat.mod_eq_of_lt (by omega)]
    exact ⟨.inl rfl, hhist, hforest, by simp [hnlive], by simp [hnlive],
      fun _ => hlive.trans (congrArg (fun i => [i]) hb.symm), nofun⟩
  · exact ⟨.inr rfl, hhist, hforest, by rw [← hnlive] at hlen; exact hlen, rfl, rfl⟩

/-- TMERGE leaves a forest with one live node fewer, a built tree when one is left. -/
theorem runTmerge_meaning (h : runTmerge s = .ok t) (hwf : Sparse.wf s.node) (hq : s.stage = .cQueue)
    (hs : s.StageMeaning) : (t.stage = .cTree ∨ t.stage = .cQueue) ∧ t.StageMeaning := by
  rw [State.StageMeaning, hq] at hs
  obtain ⟨hhist, hforest, htwo, hrootV, hroot⟩ := hs
  obtain ⟨a, b, na, nb, hm⟩ := merged_of_runTmerge h hwf
  have hhist' := histogram_of_onlyTreeChanged (runTmerge_frame h) hhist
  have hforest' := forest_of_merged hm hforest
  have hfields : t.root = (if s.nlive - 1 = 1 then BitVec.ofNat 9 s.next else s.root) ∧
      t.rootV = (if s.nlive - 1 = 1 then true else s.rootV) ∧
      t.stage = if s.nlive - 1 = 1 then .cTree else .cQueue := by
    obtain ⟨_, _, _, _, -, -, -, rfl⟩ := runTmerge_eq_ok.mp h
    exact ⟨rfl, rfl, rfl⟩
  obtain ⟨hroot', hrootV', hstage⟩ := hfields
  by_cases hone : s.nlive - 1 = 1
  · rw [if_pos hone] at hroot' hrootV' hstage
    have hnlive : t.nlive = 1 := hm.nlive.trans hone
    have hnext : t.root.toNat = s.next := by
      have := hm.next_le
      rw [hroot', BitVec.toNat_ofNat, Nat.mod_eq_of_lt (by omega)]
    refine ⟨.inl hstage, ?_⟩
    rw [State.StageMeaning, hstage]
    exact ⟨hhist', hforest', hnlive.le, by simp [hrootV', hnlive],
      fun _ => by rw [live_eq_of_merged hm hforest hnlive, hnext], fun hf => by rw [hrootV'] at hf; cases hf⟩
  · rw [if_neg hone] at hroot' hrootV' hstage
    refine ⟨.inr hstage, ?_⟩
    rw [State.StageMeaning, hstage]
    exact ⟨hhist', hforest', by rw [hm.nlive]; omega, hrootV'.trans hrootV, hroot'.trans hroot⟩

/-- TBUILD ends in a built tree (R144, R145). -/
theorem runTbuild_meaning (h : runTbuild s = .ok t) (hd : DataWf s) (hs : s.Histogram) :
    t.stage = .cTree ∧ t.StageMeaning := by
  obtain ⟨u, hu, h⟩ := bind_eq_ok.mp h
  obtain ⟨⟨-, hstage, hmeaning⟩, hne⟩ := mergeLoop_induction
    (P := fun v => DataWf v ∧ (v.stage = .cTree ∨ v.stage = .cQueue) ∧ v.StageMeaning)
    (fun ⟨hwf, _, hs⟩ hq hm => ⟨runTmerge_dataWf hm hwf, runTmerge_meaning hm hwf.node_wf hq hs⟩) h
    ⟨runTinit_dataWf hu hd, runTinit_meaning hu hs⟩
  exact ⟨hstage.resolve_right hne, hmeaning⟩

theorem runAssign_meaning (h : runAssign s = .ok t) (hg : s.stage = .cTree) (hs : s.StageMeaning) :
    t.stage = .cCodes ∧ t.StageMeaning := by
  rw [State.StageMeaning, hg] at hs
  obtain ⟨hhist, hforest, htree⟩ := hs
  have hcodes := runAssign_codesAssigned h hforest htree
  obtain ⟨ct, -, rfl⟩ := runAssign_eq_ok.mp h
  exact ⟨rfl, hhist, hcodes⟩

/-- A store to another buffer than DBUF keeps the histogram. -/
theorem stored_histogram {b : BufId} (x : List Byte) (hb : b ≠ .dbuf) (hs : s.Histogram) : (stored b x s).Histogram :=
  histogram_congr hs (stored_freq b x s) (stored_bytes_other x s hb.symm)

theorem stored_codesAssigned (b : BufId) (x : List Byte) (hs : s.CodesAssigned) : (stored b x s).CodesAssigned :=
  codesAssigned_congr hs (stored_ct b x s) (stored_freq b x s) (stored_node b x s) (stored_root b x s)
    (stored_rootV b x s) (stored_next b x s) (stored_nlive b x s)

theorem runEncode_meaning (h : runEncode s = .ok t) (hg : s.stage = .cCodes) (hs : s.StageMeaning) :
    t.stage = .cPacked ∧ t.StageMeaning := by
  rw [State.StageMeaning, hg] at hs
  obtain ⟨hhist, hcodes⟩ := hs
  obtain ⟨p, -, hp, -, rfl⟩ := runEncode_eq_ok.mp h
  have hpush := pushCodes_eq_ok hp
  have hhist' := stored_histogram p.flushed (b := .pbuf) (by decide) hhist
  have hcodes' := stored_codesAssigned .pbuf p.flushed hcodes
  have hpay : (stored .pbuf p.flushed s).payload = p.flushed := stored_bytes_same .pbuf p.flushed s
  have hbits : (stored .pbuf p.flushed s).encodedBits (stored .pbuf p.flushed s).data = s.encodedBits s.data := by
    rw [encodedBits_congr (stored_ct _ _ _)]
    exact congrArg _ (stored_bytes_other _ s (by decide))
  generalize stored .pbuf p.flushed s = u at *
  refine ⟨rfl, hhist', hcodes', ?_, ?_⟩
  · change (u.payload, p.padding) = pack (u.encodedBits u.data)
    rw [hpay, hbits, pack, ← hpush]
  · change p.nbits = (u.encodedBits u.data).length
    rw [hbits, hpush, pushAll_nbits]
    exact Nat.zero_add _

theorem runSerialize_meaning (h : runSerialize s = .ok t) (hg : s.stage = .cPacked) (hs : s.StageMeaning) :
    t.stage = .cDone ∧ t.StageMeaning := by
  rw [State.StageMeaning, hg] at hs
  obtain ⟨hhist, hcodes, hpacked⟩ := hs
  obtain ⟨-, -, -, rfl⟩ := runSerialize_eq_ok.mp h
  generalize hx : containerOf (serHeader s.padding s.table s.name) s.payload = x at *
  have hpay : (stored .cbuf x s).payload = s.payload := stored_bytes_other x s (by decide)
  have hhist' := stored_histogram x (b := .cbuf) (by decide) hhist
  have hcodes' := stored_codesAssigned .cbuf x hcodes
  have hpacked' : (stored .cbuf x s).Packed := packed_congr hpacked hpay (stored_padding _ _ _) (stored_ct _ _ _)
    (stored_bytes_other x s (by decide)) (stored_nbits _ _ _)
  have hserialized : (stored .cbuf x s).Serialized := by
    have hname : (stored .cbuf x s).name = s.name := stored_bytes_other x s (by decide)
    rw [State.Serialized, stored_padding, table_congr (stored_ct _ _ _), hname, hpay, hx]
    exact stored_bytes_same .cbuf x s
  generalize stored .cbuf x s = u at *
  exact ⟨rfl, hhist', hcodes', hpacked', hserialized⟩

end

/-! ### What STAGE means after each stage of the decompress chain (R23) -/

section
variable {s t : State}

theorem runParse_meaning (h : runParse s = .ok t) : t.stage = .dParsed ∧ t.StageMeaning := by
  obtain ⟨hdr, p, hd, -, hsplit, hparse, -, -, -, rfl⟩ := runParse_eq_ok.mp h
  have hct := get_tableOf (keys_of_parseHeader hparse)
  rw [parsed]
  generalize tableOf hd.codes = ct at *
  generalize hv : { s with padding := min hd.padding 8, ct := ct } = v
  have hfields : v.container = s.container ∧ v.padding = min hd.padding 8 ∧ v.ct = ct := by
    subst hv
    exact ⟨rfl, rfl, rfl⟩
  obtain ⟨hcont, hpad, hvct⟩ := hfields
  generalize hw : stored .nbuf hd.name v = w
  generalize hu : stored .pbuf p w = u
  refine ⟨rfl, hdr, hd, ?_, hparse, ?_, ?_, fun b => ?_⟩
  · have hpay : u.payload = p := hu ▸ stored_bytes_same .pbuf p w
    have hcont' : u.container = s.container :=
      hu ▸ hw ▸ (stored_bytes_other p _ (by decide)).trans ((stored_bytes_other hd.name v (by decide)).trans hcont)
    change splitContainer u.container = some (hdr, u.payload)
    rw [hcont', hpay, hsplit]
  · change u.padding = min hd.padding 8
    rw [← hu, ← hw, stored_padding, stored_padding, hpad]
  · change u.name = hd.name
    rw [← hu, ← hw]
    exact (stored_bytes_other p _ (by decide)).trans (stored_bytes_same .nbuf hd.name v)
  · change Sparse.get u.ct b = _
    rw [← hu, ← hw, stored_ct, stored_ct, hvct, hct]

theorem runChktab_meaning (h : runChktab s = .ok t) (hg : s.stage = .dParsed) (hs : s.StageMeaning) :
    t.stage = .dTable ∧ t.StageMeaning := by
  rw [State.StageMeaning, hg] at hs
  obtain ⟨hdec, rfl⟩ := runChktab_eq_ok.mp h
  exact ⟨rfl, hs, hdec⟩

theorem runUnpack_meaning (h : runUnpack s = .ok t) (hg : s.stage = .dTable) (hs : s.StageMeaning) :
    t.stage = .dUnpacked ∧ t.StageMeaning := by
  rw [State.StageMeaning, hg] at hs
  obtain ⟨hparsed, hdec⟩ := hs
  obtain ⟨hseven, hfit, rfl⟩ := runUnpack_eq_ok.mp h
  exact ⟨rfl, hparsed, hdec, hseven, hfit, rfl⟩

theorem runDecode_meaning (h : runDecode s = .ok t) (hg : s.stage = .dUnpacked) (hs : s.StageMeaning) :
    t.stage = .dDone ∧ t.StageMeaning := by
  rw [State.StageMeaning, hg] at hs
  obtain ⟨hparsed, hdec, hunpacked⟩ := hs
  obtain ⟨x, -, -, hx, -, rfl⟩ := runDecode_eq_ok.mp h
  obtain ⟨y, rfl, hbits, hall⟩ := decodeLoop_eq_ok hx
  have hpay : (stored .dbuf x s).payload = s.payload := stored_bytes_other x s (by decide)
  have hparsed' : (stored .dbuf x s).Parsed := parsed_congr hparsed (stored_bytes_other x s (by decide)) hpay
    (stored_padding _ _ _) (stored_bytes_other x s (by decide)) (stored_ct _ _ _)
  have hdec' : decodable (stored .dbuf x s).table = true := by rw [table_congr (stored_ct _ _ _), hdec]
  have hunpacked' : (stored .dbuf x s).Unpacked :=
    unpacked_congr hunpacked (stored_padding _ _ _) (stored_len_other (b := .dbuf) (c := .pbuf) x s (by decide))
      (stored_nbits _ _ _)
  have hdata : (stored .dbuf x s).data = x := stored_bytes_same .dbuf x s
  have hdecoded : (stored .dbuf x s).Decoded := by
    obtain ⟨-, -, hnbits⟩ := hunpacked
    have hlen : s.payload.length = s.plen := bytes_length s .pbuf
    rw [State.Decoded, hdata, hpay, encodedBits_congr (stored_ct _ _ _), codeAt_congr (stored_ct _ _ _), stored_padding,
      unpack, hlen, ← hnbits]
    exact ⟨hbits, hall⟩
  generalize stored .dbuf x s = u at *
  exact ⟨rfl, hparsed', hdec', hunpacked', hdecoded⟩

end

/-! ### Every step keeps the meaning of STAGE -/

/-- A stage command is legal at one STAGE (R113). -/
theorem stage_of_legalAt {i : Instr} {g h : Stage} (hn : needs i = some g) (hl : legalAt i h = true) : h = g := by
  rw [legalAt, hn] at hl
  exact (beq_iff_eq.mp hl).symm

theorem runCompress_meaning {s t : State} (h : runCompress s = .ok t) (hd : DataWf s) : t.StageMeaning := by
  obtain ⟨a, b, c, d, ha, hb, hc, hpack, ht⟩ := runCompress_eq_ok.mp h
  obtain ⟨hbg, hbm⟩ := runTbuild_meaning hb (runFreq_dataWf ha hd) (runFreq_histogram ha)
  obtain ⟨hcg, hcm⟩ := runAssign_meaning hc hbg hbm
  obtain ⟨hdg, hdm⟩ := runEncode_meaning hpack hcg hcm
  exact (runSerialize_meaning ht hdg hdm).2

theorem runDecompress_meaning {s t : State} (h : runDecompress s = .ok t) : t.StageMeaning := by
  obtain ⟨a, b, c, ha, hb, hc, ht⟩ := runDecompress_eq_ok.mp h
  obtain ⟨hag, ham⟩ := runParse_meaning ha
  obtain ⟨hbg, hbm⟩ := runChktab_meaning hb hag ham
  obtain ⟨hcg, hcm⟩ := runUnpack_meaning hc hbg hbm
  exact (runDecode_meaning ht hcg hcm).2

/-- At cFreq, STAGE promises the histogram. -/
theorem histogram_of_cFreq {s : State} (hg : s.stage = .cFreq) (hs : s.StageMeaning) : s.Histogram := by
  rwa [State.StageMeaning, hg] at hs

/-- A command that ends well leaves what its STAGE says. -/
theorem bodyOf_meaning {i : Instr} {s t : State} (h : bodyOf i s = .ok t) (hl : legalAt i s.stage = true)
    (hd : DataWf s) (hs : s.StageMeaning) : t.StageMeaning := by
  cases i with
  | sreset => cases h; exact hs
  | compress => exact runCompress_meaning h hd
  | freq => exact (runFreq_meaning h).2
  | tinit => exact (runTinit_meaning h (histogram_of_cFreq (stage_of_legalAt rfl hl) hs)).2
  | tmerge => exact (runTmerge_meaning h hd.node_wf (stage_of_legalAt rfl hl) hs).2
  | tbuild => exact (runTbuild_meaning h hd (histogram_of_cFreq (stage_of_legalAt rfl hl) hs)).2
  | assign => exact (runAssign_meaning h (stage_of_legalAt rfl hl) hs).2
  | encode => exact (runEncode_meaning h (stage_of_legalAt rfl hl) hs).2
  | serialize => exact (runSerialize_meaning h (stage_of_legalAt rfl hl) hs).2
  | decompress => exact runDecompress_meaning h
  | parse => exact (runParse_meaning h).2
  | chktab => exact (runChktab_meaning h (stage_of_legalAt rfl hl) hs).2
  | unpack => exact (runUnpack_meaning h (stage_of_legalAt rfl hl) hs).2
  | decode => exact (runDecode_meaning h (stage_of_legalAt rfl hl) hs).2

theorem exec_meaning {i : Instr} {s t : State} (hd : DataWf s) (hs : s.StageMeaning) (h : exec i s = .next t) :
    t.StageMeaning := by
  by_cases hi : i = .sreset
  · subst hi
    cases h
    exact stageMeaning_of_empty rfl
  rw [exec_eq_runCommand hi] at h
  rcases runCommand_next h with ⟨hl, u, hu, rfl⟩ | ⟨-, e, -, rfl⟩ | ⟨-, rfl⟩
  · exact stageMeaning_update (bodyOf_meaning hu hl hd hs) _ _ _ _ _ _ _
  · exact stageMeaning_of_empty rfl
  · exact stageMeaning_of_empty rfl

/-- A move of the host that is taken rewinds STAGE or touches nothing STAGE speaks of. -/
theorem hostEffect_meaning {s t : State} (hs : s.StageMeaning) (h : HostEffect s t) : t.StageMeaning := by
  cases h with
  | ignored => exact hs
  | reset => exact stageMeaning_of_empty rfl
  | faulted e hidle he => exact stageMeaning_of_empty rfl
  | accepted w i hidle hne hw hl => exact stageMeaning_update hs _ _ _ _ _ _ _
  | lenWritten b n hidle hn => exact stageMeaning_of_empty rfl
  | selWritten n => exact stageMeaning_update hs _ _ _ _ _ _ _
  | byteWritten b i v hidle hi => exact stageMeaning_of_empty rfl
  | answered answers draws => exact stageMeaning_update hs _ _ _ _ _ _ _

/-- Settles O59: a command that ends well leaves what its STAGE says, and everything else rewinds STAGE or touches
nothing it speaks of. -/
theorem stepKeepsStageMeaning : Obligations.StepKeepsStageMeaning := by
  intro s t hinv hs h
  rcases step_cases h with ⟨hb, i, -, hi⟩ | rfl | ⟨rest, heffect⟩
  · obtain ⟨-, -, -, -, hflags, -, -⟩ := id hinv
    exact exec_meaning (inv_dataWf hinv (fault_eq_false_of_busy hflags hb)) hs hi
  · exact hs
  · exact hostEffect_meaning (stageMeaning_update hs _ _ _ _ _ _ _) heffect

end Sys2Proof.Machine

/-!
PROOFS. The host's byte accesses to the buffers (R65, R66), the accesses the model refuses (R63, R64), and the order
of the bits in a payload (R61).
-/

namespace Sys2Proof.Machine

/-! ### Byte writes -/

/-- A byte write to a buffer, when the host's move is next. -/
theorem step_bufWrite {s : State} {b : BufId} {i : Nat} {v : Byte} {rest : List HostMove}
    (hh : s.host = .bufWrite .byte b i v :: rest) (hd : s.busy = true → s.delay ≠ 0) :
    step s = .next (hostWrite b i v (hostTook rest s)) :=
  step_eq_of_done (turn_eq_hostMove hh fun hb => ⟨hd hb, nofun⟩)

/-- When the byte of a host write is stored (R65). -/
abbrev WriteTaken (s : State) (b : BufId) (i : Nat) : Prop :=
  s.busy = false ∧ s.fault = false ∧ b ≠ .pbuf ∧ i < capacity s.cfg b

theorem hostWrite_of_taken {s : State} {b : BufId} {i : Nat} (h : WriteTaken s b i) (v : Byte) :
    hostWrite b i v s = { s.writeByte b i v with stage := .empty } := by
  obtain ⟨hbusy, hfault, hb, hi⟩ := h
  simp [hostWrite, idle, hbusy, hfault, hb, hi]

theorem hostWrite_of_not_taken {s : State} {b : BufId} {i : Nat} (h : ¬ WriteTaken s b i) (v : Byte) :
    hostWrite b i v s = s := by
  refine if_neg fun hc => h ?_
  simp only [Bool.and_eq_true, decide_eq_true_eq, bne_iff_ne] at hc
  obtain ⟨⟨hidle, hi⟩, hb⟩ := hc
  obtain ⟨hbusy, hfault⟩ := idle_iff.mp hidle
  exact ⟨hbusy, hfault, hb, hi⟩

/-- Settles O18: a write that is taken is `State.writeByte`, whose reads `byteAt_writeByte` gives. -/
theorem hostByteWrites : Obligations.HostByteWrites := by
  intro s b i v rest hh hd
  rw [step_bufWrite hh hd]
  refine ⟨fun htaken => ?_, fun hignored => ?_⟩
  · rw [hostWrite_of_taken (s := hostTook rest s) htaken]
    refine ⟨_, rfl, fun c j => byteAt_writeByte (hostTook rest s) b c i j v, ?_⟩
    obtain ⟨-, -, hb, -⟩ := htaken
    cases b with
    | dbuf | nbuf | cbuf => rfl
    | pbuf => exact absurd rfl hb
  · rw [hostWrite_of_not_taken (s := hostTook rest s) hignored]
    rfl

/-! ### Byte reads -/

/-- A byte read of a buffer, when the host's move is next. -/
theorem step_bufRead {s : State} {b : BufId} {i : Nat} {rest : List HostMove}
    (hh : s.host = .bufRead .byte b i :: rest) (hd : s.busy = true → s.delay ≠ 0) :
    step s = .next (hostReadBuf b i (hostTook rest s)) :=
  step_eq_of_done (turn_eq_hostMove hh fun hb => ⟨hd hb, nofun⟩)

theorem hostReadBuf_of_idle {s : State} (h : idle s = true) (b : BufId) (i : Nat) :
    hostReadBuf b i s =
      answer ((if i < capacity s.cfg b then s.byteAt b i else 0x00#8).setWidth 32) s := by
  rw [hostReadBuf, if_pos h]
  split
  · rfl
  · rfl

theorem hostReadBuf_of_not_idle {s : State} (h : ¬ idle s = true) (b : BufId) (i : Nat) :
    hostReadBuf b i s = answerFree 8 s := if_neg h

/-- Settles O19: an idle core answers the stored byte or 0 and draws nothing, every other core answers a drawn byte. -/
theorem hostByteReads : Obligations.HostByteReads := by
  intro s b i rest hh hd
  rw [step_bufRead hh hd]
  by_cases hi : idle s = true
  · rw [hostReadBuf_of_idle (by simpa using hi)]
    exact ⟨if i < capacity s.cfg b then s.byteAt b i else 0x00#8, s.draws, rfl, fun _ _ => rfl⟩
  · rw [hostReadBuf_of_not_idle (by simpa using hi)]
    exact ⟨(Config.freeRead s.draws).setWidth 8, s.draws + 1, rfl,
      fun hbusy hfault => absurd (idle_iff.mpr ⟨hbusy, hfault⟩) hi⟩

/-! ### Accesses of another width or alignment -/

/-- A move the spec does not give the host is refused by name (R63, R64). -/
theorem hostMove_of_not_wf {m : HostMove} (h : m.wf = false) (s : State) :
    hostMove m s = .done (.refused .registerAccess) ∨ hostMove m s = .done (.refused .bufferAccess) := by
  cases m with
  | regWrite | regRead => exact .inl (by simp [hostMove, h])
  | bufWrite | bufRead => exact .inr (by simp [hostMove, h])
  | wait | reset => cases h

/-- Settles O20: such a move is not WAIT, so it is the host's turn, and `hostMove` refuses it. -/
theorem otherAccessesAreRefused : Obligations.OtherAccessesAreRefused := by
  intro s m rest hh hd hwf
  have hwait : m ≠ .wait := by rintro rfl; cases hwf
  have hturn := turn_eq_hostMove hh fun hb => ⟨hd hb, hwait⟩
  exact (hostMove_of_not_wf hwf (hostTook rest s)).imp
    (fun h => step_eq_of_done (hturn.trans h)) fun h => step_eq_of_done (hturn.trans h)

/-! ### The bits of a payload -/

@[simp] theorem byteBits_length (b : Byte) : (byteBits b).length = 8 := rfl

/-- Bit number `i` of a byte is at bit position `7 - i` (R61). -/
theorem byteBits_getElem? (b : Byte) {i : Nat} (h : i < 8) : (byteBits b)[i]? = some (b.getLsbD (7 - i)) := by
  interval_cases i <;> rfl

@[simp] theorem payloadBits_cons (b : Byte) (p : List Byte) : payloadBits (b :: p) = byteBits b ++ payloadBits p := rfl

/-- The first eight bits are the first byte's, the others those of the remaining bytes. -/
theorem payloadBit_cons (b : Byte) (p : List Byte) (i : Nat) :
    payloadBit (b :: p) i = if i < 8 then some (b.getLsbD (7 - i)) else payloadBit p (i - 8) := by
  unfold payloadBit
  split
  · have hdiv : i / 8 = 0 := by omega
    have hmod : i % 8 = i := by omega
    simp [hdiv, hmod]
  · have hdiv : i / 8 = (i - 8) / 8 + 1 := by omega
    have hmod : i % 8 = (i - 8) % 8 := by omega
    rw [hdiv, hmod, List.getElem?_cons_succ]

/-- Settles O41, by induction on the payload's bytes. -/
theorem payloadBitOrder : Obligations.PayloadBitOrder := by
  intro p i
  induction p generalizing i with
  | nil => rfl
  | cons b p ih =>
    rw [payloadBits_cons, payloadBit_cons]
    split
    · rename_i h
      rw [List.getElem?_append_left h, byteBits_getElem? b h]
    · rename_i h
      rw [List.getElem?_append_right (not_lt.mp h), byteBits_length, ih]

end Sys2Proof.Machine

/-!
PROOFS. The command words: a word decodes to a command exactly when it is the command's opcode (R82, R83).
-/

namespace Sys2Proof.Machine

/-- The encoder zero-extends the opcode (R80). -/
theorem encode_eq_setWidth (i : Instr) : encode i = (opcode i).setWidth 32 := by cases i <;> rfl

/-- The decoder undoes the encoder. -/
theorem decode_encode (i : Instr) : decode (encode i) = .ok i := by cases i <;> rfl

/-- Settles O2: a word that decodes is an encoding, and each encoding decodes to its command. -/
theorem decodesExactlyItsWord : Obligations.DecodesExactlyItsWord := fun w i => by
  rw [← encode_eq_setWidth]
  exact ⟨eq_encode_of_decode, fun h => h ▸ decode_encode i⟩

/-- Settles O1: each listed word is the opcode of its command, zero-extended. -/
theorem listedWordsDecode : Obligations.ListedWordsDecode := by
  unfold Obligations.ListedWordsDecode
  simp only [decodesExactlyItsWord _ _]
  decide

end Sys2Proof.Machine

/-!
PROOFS. The header's texts: the decimal spelling, the fixed texts, the entries and the escaped name, with what their bytes
and their lengths are (R12, R91, R92, R93, R98).
-/

namespace Sys2Proof.Machine

/-! ### The decimal spelling (R12) -/

/-- Spelling a number takes fewer steps than the number has units, and further steps do nothing. -/
theorem decDigits_eq_of_lt {n m v : Nat} (hn : v < n) (hm : v < m) : decDigits n v = decDigits m v := by
  induction n generalizing m v with
  | zero => omega
  | succ n ih =>
    obtain ⟨m, rfl⟩ : ∃ k, m = k + 1 := ⟨m - 1, by omega⟩
    rw [decDigits, decDigits]
    split
    · rfl
    · rw [ih (by omega) (show v / 10 < m by omega)]

theorem dec_of_lt {v : Nat} (h : v < 10) : dec v = [digit v] := by simp [dec, decDigits, h]

theorem dec_of_ge {v : Nat} (h : 10 ≤ v) : dec v = dec (v / 10) ++ [digit (v % 10)] := by
  rw [dec, decDigits, if_neg (by omega), dec, decDigits_eq_of_lt (n := v) (m := v / 10 + 1) (by omega) (by omega)]

/-- Appending a digit multiplies by ten and adds the digit. -/
theorem dec_append_digit {v d : Nat} (hv : 0 < v) (hd : d < 10) : dec (10 * v + d) = dec v ++ [digit d] := by
  rw [dec_of_ge (by omega), show (10 * v + d) / 10 = v by omega, show (10 * v + d) % 10 = d by omega]

/-- Induction along the decimal spelling: the one-digit numbers, then one digit more. -/
theorem decimal_induction {P : Nat → Prop} (small : ∀ v < 10, P v)
    (more : ∀ v d, 0 < v → d < 10 → P v → P (10 * v + d)) (v : Nat) : P v := by
  induction v using Nat.strongRecOn with
  | ind v ih =>
    by_cases h : v < 10
    · exact small v h
    · rw [← Nat.div_add_mod v 10]
      exact more _ _ (by omega) (by omega) (ih _ (by omega))

theorem digit_toNat {v : Nat} (h : v < 10) : (digit v).toNat = 0x30 + v := by
  rw [digit, BitVec.toNat_ofNat]
  omega

theorem isDigit_iff {b : Byte} : isDigit b = true ↔ 0x30 ≤ b.toNat ∧ b.toNat ≤ 0x39 := by simp [isDigit]

theorem isDigit_digit {v : Nat} (h : v < 10) : isDigit (digit v) = true := by
  rw [isDigit_iff, digit_toNat h]
  omega

/-- A digit is the spelling of its value. -/
theorem digit_of_isDigit {b : Byte} (h : isDigit b = true) : digit (b.toNat - 0x30) = b := by
  rw [isDigit_iff] at h
  apply BitVec.eq_of_toNat_eq
  rw [digit_toNat (by omega)]
  omega

/-- A byte value has at most three digits. -/
theorem dec_length_le {v : Nat} (h : v ≤ 255) : (dec v).length ≤ 3 := by
  by_cases h1 : v < 10
  · simp [dec_of_lt h1]
  · by_cases h2 : v / 10 < 10
    · simp [dec_of_ge (not_lt.mp h1), dec_of_lt h2]
    · simp [dec_of_ge (not_lt.mp h1), dec_of_ge (not_lt.mp h2), dec_of_lt (show v / 10 / 10 < 10 by omega)]

/-! ### The entries and the name (R86, R91, R92) -/

theorem entries_cons_of_ne_nil (e : Nat × Bits) {t : List (Nat × Bits)} (h : t ≠ []) :
    entries (e :: t) = entry e.1 e.2 ++ [comma] ++ entries t := by
  obtain ⟨e', t, rfl⟩ := List.exists_cons_of_ne_nil h
  rfl

theorem entries_singleton (e : Nat × Bits) : entries [e] = entry e.1 e.2 := rfl

/-- Induction along the recursion of `entries`: no entry, the last entry, an entry with others after it. -/
theorem entries_induction {P : List (Nat × Bits) → Prop} (nil : P []) (last : ∀ e, P [e])
    (more : ∀ e t, t ≠ [] → P t → P (e :: t)) (t : List (Nat × Bits)) : P t := by
  induction t with
  | nil => exact nil
  | cons e t ih =>
    by_cases h : t = []
    · exact h ▸ last e
    · exact more e t h ih

theorem esc_cons (x : Byte) (nm : List Byte) : esc (x :: nm) = esc1 x ++ esc nm := rfl

theorem txt_cons (x : Bool) (c : Bits) : txt (x :: c) = (if x then 0x31#8 else 0x30#8) :: txt c := rfl

theorem esc1_dquote : esc1 dquote = [backslash, dquote] := rfl

theorem esc1_backslash : esc1 backslash = [backslash, backslash] := rfl

theorem esc1_control {x : Byte} (h : x.toNat < 0x20) :
    esc1 x = backslash :: (asc ['u', '0', '0'] ++ hex2 x.toNat) := by
  have hq : x ≠ dquote := by rintro rfl; exact absurd h (by decide)
  have hb : x ≠ backslash := by rintro rfl; exact absurd h (by decide)
  rw [esc1, if_neg hq, if_neg hb, if_pos h]
  rfl

theorem isPlain_iff {x : Byte} : isPlain x = true ↔ 0x20 ≤ x.toNat ∧ x ≠ dquote ∧ x ≠ backslash := by
  simp [isPlain, and_assoc]

theorem esc1_plain {x : Byte} (h : isPlain x = true) : esc1 x = [x] := by
  obtain ⟨hge, hq, hb⟩ := isPlain_iff.mp h
  rw [esc1, if_neg hq, if_neg hb, if_neg (not_lt.mpr hge)]

/-- The four kinds of byte of a name (R92). -/
theorem nameByte_cases {P : Byte → Prop} (quote : P dquote) (slash : P backslash)
    (control : ∀ x : Byte, x.toNat < 0x20 → P x) (plain : ∀ x, isPlain x = true → P x) (x : Byte) : P x := by
  by_cases hq : x = dquote
  · exact hq ▸ quote
  by_cases hb : x = backslash
  · exact hb ▸ slash
  by_cases hc : x.toNat < 0x20
  · exact control x hc
  · exact plain x (isPlain_iff.mpr ⟨not_lt.mp hc, hq, hb⟩)

/-! ### No byte below 0x20 (R93) -/

/-- No byte of a text is below 0x20. -/
def NoControlByte (x : List Byte) : Prop := ∀ b ∈ x, 0x20 ≤ b.toNat

theorem noControlByte_append {x y : List Byte} : NoControlByte (x ++ y) ↔ NoControlByte x ∧ NoControlByte y :=
  List.forall_mem_append

theorem noControlByte_dec (v : Nat) : NoControlByte (dec v) := by
  have hdigit : ∀ d < 10, NoControlByte [digit d] := fun d h => by
    simp [NoControlByte, digit_toNat h]
    omega
  induction v using decimal_induction with
  | small v h => rw [dec_of_lt h]; exact hdigit v h
  | more v d hv hd ih => rw [dec_append_digit hv hd]; exact noControlByte_append.mpr ⟨ih, hdigit d hd⟩

theorem noControlByte_txt (c : Bits) : NoControlByte (txt c) := by
  unfold NoControlByte txt
  simp only [List.forall_mem_map]
  exact fun x _ => by cases x <;> decide

theorem noControlByte_entry (b : Nat) (c : Bits) : NoControlByte (entry b c) := by
  have hq : NoControlByte [dquote] ∧ NoControlByte [dquote, colon, dquote] := by unfold NoControlByte; decide
  simp only [entry, noControlByte_append]
  exact ⟨⟨⟨⟨hq.1, noControlByte_dec b⟩, hq.2⟩, noControlByte_txt c⟩, hq.1⟩

theorem noControlByte_entries (t : List (Nat × Bits)) : NoControlByte (entries t) := by
  induction t using entries_induction with
  | nil => exact nofun
  | last e => exact noControlByte_entry e.1 e.2
  | more e t ht ih =>
    rw [entries_cons_of_ne_nil e ht, noControlByte_append, noControlByte_append]
    exact ⟨⟨noControlByte_entry e.1 e.2, by unfold NoControlByte; decide⟩, ih⟩

theorem hexDigit_ge_space {v : Nat} (h : v < 16) : 0x20 ≤ (hexDigit v).toNat := by
  interval_cases v <;> decide

theorem noControlByte_esc1 (x : Byte) : NoControlByte (esc1 x) := by
  induction x using nameByte_cases with
  | quote => unfold NoControlByte; decide
  | slash => unfold NoControlByte; decide
  | control x h =>
    have hhex : NoControlByte (hex2 x.toNat) := by
      simp only [NoControlByte, hex2, List.forall_mem_cons]
      exact ⟨hexDigit_ge_space (by omega), hexDigit_ge_space (by omega), nofun⟩
    rw [esc1_control h, ← List.singleton_append, noControlByte_append, noControlByte_append]
    exact ⟨by unfold NoControlByte; decide, by unfold NoControlByte; decide, hhex⟩
  | plain x h =>
    rw [esc1_plain h]
    simpa [NoControlByte] using (isPlain_iff.mp h).1

theorem noControlByte_esc (nm : List Byte) : NoControlByte (esc nm) := fun b hb => by
  obtain ⟨x, -, hx⟩ := List.mem_flatMap.mp hb
  exact noControlByte_esc1 x b hx

/-- Settles O34: the fixed texts, the padding, the entries and the escaped name each have no such byte. -/
theorem headerHasNoControlByte : Obligations.HeaderHasNoControlByte := fun p t nm => by
  have hfixed : NoControlByte textPadding ∧ NoControlByte textCodes ∧ NoControlByte textName ∧ NoControlByte textEnd := by
    unfold NoControlByte
    decide
  obtain ⟨hpadding, hcodes, hname, hend⟩ := hfixed
  change NoControlByte (serHeader p t nm)
  simp only [serHeader, noControlByte_append]
  exact ⟨⟨⟨⟨⟨⟨hpadding, noControlByte_dec p⟩, hcodes⟩, noControlByte_entries t⟩, hname⟩, noControlByte_esc nm⟩, hend⟩

/-! ### Lengths (R98) -/

theorem entry_length (b : Nat) (c : Bits) : (entry b c).length = (dec b).length + c.length + 5 := by
  simp [entry, txt]
  omega

/-- An entry has at most 263 bytes, and a comma stands between two entries. -/
theorem entries_length_le {t : List (Nat × Bits)} (h : ∀ e ∈ t, e.1 ≤ 255 ∧ e.2.length ≤ 255) :
    (entries t).length ≤ 264 * t.length - 1 := by
  have hentry (e : Nat × Bits) (he : e.1 ≤ 255 ∧ e.2.length ≤ 255) : (entry e.1 e.2).length ≤ 263 := by
    obtain ⟨hkey, hcode⟩ := he
    have hdec := dec_length_le hkey
    rw [entry_length]
    omega
  induction t using entries_induction with
  | nil => exact Nat.le_refl _
  | last e => exact hentry e (h e (List.mem_singleton_self e))
  | more e t ht ih =>
    rw [List.forall_mem_cons] at h
    obtain ⟨he, hrest⟩ := h
    have hpos := List.length_pos_iff.mpr ht
    have hfirst := hentry e he
    have hothers := ih hrest
    simp only [entries_cons_of_ne_nil e ht, List.length_append, List.length_cons, List.length_nil]
    omega

theorem length_le_entries_length (t : List (Nat × Bits)) : t.length ≤ (entries t).length := by
  induction t using entries_induction with
  | nil => exact Nat.le_refl _
  | last e =>
    rw [entries_singleton, entry_length, List.length_singleton]
    omega
  | more e t ht ih =>
    simp only [entries_cons_of_ne_nil e ht, entry_length, List.length_append, List.length_cons, List.length_nil]
    omega

theorem esc1_length_bounds (x : Byte) : 0 < (esc1 x).length ∧ (esc1 x).length ≤ 6 := by
  induction x using nameByte_cases with
  | quote => decide
  | slash => decide
  | control x h => simp [esc1_control h, asc, hex2]
  | plain x h => simp [esc1_plain h]

theorem esc_length_bounds (nm : List Byte) : nm.length ≤ (esc nm).length ∧ (esc nm).length ≤ 6 * nm.length := by
  induction nm with
  | nil => decide
  | cons x nm ih =>
    have hx := esc1_length_bounds x
    rw [esc_cons, List.length_append, List.length_cons]
    omega

theorem serHeader_length {p : Nat} (hp : p ≤ 7) (t : List (Nat × Bits)) (nm : List Byte) :
    (serHeader p t nm).length = 46 + (entries t).length + (esc nm).length := by
  have hpadding : textPadding.length = 11 := rfl
  have hcodes : textCodes.length = 10 := rfl
  have hname : textName.length = 22 := rfl
  have hend : textEnd.length = 2 := rfl
  simp only [serHeader, List.length_append, dec_of_lt (show p < 10 by omega), List.length_singleton]
  omega

/-- Settles O35: the pieces' lengths add up, and the bounds on entries and name bound the header. -/
theorem headerLength : Obligations.HeaderLength := fun p t nm hp => by
  refine ⟨serHeader_length hp t nm, entry_length, serHeader_length hp [] [], fun hlen hfit => ?_⟩
  have hentries := entries_length_le hfit
  have hname := (esc_length_bounds nm).2
  rw [serHeader_length hp]
  omega

end Sys2Proof.Machine

/-!
PROOFS. The header parser accepts exactly the header texts. For each piece of the text two lemmas: what the reader of the
piece takes off the front is spelled as the serializer spells it, and the serializer's spelling, followed by what ends the
piece, is read back (R94, R95, R96).
-/

namespace Sys2Proof.Machine

/-! ### Literal text -/

theorem expect_eq_some {x h r : List Byte} : expect x h = some r ↔ h = x ++ r := by
  induction x generalizing h with
  | nil => simp [expect]
  | cons a x ih =>
    cases h with
    | nil => simp [expect]
    | cons b h =>
      by_cases hab : a = b
      · simp [expect, hab, ih]
      · simp [expect, hab, Ne.symm hab]

theorem expect_append (x r : List Byte) : expect x (x ++ r) = some r := expect_eq_some.mpr rfl

/-! ### `int` -/

theorem takeDigits_cons_of_isDigit (v : Nat) {b : Byte} (h : isDigit b = true) (r : List Byte) :
    takeDigits v (b :: r) = takeDigits (10 * v + (b.toNat - 0x30)) r := if_pos h

theorem takeDigits_cons_of_not_isDigit (v : Nat) {b : Byte} (h : isDigit b = false) (r : List Byte) :
    takeDigits v (b :: r) = (v, b :: r) := if_neg (by simp [h])

/-- Reading on after a number that is not 0 extends its spelling. -/
theorem dec_append_takeDigits {v : Nat} (hv : 0 < v) (h : List Byte) :
    dec v ++ h = dec (takeDigits v h).1 ++ (takeDigits v h).2 := by
  induction h generalizing v with
  | nil => rfl
  | cons b h ih =>
    cases hb : isDigit b with
    | false => rw [takeDigits_cons_of_not_isDigit v hb]
    | true =>
      have hrange := isDigit_iff.mp hb
      rw [takeDigits_cons_of_isDigit v hb, ← ih (by omega), dec_append_digit hv (by omega), digit_of_isDigit hb,
        List.append_assoc, List.singleton_append]

theorem parseInt_of_isDigit {b : Byte} (hne : b ≠ 0x30#8) (h : isDigit b = true) (r : List Byte) :
    parseInt (b :: r) = some (takeDigits (b.toNat - 0x30) r) := by
  rw [parseInt, if_neg hne, if_pos h]

theorem eq_dec_append_of_parseInt {h r : List Byte} {v : Nat} (hp : parseInt h = some (v, r)) : h = dec v ++ r := by
  cases h with
  | nil => cases hp
  | cons b h =>
    by_cases hb : b = 0x30#8
    · subst hb
      cases hp
      rfl
    · cases hd : isDigit b with
      | false => simp [parseInt, hb, hd] at hp
      | true =>
        have hrange := isDigit_iff.mp hd
        have hpos : 0 < b.toNat - 0x30 := by bv_omega
        rw [parseInt_of_isDigit hb hd, Option.some_inj] at hp
        have hsplit := dec_append_takeDigits hpos h
        rwa [hp, dec_of_lt (by omega), digit_of_isDigit hd] at hsplit

/-- After the digits of a number that is not 0, the reader goes on with that number. -/
theorem parseInt_dec_append_of_pos {v : Nat} (hv : 0 < v) (r : List Byte) :
    parseInt (dec v ++ r) = some (takeDigits v r) := by
  induction v using decimal_induction generalizing r with
  | small v h =>
    have hval := digit_toNat h
    have hne : digit v ≠ 0x30#8 := fun h0 => by
      rw [h0] at hval
      change 0x30 = 0x30 + v at hval
      omega
    rw [dec_of_lt h, List.singleton_append, parseInt_of_isDigit hne (isDigit_digit h), hval, Nat.add_sub_cancel_left]
  | more v d hpos hd ih =>
    rw [dec_append_digit hpos hd, List.append_assoc, ih hpos, List.singleton_append,
      takeDigits_cons_of_isDigit v (isDigit_digit hd), digit_toNat hd, Nat.add_sub_cancel_left]

theorem parseInt_dec_append (v : Nat) {b : Byte} (h : isDigit b = false) (r : List Byte) :
    parseInt (dec v ++ b :: r) = some (v, b :: r) := by
  obtain rfl | hv := Nat.eq_zero_or_pos v
  · rfl
  · rw [parseInt_dec_append_of_pos hv, takeDigits_cons_of_not_isDigit v h]

/-! ### Entries -/

theorem txt_append_takeBits (h : List Byte) : h = txt (takeBits h).1 ++ (takeBits h).2 := by
  induction h with
  | nil => rfl
  | cons b h ih =>
    by_cases h0 : b = 0x30#8
    · rw [takeBits, if_pos h0, txt_cons, List.cons_append, ← ih, h0]
      rfl
    · by_cases h1 : b = 0x31#8
      · rw [takeBits, if_neg h0, if_pos h1, txt_cons, List.cons_append, ← ih, h1]
        rfl
      · rw [takeBits, if_neg h0, if_neg h1]
        rfl

theorem takeBits_txt_append (c : Bits) (r : List Byte) : takeBits (txt c ++ dquote :: r) = (c, dquote :: r) := by
  induction c with
  | nil => rfl
  | cons x c ih => cases x <;> simp [txt_cons, takeBits, ih]

theorem eq_entry_append_of_parseEntry {h r : List Byte} {e : Nat × Bits} (hp : parseEntry h = some (e, r)) :
    h = entry e.1 e.2 ++ r := by
  simp only [parseEntry, Option.bind_eq_bind, Option.bind_eq_some_iff, expect_eq_some, Option.some_inj, Prod.mk.injEq] at hp
  obtain ⟨h1, rfl, ⟨b, h2⟩, hint, h3, rfl, r, hbits, rfl, rfl⟩ := hp
  have htxt := txt_append_takeBits h3
  rw [hbits] at htxt
  rw [eq_dec_append_of_parseInt hint]
  nth_rw 1 [htxt]
  simp only [entry, List.append_assoc]

theorem parseEntry_entry_append (e : Nat × Bits) (r : List Byte) : parseEntry (entry e.1 e.2 ++ r) = some (e, r) := by
  have hint : parseInt (dec e.1 ++ dquote :: colon :: dquote :: (txt e.2 ++ dquote :: r)) = some (e.1, _) :=
    parseInt_dec_append e.1 (by decide) _
  simp [entry, parseEntry, expect, hint, takeBits_txt_append]

/-- An entry with a comma after it: the other entries follow. -/
theorem parseEntries_of_comma {h r r' : List Byte} {e : Nat × Bits} (he : parseEntry h = some (e, r))
    (hc : expect [comma] r = some r') (n : Nat) :
    parseEntries (n + 1) h = (parseEntries n r').map fun x => (e :: x.1, x.2) := by
  simp only [parseEntries, he, Option.bind_eq_bind, Option.bind_some, hc]
  cases parseEntries n r' <;> rfl

/-- An entry with no comma after it is the last. -/
theorem parseEntries_of_no_comma {h r : List Byte} {e : Nat × Bits} (he : parseEntry h = some (e, r))
    (hc : expect [comma] r = none) (n : Nat) : parseEntries (n + 1) h = some ([e], r) := by
  simp only [parseEntries, he, Option.bind_eq_bind, Option.bind_some, hc]

/-- `parseEntries` reads at least one entry, and takes off the text of those it reads. -/
theorem eq_entries_append_of_parseEntries {n : Nat} {h r : List Byte} {t : List (Nat × Bits)}
    (hp : parseEntries n h = some (t, r)) : t ≠ [] ∧ h = entries t ++ r := by
  induction n generalizing h t with
  | zero => cases hp
  | succ n ih =>
    cases he : parseEntry h with
    | none => simp [parseEntries, he] at hp
    | some x =>
      obtain ⟨e, r'⟩ := x
      have hh := eq_entry_append_of_parseEntry he
      cases hc : expect [comma] r' with
      | none =>
        rw [parseEntries_of_no_comma he hc] at hp
        cases hp
        exact ⟨by simp, hh⟩
      | some r'' =>
        rw [parseEntries_of_comma he hc, Option.map_eq_some_iff] at hp
        obtain ⟨⟨t, r⟩, hp, heq⟩ := hp
        cases heq
        obtain ⟨hne, hrest⟩ := ih hp
        refine ⟨by simp, ?_⟩
        rw [hh, expect_eq_some.mp hc, hrest, entries_cons_of_ne_nil e hne]
        simp only [List.append_assoc]

theorem parseEntries_entries_append {t : List (Nat × Bits)} (ht : t ≠ []) {n : Nat} (hn : t.length ≤ n) (r : List Byte) :
    parseEntries n (entries t ++ closeBrace :: r) = some (t, closeBrace :: r) := by
  induction t using entries_induction generalizing n with
  | nil => exact absurd rfl ht
  | last e =>
    obtain ⟨n, rfl⟩ := Nat.exists_eq_add_of_le' hn
    exact parseEntries_of_no_comma (parseEntry_entry_append e _) rfl n
  | more e t hne ih =>
    obtain ⟨n, rfl⟩ := Nat.exists_eq_add_of_le' hn
    rw [List.length_cons, ← Nat.add_assoc, entries_cons_of_ne_nil e hne, List.append_assoc, List.append_assoc,
      parseEntries_of_comma (parseEntry_entry_append e _) (expect_append [comma] _),
      ih hne (Nat.le_add_left _ _)]
    rfl

/-- A table that is not empty begins with a quotation mark. -/
theorem entries_eq_cons {t : List (Nat × Bits)} (ht : t ≠ []) : ∃ x, entries t = dquote :: x := by
  induction t using entries_induction with
  | nil => exact absurd rfl ht
  | last e => exact ⟨_, rfl⟩
  | more e t hne _ => exact ⟨_, entries_cons_of_ne_nil e hne⟩

theorem eq_entries_append_of_parseTable {h r : List Byte} {t : List (Nat × Bits)} (hp : parseTable h = some (t, r)) :
    h = entries t ++ r := by
  unfold parseTable at hp
  split at hp
  · cases hp
    rfl
  · exact (eq_entries_append_of_parseEntries hp).2

theorem parseTable_entries_append (t : List (Nat × Bits)) (r : List Byte) :
    parseTable (entries t ++ closeBrace :: r) = some (t, closeBrace :: r) := by
  by_cases hnil : t = []
  · subst hnil
    rfl
  · obtain ⟨x, hx⟩ := entries_eq_cons hnil
    have hopen : expect [closeBrace] (entries t ++ closeBrace :: r) = none := by rw [hx]; rfl
    have hfuel := length_le_entries_length t
    rw [parseTable, hopen]
    exact parseEntries_entries_append hnil (by rw [List.length_append]; omega) r

/-! ### The name -/

theorem hexValue_hexDigit {v : Nat} (h : v < 16) : hexValue (hexDigit v) = some v := by
  interval_cases v <;> rfl

theorem eq_hexDigit_of_hexValue {b : Byte} {v : Nat} (h : hexValue b = some v) : v < 16 ∧ b = hexDigit v := by
  unfold hexValue at h
  split at h
  · rename_i hd
    cases h
    have hrange := isDigit_iff.mp hd
    refine ⟨by omega, ?_⟩
    rw [hexDigit, if_pos (by omega), digit_of_isDigit hd]
  · split at h
    · rename_i hl
      cases h
      simp only [Bool.and_eq_true, decide_eq_true_eq] at hl
      refine ⟨by omega, BitVec.eq_of_toNat_eq ?_⟩
      rw [hexDigit, if_neg (by omega), BitVec.toNat_ofNat]
      omega
    · cases h

/-- The control byte with high digit `k` and low digit `v`. -/
theorem controlByte_toNat {k v : Nat} (hk : k < 2) (hv : v < 16) : (BitVec.ofNat 8 (16 * k + v)).toNat = 16 * k + v := by
  rw [BitVec.toNat_ofNat]
  omega

theorem hex2_of_digits {k v : Nat} (hk : k < 2) (hv : v < 16) : hex2 (16 * k + v) = [digit k, hexDigit v] := by
  rw [hex2, show (16 * k + v) / 16 = k by omega, show (16 * k + v) % 16 = v by omega, hexDigit, if_pos (by omega)]

/-- The high digit of a control byte, as the reader tests it. -/
theorem highDigit_iff {d : Byte} : (d == 0x30#8 || d == 0x31#8) = true ↔ ∃ k < 2, d = digit k := by
  simp only [Bool.or_eq_true, beq_iff_eq]
  constructor
  · rintro (rfl | rfl)
    · exact ⟨0, by decide, rfl⟩
    · exact ⟨1, by decide, rfl⟩
  · rintro ⟨k, hk, rfl⟩
    interval_cases k
    · exact .inl rfl
    · exact .inr rfl

theorem parseControl_of_digits {k v : Nat} (hk : k < 2) (hv : v < 16) (r : List Byte) :
    parseControl (asc ['u', '0', '0'] ++ [digit k, hexDigit v] ++ r) = some (BitVec.ofNat 8 (16 * k + v), r) := by
  have hval := digit_toNat (show k < 10 by omega)
  have hhigh := highDigit_iff.mpr ⟨k, hk, rfl⟩
  simp [parseControl, asc, hhigh, hval, hexValue_hexDigit hv]

theorem parseControl_hex2_append {x : Byte} (h : x.toNat < 0x20) (r : List Byte) :
    parseControl (asc ['u', '0', '0'] ++ hex2 x.toNat ++ r) = some (x, r) := by
  have hk : x.toNat / 16 < 2 := by omega
  have hv : x.toNat % 16 < 16 := by omega
  have hread := parseControl_of_digits hk hv r
  rw [← hex2_of_digits hk hv, Nat.div_add_mod, BitVec.ofNat_toNat, BitVec.setWidth_eq] at hread
  exact hread

theorem eq_hex2_append_of_parseControl {h r : List Byte} {x : Byte} (hp : parseControl h = some (x, r)) :
    x.toNat < 0x20 ∧ h = asc ['u', '0', '0'] ++ hex2 x.toNat ++ r := by
  unfold parseControl at hp
  split at hp
  · rename_i u z0 z1 d y r'
    split at hp
    · rename_i hok
      rw [Bool.and_eq_true, decide_eq_true_eq, highDigit_iff] at hok
      obtain ⟨htext, k, hk, rfl⟩ := hok
      rw [Option.map_eq_some_iff] at hp
      obtain ⟨v, hv, heq⟩ := hp
      obtain ⟨hlt, rfl⟩ := eq_hexDigit_of_hexValue hv
      rw [digit_toNat (by omega), Nat.add_sub_cancel_left] at heq
      cases heq
      rw [controlByte_toNat hk hlt, hex2_of_digits hk hlt, ← htext]
      exact ⟨by omega, rfl⟩
    · cases hp
  · cases hp

theorem parseNchar_esc1_append (x : Byte) (r : List Byte) : parseNchar (esc1 x ++ r) = some (x, r) := by
  induction x using nameByte_cases with
  | quote => rfl
  | slash => rfl
  | control x h =>
    have hslash : parseNchar (backslash :: (asc ['u', '0', '0'] ++ hex2 x.toNat ++ r)) =
        parseControl (asc ['u', '0', '0'] ++ hex2 x.toNat ++ r) := rfl
    rw [esc1_control h, List.cons_append, hslash, parseControl_hex2_append h]
  | plain x h => simp [esc1_plain h, parseNchar, h]

theorem eq_esc1_append_of_parseNchar {h r : List Byte} {x : Byte} (hp : parseNchar h = some (x, r)) :
    h = esc1 x ++ r := by
  unfold parseNchar at hp
  split at hp
  · cases hp
  · split at hp
    · rename_i hplain
      cases hp
      rw [esc1_plain hplain, List.singleton_append]
    · split at hp
      · rename_i hb
        subst hb
        split at hp
        · cases hp
        · split at hp
          · rename_i hy
            rw [Bool.or_eq_true, decide_eq_true_eq, decide_eq_true_eq] at hy
            cases hp
            rcases hy with rfl | rfl <;> rfl
          · obtain ⟨hlt, hctl⟩ := eq_hex2_append_of_parseControl hp
            rw [hctl, esc1_control hlt, List.cons_append]
      · cases hp

theorem eq_esc_append_of_parseName {n : Nat} {h nm r : List Byte} (hp : parseName n h = some (nm, r)) :
    h = esc nm ++ r := by
  induction n generalizing h nm with
  | zero =>
    cases hp
    rfl
  | succ n ih =>
    unfold parseName at hp
    split at hp
    · rename_i x r' hx
      rw [Option.map_eq_some_iff] at hp
      obtain ⟨⟨nm, r⟩, hp, heq⟩ := hp
      cases heq
      rw [eq_esc1_append_of_parseNchar hx, ih hp, esc_cons, List.append_assoc]
    · cases hp
      rfl

theorem parseName_esc_append {nm : List Byte} {n : Nat} (hn : nm.length ≤ n) (r : List Byte) :
    parseName n (esc nm ++ dquote :: r) = some (nm, dquote :: r) := by
  induction nm generalizing n with
  | nil => cases n <;> rfl
  | cons x nm ih =>
    obtain ⟨n, rfl⟩ := Nat.exists_eq_add_of_le' hn
    simp only [esc_cons, List.append_assoc, List.length_cons, ← Nat.add_assoc, parseName, parseNchar_esc1_append,
      ih (Nat.le_add_left _ _), Option.map_some]

/-! ### The header -/

theorem keysOk_iff {t : List (Nat × Bits)} :
    keysOk t = true ↔ (∀ e ∈ t, e.1 ≤ 255) ∧ (t.map Prod.fst).Nodup := by
  simp [keysOk]

/-- R95: what is accepted is a header text with admissible keys. -/
theorem eq_serHeader_of_parseHeader {h : List Byte} {hd : Header} (hp : parseHeader h = some hd) :
    h = serHeader hd.padding hd.codes hd.name ∧ keysOk hd.codes = true := by
  unfold parseHeader at hp
  simp only [Option.bind_eq_bind, Option.bind_eq_some_iff, expect_eq_some] at hp
  obtain ⟨r1, rfl, ⟨v, r2⟩, hv, r3, rfl, ⟨t, r4⟩, ht, r5, rfl, ⟨nm, r6⟩, hnm, r7, rfl, hp⟩ := hp
  split at hp
  · rename_i hok
    rw [Bool.and_eq_true, decide_eq_true_eq] at hok
    obtain ⟨rfl, hkeys⟩ := hok
    cases hp
    refine ⟨?_, hkeys⟩
    rw [eq_dec_append_of_parseInt hv, eq_entries_append_of_parseTable ht, eq_esc_append_of_parseName hnm]
    simp only [serHeader, List.append_assoc, List.append_nil]
  · cases hp

/-- R96: a header text with admissible keys is read back. -/
theorem parseHeader_serHeader (p : Nat) {t : List (Nat × Bits)} (ht : keysOk t = true) (nm : List Byte) :
    parseHeader (serHeader p t nm) = some ⟨p, t, nm⟩ := by
  have hint (r : List Byte) : parseInt (dec p ++ (textCodes ++ r)) = some (p, textCodes ++ r) :=
    parseInt_dec_append p (by decide) _
  have htable (r : List Byte) : parseTable (entries t ++ (textName ++ r)) = some (t, textName ++ r) :=
    parseTable_entries_append t _
  have hname : parseName (esc nm ++ textEnd).length (esc nm ++ textEnd) = some (nm, textEnd) := by
    refine parseName_esc_append ?_ _
    have hfuel := (esc_length_bounds nm).1
    rw [List.length_append]
    omega
  have hend : expect textEnd textEnd = some [] := rfl
  simp only [serHeader, List.append_assoc, parseHeader, Option.bind_eq_bind, expect_append, Option.bind_some, hint, htable,
    hname, hend, ht]
  rfl

/-- Settles O36: the parser accepts header texts only, and reads each one back. -/
theorem parserAcceptsExactlyTheHeaders : Obligations.ParserAcceptsExactlyTheHeaders := fun h hd => by
  rw [← keysOk_iff]
  constructor
  · exact eq_serHeader_of_parseHeader
  · rintro ⟨rfl, hkeys⟩
    exact parseHeader_serHeader hd.padding hkeys hd.name

end Sys2Proof.Machine

/-!
PROOFS. The STAGE each command needs, SRESET, the issue of a command and the core's step (spec/40_control.md).
-/

namespace Sys2Proof.Machine

/-! ### The sequencing table (R113) -/

/-- A stage command is legal at exactly the STAGE it needs. -/
theorem legalAt_iff_of_needs {i : Instr} {g h : Stage} (hn : needs i = some g) : legalAt i h = true ↔ h = g := by
  rw [legalAt, hn]
  exact beq_iff_eq.trans eq_comm

/-- Settles O4: the start commands and SRESET need no STAGE, each other command needs one. -/
theorem stagesCommandsNeed : Obligations.StagesCommandsNeed :=
  ⟨fun _ => ⟨rfl, rfl, rfl, rfl, rfl⟩, fun _ => legalAt_iff_of_needs rfl, fun _ => legalAt_iff_of_needs rfl,
    fun _ => legalAt_iff_of_needs rfl, fun _ => legalAt_iff_of_needs rfl, fun _ => legalAt_iff_of_needs rfl,
    fun _ => legalAt_iff_of_needs rfl, fun _ => legalAt_iff_of_needs rfl, fun _ => legalAt_iff_of_needs rfl,
    fun _ => legalAt_iff_of_needs rfl⟩

/-! ### The core's step (R111) -/

/-- The low byte of a command's encoding is its opcode (R80). -/
theorem encode_extractLsb' (i : Instr) : (encode i).extractLsb' 0 8 = opcode i := by cases i <;> rfl

/-- PEND holds the opcode of a command (R110): it decodes to the command. -/
theorem pendingInstr_of_opcode {s : State} {i : Instr} (h : s.pend = opcode i) : pendingInstr s = .ok i := by
  rw [pendingInstr, h, ← encode_eq_setWidth, decode_encode]

theorem coreTurn_iff {s : State} : coreTurn s = true ↔ s.busy = true ∧ (hostWaits s = true ∨ s.delay = 0) := by
  simp [coreTurn]

/-- When the core's step is next, it runs the pending command. -/
theorem step_of_coreTurn {s : State} {i : Instr} (hc : coreTurn s = true) (hp : pendingInstr s = .ok i) :
    step s = exec i s :=
  step_eq_of_run (by simp [turn, hc, hp])

theorem tableWord_toNat (w : Word) : tableWord 32 w.toNat = some w := by
  rw [tableWord, if_pos ⟨le_refl 32, w.isLt⟩, BitVec.ofNat_toNat, BitVec.setWidth_eq]

/-- Placing a command's word makes the core's step next. -/
theorem withFetchWord_encode (s : State) (i : Instr) :
    s.withFetchWord 32 (encode i).toNat = { s with busy := true, pend := opcode i, delay := 0 } := by
  simp only [State.withFetchWord, tableWord_toNat, placeCommand, decode_encode, encode_extractLsb']

/-- Settles O3: PEND decodes to the command, and a placed word is accepted with no delay. -/
theorem coreStepRunsPendingCommand : Obligations.CoreStepRunsPendingCommand := by
  have hstep : ∀ (s : State) (i : Instr), s.busy = true → (hostWaits s = true ∨ s.delay = 0) → s.pend = opcode i →
      step s = exec i s := fun s i hb hd hp =>
    step_of_coreTurn (coreTurn_iff.mpr ⟨hb, hd⟩) (pendingInstr_of_opcode hp)
  refine ⟨hstep, fun s i => ?_⟩
  rw [withFetchWord_encode]
  exact hstep _ i rfl (.inr rfl) rfl

/-! ### The host's write to CMD (R110, R115) -/

/-- A write to CMD, when the host's move is next, is the issue of its word. -/
theorem turn_cmdWrite {s : State} {w : Word} {rest : List HostMove} (hh : s.host = .regWrite .word 0 w :: rest)
    (hd : s.busy = true → s.delay ≠ 0) : turn s = issue w (hostTook rest s) :=
  turn_eq_hostMove hh fun hb => ⟨hd hb, nofun⟩

/-- An idle core accepts a command that is legal at its STAGE (R110). -/
theorem issue_of_legal {s : State} {i : Instr} (hidle : idle s = true) (hi : i ≠ .sreset)
    (hl : legalAt i s.stage = true) : issue (encode i) s = .done (.next (accept (encode i) s)) := by
  obtain ⟨hb, hf⟩ := idle_iff.mp hidle
  have hw : encode i ≠ 0x00000001#32 := by
    revert hi
    cases i <;> decide
  simp [issue, hw, hb, hf, decode_encode, hl]

/-- Settles O5: acceptance sets BUSY and PEND and draws a delay. -/
theorem legalCommandIsAccepted : Obligations.LegalCommandIsAccepted := by
  intro s i rest hb hf hh hi hl
  have hidle : idle (hostTook rest s) = true := idle_iff.mpr ⟨hb, hf⟩
  refine ⟨Config.freeDelay s.draws, s.draws + 1, ?_⟩
  rw [step_eq_of_done ((turn_cmdWrite hh (by simp [hb])).trans (issue_of_legal hidle hi hl)), accept,
    encode_extractLsb']
  rfl

/-- SRESET is run in the step of its write, whatever the flags are (R115). -/
theorem issue_sreset (s : State) : issue 0x00000001#32 s = .run .sreset s := if_pos rfl

/-- Settles O8: the write runs SRESET, which is the reset operation. -/
theorem sresetWriteResets : Obligations.SresetWriteResets := fun s rest hh hd =>
  ⟨hardReset (hostTook rest s), step_eq_of_run ((turn_cmdWrite hh hd).trans (issue_sreset _)),
    hardReset_resetValues _, rfl, rfl, rfl⟩

/-- Settles O9: SRESET is the reset operation, which keeps the capacities and the host. -/
theorem sresetCompletes : Obligations.SresetCompletes := fun s =>
  ⟨hardReset s, exec_sreset s, hardReset_resetValues s, rfl, rfl, rfl⟩

end Sys2Proof.Machine

/-!
PROOFS. No command stops the model: in a legal state each stage ends well or raises an error of the spec (R117, R246).
-/

namespace Sys2Proof.Machine

/-! ### Computations that do not stop the model -/

/-- A computation that ends well or raises an error of the spec: it is not stuck. -/
def NotStuck {α : Type} (r : Except Stop α) : Prop := ∀ f, r ≠ .error (.stuck f)

theorem NotStuck.ok {α : Type} (x : α) : NotStuck (.ok x : Except Stop α) := fun _ => nofun

theorem NotStuck.raise {α : Type} (e : Err) : NotStuck (.error (.raise e) : Except Stop α) := fun _ => nofun

theorem NotStuck.of_exists {α : Type} {r : Except Stop α} (h : ∃ x, r = .ok x) : NotStuck r := by
  obtain ⟨x, rfl⟩ := h
  exact .ok x

theorem NotStuck.bind {α β : Type} {r : Except Stop α} {f : α → Except Stop β} (h : NotStuck r)
    (hf : ∀ x, r = .ok x → NotStuck (f x)) : NotStuck (r >>= f) := by
  cases r with
  | ok x => exact hf x rfl
  | error e => exact fun g he => h g (by rw [Except.error.inj he])

/-- A chain that begins with a computation known to end well. -/
theorem NotStuck.bind_ok {α β : Type} {r : Except Stop α} {f : α → Except Stop β} {x : α} (h : r = .ok x)
    (hf : NotStuck (f x)) : NotStuck (r >>= f) := by
  subst h
  exact hf

/-- A command whose pseudocode is not stuck has a next state: completion or fault entry. -/
theorem exists_next_of_notStuck {i : Instr} (hi : i ≠ .sreset) {s : State} (h : NotStuck (bodyOf i s)) :
    ∃ t, exec i s = .next t := by
  rw [exec_eq_runCommand hi, runCommand]
  split
  · cases hb : bodyOf i s with
    | ok t => exact ⟨complete t, rfl⟩
    | error e =>
      cases e with
      | raise e => exact ⟨faultEntry e s, rfl⟩
      | stuck f => exact absurd hb (h f)
  · exact ⟨_, rfl⟩

/-- What every command relies on: capacities that meet R9, and memory, arrays and registers in form and range. -/
structure Sound (s : State) : Prop where
  cfg : s.cfg.ok
  data : DataWf s

theorem Sound.bodyOf {i : Instr} {s t : State} (hs : Sound s) (h : bodyOf i s = .ok t) : Sound t :=
  ⟨(bodyOf_fixed h).1 ▸ hs.cfg, bodyOf_dataWf h hs.data⟩

/-- Every buffer can be read (R29). -/
theorem Sound.load {s : State} (hs : Sound s) (b : BufId) : loadBuffer s b = .ok (s.bytes b) :=
  loadBuffer_of_fits (lengthsFit_iff.mp hs.data.lengths b)

/-! ### The compress chain up to the tree (R130 to R145) -/

theorem runFreq_ok {s : State} (hs : Sound s) : ∃ t, runFreq s = .ok t :=
  ⟨_, runFreq_eq_ok.mpr ⟨hs.data.lengths.1, rfl⟩⟩

theorem exists_minLive_of_sum_pos {m : Sparse Node} (h : 0 < Sparse.sum liveWeight m) :
    ∃ i n, minLive m = some (i, n) := by
  induction m with
  | nil => cases h
  | cons e m ih =>
    obtain ⟨k, n⟩ := e
    rw [minLive]
    by_cases hlive : n.live = true
    · rw [if_pos hlive]
      split
      · split
        · exact ⟨_, _, rfl⟩
        · exact ⟨_, _, rfl⟩
      · exact ⟨_, _, rfl⟩
    · rw [if_neg hlive]
      refine ih ?_
      rwa [Sparse.sum_cons, liveWeight, if_neg hlive, Nat.zero_add] at h

/-- An extraction takes one node out of the queue. -/
theorem sum_liveWeight_extract {m : Sparse Node} (hm : Sparse.wf m) {i : Nat} {n : Node} (h : minLive m = some (i, n)) :
    Sparse.sum liveWeight (Sparse.put m i { n with live := false }) + 1 = Sparse.sum liveWeight m := by
  obtain ⟨hmem, hlive⟩ := minLive_mem h
  have hsum := Sparse.sum_put_old (w := liveWeight) hm (v := { n with live := false })
    ((Sparse.mem_iff_get hm).mp hmem)
  simpa [liveWeight, hlive] using hsum

/-- At C_QUEUE there are two nodes to merge and an identifier for the new one, so TMERGE ends well (R142, R144). -/
theorem runTmerge_ok {s : State} (hs : Sound s) (hq : s.stage = .cQueue) (hm : s.StageMeaning) :
    ∃ t, runTmerge s = .ok t := by
  rw [State.StageMeaning, hq] at hm
  obtain ⟨-, ⟨-, -, -, -, ⟨hcount, hocc, -⟩, -⟩, htwo, -, -⟩ := hm
  rw [live_length] at hcount
  have hwf := hs.data.node_wf
  obtain ⟨a, na, ha⟩ := exists_minLive_of_sum_pos (m := s.node) (by omega)
  have hleft := sum_liveWeight_extract hwf ha
  obtain ⟨b, nb, hb⟩ := exists_minLive_of_sum_pos (m := Sparse.put s.node a { na with live := false }) (by omega)
  have hlen := occurring_length_le s
  exact ⟨_, runTmerge_eq_ok.mpr ⟨a, na, b, nb, ha, hb, by omega, rfl⟩⟩

/-- Each round takes a node off the queue, so `n` rounds are enough for `n + 1` nodes (R144). -/
theorem mergeLoop_ok {n : Nat} {s : State} (hs : Sound s) (hm : s.StageMeaning) (hn : s.nlive ≤ n + 1) :
    ∃ t, mergeLoop n s = .ok t := by
  induction n generalizing s with
  | zero =>
    have hq : s.stage ≠ .cQueue := fun hq => by
      rw [State.StageMeaning, hq] at hm
      obtain ⟨-, -, htwo, -⟩ := hm
      omega
    exact ⟨s, if_neg hq⟩
  | succ n ih =>
    rw [mergeLoop]
    split
    · rename_i hq
      obtain ⟨u, hu⟩ := runTmerge_ok hs hq hm
      have hnlive : u.nlive = s.nlive - 1 := by
        obtain ⟨_, _, _, _, -, -, -, rfl⟩ := runTmerge_eq_ok.mp hu
        rfl
      obtain ⟨t, ht⟩ := ih (hs.bodyOf (i := .tmerge) hu) (runTmerge_meaning hu hs.data.node_wf hq hm).2 (by omega)
      exact ⟨t, bind_eq_ok.mpr ⟨u, hu, ht⟩⟩
    · exact ⟨s, rfl⟩

theorem runTbuild_ok {s : State} (hs : Sound s) (hh : s.Histogram) : ∃ t, runTbuild s = .ok t := by
  obtain ⟨u, hu⟩ := runTinit_ok s
  have hsu := hs.bodyOf (i := .tinit) hu
  obtain ⟨-, -, -, hnlive⟩ := hsu.data.scalars
  obtain ⟨t, ht⟩ := mergeLoop_ok (n := 255) hsu (runTinit_meaning hu hh).2 hnlive
  exact ⟨t, bind_eq_ok.mpr ⟨u, hu, ht⟩⟩

/-! ### ASSIGN (R160, R161) -/

/-- The walk ends well: identifiers fall on the way down, and the internal nodes are 256 to 510 (R161). -/
theorem walk_ok {s : State} (hf : s.Forest) {depth i : Nat} {n : Node} (hn : s.nodeAt i = some n) (hpos : 0 < depth)
    (hi : i ≤ depth + 254) (p : Bits) (ct : Sparse Bits) : ∃ ct', walk s.node depth i p ct = .ok ct' := by
  induction depth generalizing i n p ct with
  | zero => exact absurd hpos (lt_irrefl 0)
  | succ depth ih =>
    have hget : Sparse.get s.node i = some n := hn
    simp only [walk, hget]
    split
    · exact ⟨_, rfl⟩
    · rename_i hleaf
      obtain ⟨-, hleaves, hinternal, -⟩ := id hf
      have hge : ¬ i < 256 := mt (hleaves i n hn).1.mpr hleaf
      obtain ⟨-, hlt, hrt, l, r, hl, hr, -⟩ := hinternal i n hn (by simpa using hleaf)
      obtain ⟨u, hu⟩ := ih hl (by omega) (by omega) (p ++ [false]) ct
      obtain ⟨v, hv⟩ := ih hr (by omega) (by omega) (p ++ [true]) u
      exact ⟨v, except_bind_eq_ok.mpr ⟨u, hu, hv⟩⟩

theorem assignCodes_ok {s : State} (hs : Sound s) (hf : s.Forest) (ht : s.TreeBuilt) : ∃ ct, assignCodes s = .ok ct := by
  unfold assignCodes
  split
  · rename_i hroot
    obtain ⟨-, -, hlive, -⟩ := ht
    have hmem : s.root.toNat ∈ s.live := by rw [hlive hroot]; exact List.mem_singleton_self _
    obtain ⟨⟨i, n⟩, he, hi⟩ := List.mem_map.mp hmem
    have hn : s.nodeAt s.root.toNat = some n :=
      hi ▸ (Sparse.mem_iff_get hs.data.node_wf).mp (List.mem_of_mem_filter he)
    obtain ⟨-, -, hnext, -⟩ := hs.data.scalars
    have hlt := lt_next_of_valid hf hn
    simp only [hn]
    split
    · exact ⟨_, rfl⟩
    · exact walk_ok hf hn (by decide) (by omega) [] []
  · exact ⟨[], rfl⟩

theorem runAssign_ok {s : State} (hs : Sound s) (hg : s.stage = .cTree) (hm : s.StageMeaning) :
    ∃ t, runAssign s = .ok t := by
  rw [State.StageMeaning, hg] at hm
  obtain ⟨-, hforest, htree⟩ := hm
  obtain ⟨ct, hct⟩ := assignCodes_ok hs hforest htree
  exact ⟨_, runAssign_eq_ok.mpr ⟨ct, hct, rfl⟩⟩

/-! ### The packed payload fits PBUF (R171, R176) -/

/-- The packer has stored eight bits in each byte and holds fewer than eight (R170). -/
def Packer.Counted (p : Packer) : Prop := p.nbits = 8 * p.stored.length + p.nacc ∧ p.nacc < 8

theorem Packer.Counted.push {p : Packer} (h : p.Counted) (x : Bool) : (p.push x).Counted := by
  obtain ⟨hbits, hacc⟩ := h
  unfold Packer.push
  dsimp only
  split
  · exact ⟨by simp only [List.length_cons]; omega, Nat.zero_lt_succ 7⟩
  · exact ⟨by dsimp only; omega, by dsimp only; omega⟩

theorem Packer.Counted.pushAll {p : Packer} (h : p.Counted) (x : Bits) : (p.pushAll x).Counted := by
  induction x generalizing p with
  | nil => exact h
  | cons a x ih => exact ih (h.push a)

theorem Packer.Counted.flushed_length {p : Packer} (h : p.Counted) : p.flushed.length = (p.nbits + 7) / 8 := by
  obtain ⟨hbits, hacc⟩ := h
  rw [Packer.flushed, List.length_reverse]
  split
  · rw [List.length_cons]; omega
  · omega

/-- `pack` makes as few bytes as hold the bits (R171). -/
theorem pack_length (x : Bits) : (pack x).1.length = (x.length + 7) / 8 := by
  have hstart : Packer.start.Counted := ⟨rfl, by decide⟩
  have hbits : (Packer.start.pushAll x).nbits = x.length := (pushAll_nbits _ _).trans (Nat.zero_add _)
  rw [pack, (hstart.pushAll x).flushed_length, hbits]

/-- A code has at most 255 bits (R28). -/
theorem encodedBits_length_le {s : State} (h : CodesFit s.ct) (x : List Byte) :
    (s.encodedBits x).length ≤ 255 * x.length := by
  have hcode (b : Byte) : ((s.codeAt b.toNat).getD []).length ≤ 255 := by
    cases hc : s.codeAt b.toNat with
    | none => exact Nat.zero_le _
    | some c => exact (h.2 _ (Sparse.mem_of_get hc)).2
  induction x with
  | nil => exact Nat.le_refl 0
  | cons b x ih =>
    have hb := hcode b
    have hcons : s.encodedBits (b :: x) = (s.codeAt b.toNat).getD [] ++ s.encodedBits x := rfl
    rw [hcons, List.length_append, List.length_cons]
    omega

/-- The payload of the data has at most 32 bytes for each data byte (R176). -/
theorem pack_data_length_le {s : State} (hs : Sound s) : (pack (s.encodedBits s.data)).1.length ≤ 32 * s.cfg.dMax := by
  obtain ⟨-, -, hct⟩ := arraysWf_iff.mp hs.data.arrays
  have hbits := encodedBits_length_le hct s.data
  have hdata : s.data.length = s.dlen := bytes_length s .dbuf
  have hfit : s.dlen ≤ s.cfg.dMax := hs.data.lengths.1
  rw [pack_length]
  omega

theorem pushCodes_notStuck (ct : Sparse Bits) (p : Packer) (x : List Byte) : NotStuck (pushCodes ct p x) := by
  induction x generalizing p with
  | nil => exact .ok p
  | cons b x ih =>
    rw [pushCodes]
    split
    · exact ih _
    · exact .raise _

theorem runEncode_notStuck {s : State} (hs : Sound s) : NotStuck (runEncode s) := by
  refine .bind_ok (hs.load .dbuf) (.bind (pushCodes_notStuck _ _ _) fun p hp => ?_)
  have hpack : p.flushed = (pack (s.encodedBits s.data)).1 := by rw [pushCodes_eq_ok hp]; rfl
  have hlen := pack_data_length_le hs
  obtain ⟨-, -, -, hcap, -⟩ := hs.cfg
  have hfit : p.flushed.length ≤ capacity s.cfg .pbuf := by
    change p.flushed.length ≤ s.cfg.cMax
    rw [hpack]
    omega
  exact .bind_ok (storeBuffer_of_fits hfit) (.ok _)

/-! ### The container fits CBUF (R98, R193) -/

theorem pack_padding_le (x : Bits) : (pack x).2 ≤ 7 := Nat.le_of_lt_succ (Nat.mod_lt _ (by decide))

/-- The header of a packed payload keeps within HDR_MAX (R98). -/
theorem serHeader_length_le {s : State} (hs : Sound s) (hp : s.padding ≤ 7) :
    (serHeader s.padding s.table s.name).length ≤ s.cfg.hdrMax := by
  obtain ⟨-, -, hct⟩ := arraysWf_iff.mp hs.data.arrays
  obtain ⟨-, hname, -, -⟩ := hs.data.lengths
  obtain ⟨-, -, -, hbound⟩ := headerLength s.padding s.table s.name hp
  have hentries : s.table.length ≤ 256 := by
    simpa [State.table, Sparse.tabulate] using List.length_filterMap_le _ (List.range 256)
  have hcodes : ∀ e ∈ s.table, e.1 ≤ 255 ∧ e.2.length ≤ 255 := fun e he => by
    obtain ⟨hb, hc⟩ := mem_table.mp he
    exact ⟨Nat.le_of_lt_succ hb, (hct.2 _ (Sparse.mem_of_get hc)).2⟩
  have hlen : s.name.length = s.nlen := bytes_length s .nbuf
  have := hbound hentries hcodes
  rw [Config.hdrMax]
  omega

theorem runSerialize_ok {s : State} (hs : Sound s) (hg : s.stage = .cPacked) (hm : s.StageMeaning) :
    ∃ t, runSerialize s = .ok t := by
  rw [State.StageMeaning, hg] at hm
  obtain ⟨-, -, hpacked, -⟩ := hm
  obtain ⟨hpayload, hpadding⟩ := Prod.mk.inj hpacked
  have hheader := serHeader_length_le hs (hpadding ▸ pack_padding_le _)
  have hpay : s.payload.length ≤ 32 * s.cfg.dMax := hpayload ▸ pack_data_length_le hs
  obtain ⟨-, -, -, hcap, -⟩ := hs.cfg
  obtain ⟨-, hname, -, hplen⟩ := hs.data.lengths
  refine ⟨_, runSerialize_eq_ok.mpr ⟨hname, hplen, ?_, rfl⟩⟩
  simp only [containerOf, List.length_append, List.length_singleton]
  omega

/-! ### The decompress chain (R195, R211, R178, R214) -/

/-- A container is split into the two parts around its first zero byte (R194). -/
theorem eq_containerOf_of_splitContainer {c h p : List Byte} (hc : splitContainer c = some (h, p)) :
    c = containerOf h p := by
  induction c generalizing h with
  | nil => cases hc
  | cons x c ih =>
    rw [splitContainer] at hc
    split at hc
    · rename_i hx
      cases hc
      exact hx ▸ rfl
    · obtain ⟨⟨h', p'⟩, hsplit, he⟩ := Option.map_eq_some_iff.mp hc
      cases he
      exact congrArg _ (ih hsplit)

theorem runParse_notStuck {s : State} (hs : Sound s) : NotStuck (runParse s) := by
  refine .bind_ok (hs.load .cbuf) ?_
  split
  · exact .raise _
  rename_i h payload hsplit
  split
  · exact .raise _
  rename_i hd _
  split
  · exact .raise _
  split
  · exact .raise _
  rename_i hname
  have hpayload : payload.length ≤ s.cfg.cMax := by
    obtain ⟨-, -, hclen, -⟩ := hs.data.lengths
    have hlen : s.clen = _ := (bytes_length s .cbuf).symm.trans
      (congrArg List.length (eq_containerOf_of_splitContainer hsplit))
    simp only [containerOf, List.length_append] at hlen
    omega
  exact .bind_ok (storeBuffer_of_fits (b := .nbuf) (not_lt.mp hname))
    (.bind_ok (storeBuffer_of_fits (b := .pbuf) (by rw [stored_cfg]; exact hpayload)) (.ok _))

theorem runChktab_notStuck (s : State) : NotStuck (runChktab s) := by
  unfold runChktab
  split
  · exact .ok _
  · exact .raise _

theorem runUnpack_notStuck (s : State) : NotStuck (runUnpack s) := by
  unfold runUnpack
  split
  · exact .raise _
  · split
    · exact .raise _
    · exact .ok _

theorem decodeLoop_notStuck (t : List (Nat × Bits)) (dMax : Nat) (bits cand : Bits) (dlen : Nat) (out : List Byte) :
    NotStuck (decodeLoop t dMax bits cand dlen out) := by
  induction bits generalizing cand dlen out with
  | nil =>
    rw [decodeLoop]
    split
    · exact .ok _
    · exact .raise _
  | cons x bits ih =>
    rw [decodeLoop]
    split
    · split
      · exact .raise _
      · exact ih _ _ _
    · exact ih _ _ _

/-- DECODE stops at D_MAX bytes (R214). -/
theorem decodeLoop_length_le {t : List (Nat × Bits)} {dMax : Nat} {bits cand : Bits} {out x : List Byte}
    (h : decodeLoop t dMax bits cand out.length out = .ok x) (hout : out.length ≤ dMax) : x.length ≤ dMax := by
  induction bits generalizing cand out with
  | nil =>
    rw [decodeLoop] at h
    split at h
    · cases h
      rwa [List.length_reverse]
    · cases h
  | cons a bits ih =>
    rw [decodeLoop] at h
    split at h
    · split at h
      · cases h
      · exact ih (out := _ :: out) h (by rw [List.length_cons]; omega)
    · exact ih h hout

theorem runDecode_notStuck {s : State} (hs : Sound s) (hg : s.stage = .dUnpacked) (hm : s.StageMeaning) :
    NotStuck (runDecode s) := by
  rw [State.StageMeaning, hg] at hm
  obtain ⟨-, -, -, -, hnbits⟩ := hm
  refine .bind_ok (hs.load .pbuf) ?_
  rw [if_pos (by omega)]
  refine .bind (decodeLoop_notStuck _ _ _ _ _ _) fun x hx => ?_
  have hfit : x.length ≤ capacity s.cfg .dbuf := decodeLoop_length_le (out := []) hx (Nat.zero_le _)
  exact .bind_ok (storeBuffer_of_fits hfit) (.ok _)

/-! ### The composite commands (R216, R218) -/

theorem runCompress_notStuck {s : State} (hs : Sound s) : NotStuck (runCompress s) := by
  obtain ⟨a, ha⟩ := runFreq_ok hs
  have hsa := hs.bodyOf (i := .freq) ha
  obtain ⟨b, hb⟩ := runTbuild_ok hsa (runFreq_histogram ha)
  have hsb := hsa.bodyOf (i := .tbuild) hb
  obtain ⟨hbg, hbm⟩ := runTbuild_meaning hb hsa.data (runFreq_histogram ha)
  obtain ⟨c, hc⟩ := runAssign_ok hsb hbg hbm
  have hsc := hsb.bodyOf (i := .assign) hc
  obtain ⟨hcg, hcm⟩ := runAssign_meaning hc hbg hbm
  have hchain : runFreq s >>= runTbuild >>= runAssign = .ok c :=
    bind_eq_ok.mpr ⟨b, bind_eq_ok.mpr ⟨a, ha, hb⟩, hc⟩
  refine .bind (.bind_ok hchain (runEncode_notStuck hsc)) fun d hd => ?_
  have hd : runEncode c = .ok d := by rwa [hchain] at hd
  obtain ⟨hdg, hdm⟩ := runEncode_meaning hd hcg hcm
  exact .of_exists (runSerialize_ok (hsc.bodyOf (i := .encode) hd) hdg hdm)

theorem runDecompress_notStuck {s : State} (hs : Sound s) : NotStuck (runDecompress s) := by
  refine .bind (.bind (.bind (runParse_notStuck hs) fun a _ => runChktab_notStuck a)
    fun b _ => runUnpack_notStuck b) fun c hc => ?_
  obtain ⟨b, hb, hc⟩ := bind_eq_ok.mp hc
  obtain ⟨a, ha, hb⟩ := bind_eq_ok.mp hb
  have hsc := ((hs.bodyOf (i := .parse) ha).bodyOf (i := .chktab) hb).bodyOf (i := .unpack) hc
  obtain ⟨hag, ham⟩ := runParse_meaning ha
  obtain ⟨hbg, hbm⟩ := runChktab_meaning hb hag ham
  obtain ⟨hcg, hcm⟩ := runUnpack_meaning hc hbg hbm
  exact runDecode_notStuck hsc hcg hcm

/-- No command that is legal at its STAGE is stuck. -/
theorem bodyOf_notStuck {i : Instr} {s : State} (hs : Sound s) (hl : legalAt i s.stage = true) (hm : s.StageMeaning) :
    NotStuck (bodyOf i s) := by
  cases i with
  | sreset => exact .ok s
  | compress => exact runCompress_notStuck hs
  | freq => exact .of_exists (runFreq_ok hs)
  | tinit => exact .of_exists (runTinit_ok s)
  | tmerge => exact .of_exists (runTmerge_ok hs (stage_of_legalAt rfl hl) hm)
  | tbuild => exact .of_exists (runTbuild_ok hs (histogram_of_cFreq (stage_of_legalAt rfl hl) hm))
  | assign => exact .of_exists (runAssign_ok hs (stage_of_legalAt rfl hl) hm)
  | encode => exact runEncode_notStuck hs
  | serialize => exact .of_exists (runSerialize_ok hs (stage_of_legalAt rfl hl) hm)
  | decompress => exact runDecompress_notStuck hs
  | parse => exact runParse_notStuck hs
  | chktab => exact runChktab_notStuck s
  | unpack => exact runUnpack_notStuck s
  | decode => exact runDecode_notStuck hs (stage_of_legalAt rfl hl) hm

end Sys2Proof.Machine

/-!
PROOFS. A safe machine has a step, and the step leaves it safe.
-/

namespace Sys2Proof.Machine

/-! ### A step leaves the host only moves it had before (R32, R70) -/

/-- An unfaulted core's command keeps what only the platform and the host own (R32). -/
theorem exec_outsideKept {i : Instr} {s t : State} (hf : s.fault = false) (h : exec i s = .next t) :
    OutsideKept s t := by
  have hkind : i = .sreset ∨ i ∈ [Instr.freq, .tinit, .tmerge, .tbuild, .assign, .chktab, .unpack] ∨
      i ∈ [Instr.encode, .serialize, .parse, .decode, .compress, .decompress] := by cases i <;> decide
  cases htf : t.fault with
  | false =>
    rcases hkind with rfl | hi | hi
    · cases h
      exact ⟨rfl, rfl, rfl⟩
    · rw [(commandsThatStoreNothing i s t hi h htf).2]
      exact ⟨rfl, rfl, rfl⟩
    · rw [(commandsThatStore i s t hi h htf).2]
      exact ⟨rfl, rfl, rfl⟩
  | true =>
    have hi : i ≠ .sreset := by
      rintro rfl
      cases h
      cases htf
    rw [exec_eq_runCommand hi] at h
    rcases runCommand_next h with ⟨-, u, hu, rfl⟩ | ⟨-, e, -, rfl⟩ | ⟨-, rfl⟩
    · obtain ⟨-, hfault, -⟩ := bodyOf_fixed hu
      rw [complete_fault, hfault, hf] at htf
      cases htf
    · exact ⟨rfl, rfl, rfl⟩
    · exact ⟨rfl, rfl, rfl⟩

/-- The effect of a move does not reach the host's list. -/
theorem hostEffect_host {s t : State} (h : HostEffect s t) : t.host = s.host := by
  cases h with
  | lenWritten b n => exact setLen_host s b n
  | byteWritten b i v => exact setBuf_host s b _
  | ignored | reset | faulted | accepted | selWritten | answered => rfl

/-! ### A safe machine has a step -/

/-- A move the spec gives the host is SRESET or has an effect at once (R63, R64, R110). -/
theorem hostMove_of_wf {m : HostMove} (h : m.wf = true) (s : State) :
    hostMove m s = .run .sreset s ∨ ∃ t, hostMove m s = .done (.next t) := by
  cases m with
  | regWrite width off v =>
    rw [hostMove, if_pos h]
    split
    · rcases issue_cases v s with ⟨-, e⟩ | ⟨-, e⟩ | ⟨-, -, e⟩ | ⟨-, -, i, -, e⟩
      · exact .inl e
      · exact .inr ⟨_, e⟩
      · exact .inr ⟨_, e⟩
      · exact .inr ⟨_, e⟩
    · exact .inr ⟨_, rfl⟩
  | regRead | bufWrite | bufRead => exact .inr ⟨_, if_pos h⟩
  | wait | reset => exact .inr ⟨_, rfl⟩

/-- On the host's turn a safe machine has a step: the host's next move, or none where the host has none left. -/
theorem exists_step_of_hostTurn {s : State} (hc : coreTurn s = false) (hwf : ∀ m ∈ s.host, m.wf = true) :
    ∃ t, step s = .next t ∧ t.host ⊆ s.host := by
  cases hh : s.host with
  | nil => exact ⟨s, step_eq_of_done (by simp [turn, hc, hh]), by rw [hh]; exact List.Subset.refl _⟩
  | cons m rest =>
    have hturn : turn s = hostMove m (hostTook rest s) := by simp [turn, hc, hh]
    have hm : m.wf = true := hwf m (by rw [hh]; exact List.mem_cons_self)
    rcases hostMove_of_wf hm (hostTook rest s) with h | ⟨t, h⟩
    · exact ⟨hardReset (hostTook rest s), step_eq_of_run (hturn.trans h), List.subset_cons_self m rest⟩
    · refine ⟨t, step_eq_of_done (hturn.trans h), ?_⟩
      rw [hostEffect_host (hostMove_effect h)]
      exact List.subset_cons_self m rest

/-- On its turn a core whose pending command is legal runs it to completion or fault entry (R111, R117). -/
theorem exists_step_of_coreTurn {s : State} (hc : coreTurn s = true) (hinv : s.Inv) (hm : s.StageMeaning) :
    ∃ t, step s = .next t ∧ t.host ⊆ s.host := by
  obtain ⟨hcfg, -, -, -, hflags, hpending, -⟩ := id hinv
  obtain ⟨hb, -⟩ := coreTurn_iff.mp hc
  have hf := fault_eq_false_of_busy hflags hb
  obtain ⟨i, hi, hp, hl⟩ := hpending hb
  obtain ⟨t, ht⟩ := exists_next_of_notStuck hi (bodyOf_notStuck ⟨hcfg, inv_dataWf hinv hf⟩ hl hm)
  obtain ⟨-, hhost, -⟩ := exec_outsideKept hf ht
  exact ⟨t, (step_of_coreTurn hc hp).trans ht, hhost ▸ List.Subset.refl _⟩

/-- Settles O60: either agent's turn has a step, which keeps the state legal and what STAGE says, and leaves the host
only moves it had before. -/
theorem safeMachineNeverStops : Obligations.SafeMachineNeverStops := by
  rintro s ⟨hinv, hm, hwf⟩
  have hprogress : ∃ t, step s = .next t ∧ t.host ⊆ s.host := by
    cases hc : coreTurn s with
    | true => exact exists_step_of_coreTurn hc hinv hm
    | false => exact exists_step_of_hostTurn hc hwf
  obtain ⟨t, ht, hhost⟩ := hprogress
  exact ⟨t, ht, stepKeepsLegal s t hinv ht, stepKeepsStageMeaning s t hinv hm ht, fun m hmem => hwf m (hhost hmem)⟩

end Sys2Proof.Machine

/-!
PROOFS. FREQ completes with the histogram of the data (R130, R131).
-/

namespace Sys2Proof.Machine

/-- A command that is legal at STAGE and whose pseudocode ends well is completed (R111, R112). -/
theorem exec_of_ok {i : Instr} (hi : i ≠ .sreset) {s t : State} (hl : legalAt i s.stage = true)
    (h : bodyOf i s = .ok t) : exec i s = .next (complete t) :=
  (exec_eq_runCommand hi s).trans (runCommand_of_ok hl h)

/-- Completion touches nothing but BUSY, PEND and the model's own `delay` and `draws`. -/
theorem completed_complete (s : State) : Completed s (complete s) := rfl

/-- Settles O23: FREQ is legal at every STAGE, its pseudocode leaves the histogram, and a histogram adds up to DLEN. -/
theorem freqCountsTheData : Obligations.FreqCountsTheData := by
  intro s hlen
  have hrun : runFreq s = .ok { s with freq := countBytes [] s.data, stage := .cFreq } :=
    runFreq_eq_ok.mpr ⟨hlen, rfl⟩
  have hhist := runFreq_histogram hrun
  exact ⟨_, exec_of_ok (by decide) rfl hrun, completed_complete _, hhist, sum_counts_of_histogram hhist⟩

end Sys2Proof.Machine

/-!
PROOFS. TINIT and TMERGE in any state: the leaves, and the two smallest live nodes (R140 to R142).
-/

namespace Sys2Proof.Machine

/-! ### TINIT (R140) -/

/-- A tree command that has completed changed the tree store and STAGE alone (R52, R112). -/
theorem OnlyTreeChanged.completed {s t : State} (h : OnlyTreeChanged s t) :
    Completed { s with node := t.node, next := t.next, nlive := t.nlive, root := t.root, rootV := t.rootV,
                       stage := t.stage } (complete t) := by
  obtain ⟨_, _, _, _, _, _, rfl⟩ := h
  rfl

/-- TINIT leaves the leaves in the tree store, and no merge is done yet (R140). -/
theorem runTinit_store {s t : State} (h : runTinit s = .ok t) :
    t.node = (withLeaves s).node ∧ t.next = 256 ∧ t.nlive = (occurring s).length := by
  have hnext := withLeaves_next s
  have hnlive := withLeaves_nlive s
  have hcases := runTinit_cases h
  generalize withLeaves s = u at *
  rcases hcases with ⟨-, rfl⟩ | ⟨_, -, rfl⟩ | ⟨-, rfl⟩
  · exact ⟨rfl, hnext, hnlive⟩
  · exact ⟨rfl, hnext, hnlive⟩
  · exact ⟨rfl, hnext, hnlive⟩

/-- What TINIT makes of ROOT and STAGE, by the number of byte values that occur (R140, R146, R147). -/
theorem runTinit_root {s t : State} (h : runTinit s = .ok t) :
    (t.nlive = 0 ∧ t.rootV = false ∧ t.root = 0#9 ∧ t.stage = .cTree) ∨
      (t.nlive = 1 ∧ t.rootV = true ∧ t.root.toNat ∈ occurring s ∧ t.stage = .cTree) ∨
      (2 ≤ t.nlive ∧ t.rootV = false ∧ t.root = 0#9 ∧ t.stage = .cQueue) := by
  obtain ⟨-, -, hnlive⟩ := runTinit_store h
  rw [hnlive]
  rcases runTinit_cases h with ⟨hocc, rfl⟩ | ⟨b, hocc, rfl⟩ | ⟨hlen, rfl⟩
  · exact .inl ⟨by rw [hocc, List.length_nil], rfl, rfl, rfl⟩
  · have hb : b ∈ occurring s := hocc ▸ List.mem_singleton_self b
    have hroot : (BitVec.ofNat 9 b).toNat = b := by
      have := (mem_occurring.mp hb).1
      rw [BitVec.toNat_ofNat, Nat.mod_eq_of_lt (by omega)]
    exact .inr (.inl ⟨by rw [hocc, List.length_singleton], rfl, hroot.symm ▸ hb, rfl⟩)
  · exact .inr (.inr ⟨hlen, rfl, rfl, rfl⟩)

/-- Settles O24: TINIT makes the leaves and, by how many there are, sets no root, the one leaf as root, or the queue. -/
theorem tinitMakesTheLeaves : Obligations.TinitMakesTheLeaves := by
  intro s hstage
  obtain ⟨t, ht⟩ := runTinit_ok s
  obtain ⟨hnode, hnext, hnlive⟩ := runTinit_store ht
  have hframe := (runTinit_frame ht).completed
  rw [hnext] at hframe
  refine ⟨complete t, exec_of_ok (i := .tinit) (by decide) (by rw [hstage]; rfl) ht, hframe, fun i => ?_, hnlive, ?_⟩
  · exact (congrArg (Sparse.get · i) hnode).trans (nodeAt_withLeaves s i)
  · change (t.nlive = 0 → _) ∧ (t.nlive = 1 → _) ∧ (2 ≤ t.nlive → _)
    rcases runTinit_root ht with ⟨hk, hroot⟩ | ⟨hk, hrootV, hroot, hg⟩ | ⟨hk, hroot⟩
    · exact ⟨fun _ => hroot, by omega, by omega⟩
    · obtain ⟨hlt, hpos⟩ := mem_occurring.mp hroot
      exact ⟨by omega, fun _ => ⟨hrootV, hlt, hpos, hg⟩, by omega⟩
    · exact ⟨by omega, by omega, fun _ => hroot⟩

/-! ### The smallest key (R141) -/

/-- The order of the queue (R141): the smaller frequency first, then the smaller identifier. -/
theorem keyLt_iff {fi i fj j : Nat} : keyLt fi i fj j = true ↔ fi < fj ∨ (fi = fj ∧ i < j) := by
  simp [keyLt]

/-- `min_live()` is undefined only when LIVE is empty (R141). -/
theorem not_live_of_minLive_eq_none {m : Sparse Node} (h : minLive m = none) {e : Nat × Node} (he : e ∈ m) :
    ¬ e.2.live = true := by
  induction m with
  | nil => cases he
  | cons e₀ r ih =>
    rw [minLive] at h
    split at h
    · split at h
      · split at h <;> cases h
      · cases h
    · rename_i hlive
      rcases List.mem_cons.mp he with rfl | he
      · exact hlive
      · exact ih h he

/-- No live node has a smaller key than the one `min_live()` answers (R141). -/
theorem minLive_min {m : Sparse Node} {i : Nat} {n : Node} (h : minLive m = some (i, n)) {j : Nat} {k : Node}
    (hk : (j, k) ∈ m) (hlive : k.live = true) : ¬ (k.freq < n.freq ∨ (k.freq = n.freq ∧ j < i)) := by
  induction m generalizing i n with
  | nil => cases hk
  | cons e r ih =>
    obtain ⟨i₀, n₀⟩ := e
    rw [minLive] at h
    split at h
    · split at h
      · rename_i i₁ n₁ hr
        have htail := ih hr
        split at h
        · rename_i hlt
          cases h
          rw [keyLt_iff] at hlt
          rcases List.mem_cons.mp hk with hk | hk
          · cases hk; omega
          · exact htail hk
        · rename_i hle
          cases h
          rw [keyLt_iff] at hle
          rcases List.mem_cons.mp hk with hk | hk
          · cases hk; omega
          · have := htail hk; omega
      · rename_i hr
        cases h
        rcases List.mem_cons.mp hk with hk | hk
        · cases hk; omega
        · exact absurd hlive (not_live_of_minLive_eq_none hr hk)
    · rename_i hdead
      rcases List.mem_cons.mp hk with hk | hk
      · cases hk; exact absurd hlive hdead
      · exact ih h hk

/-- The live node whose key is below all others is the one `min_live()` answers (R141). -/
theorem minLive_eq_some {m : Sparse Node} (hm : Sparse.wf m) {a : Nat} {na : Node} (ha : Sparse.get m a = some na)
    (hlive : na.live = true)
    (hmin : ∀ j k, Sparse.get m j = some k → k.live = true → j ≠ a → na.freq < k.freq ∨ (na.freq = k.freq ∧ a < j)) :
    minLive m = some (a, na) := by
  have hmem := (Sparse.mem_iff_get hm).mpr ha
  cases h : minLive m with
  | none => exact absurd hlive (not_live_of_minLive_eq_none h hmem)
  | some e =>
    obtain ⟨i, n⟩ := e
    obtain ⟨hi, hn⟩ := minLive_mem h
    have hi := (Sparse.mem_iff_get hm).mp hi
    have hle := minLive_min h hmem hlive
    by_cases hia : i = a
    · subst hia
      rw [Option.some.inj (hi.symm.trans ha)]
    · exact absurd (hmin i n hi hn hia) hle

/-! ### TMERGE (R142) -/

/-- Settles O25: the two extractions answer the two nodes with the smallest keys. -/
theorem tmergeCombinesTheTwoSmallest : Obligations.TmergeCombinesTheTwoSmallest := by
  intro s a b na nb hstage hwf hnext hne ha hla hb hlb hmina hminb
  have hfirst : minLive s.node = some (a, na) := minLive_eq_some hwf ha hla hmina
  have hsecond : minLive (Sparse.put s.node a { na with live := false }) = some (b, nb) := by
    refine minLive_eq_some (Sparse.put_wf hwf _ _) ((Sparse.get_put_other _ _ hne.symm).trans hb) hlb
      fun j k hk hlive hjb => ?_
    rw [Sparse.get_put] at hk
    split at hk
    · cases hk; cases hlive
    · rename_i hja
      exact hminb j k hk hlive hja hjb
  have hrun := runTmerge_eq_ok.mpr ⟨a, na, b, nb, hfirst, hsecond, hnext, rfl⟩
  refine ⟨_, exec_of_ok (i := .tmerge) (by decide) (by rw [hstage]; rfl) hrun, rfl, fun i => ?_⟩
  refine (get_mergedNodes ha hb s.next i).trans ?_
  split
  · rfl
  · by_cases hia : i = a
    · subst hia
      rw [if_pos rfl, show Sparse.get s.node i = some na from ha, Option.map_some, takenOut_left_eq]
    · by_cases hib : i = b
      · subst hib
        rw [if_neg hia, if_pos rfl, show Sparse.get s.node i = some nb from hb, Option.map_some, takenOut_right_eq]
      · rw [if_neg hia, if_neg hib, Option.map_congr fun n _ => takenOut_other hia hib n, Option.map_id']
        rfl
end Sys2Proof.Machine

/-!
PROOFS. The queue of live nodes in any state: TINIT makes it and TMERGE keeps it, so TBUILD ends and is TINIT followed by
its merges (R143 to R145).
-/

namespace Sys2Proof.Machine

/-! ### The queue between TINIT and the last merge (R143) -/

/-- What TINIT leaves and every TMERGE keeps, whatever the histogram: NLIVE counts the live nodes, the identifiers from
NEXT on are unused and enough for the merges to come, and STAGE agrees with NLIVE. -/
structure Queue (s : State) : Prop where
  wf : Sparse.wf s.node
  unused : ∀ i, s.next ≤ i → s.nodeAt i = none
  counted : s.nlive = Sparse.sum liveWeight s.node
  room : s.next + s.nlive ≤ 512
  stage : (s.stage = .cQueue ∧ 2 ≤ s.nlive) ∨ (s.stage = .cTree ∧ s.nlive ≤ 1)

theorem Queue.two_le {s : State} (hq : Queue s) (hg : s.stage = .cQueue) : 2 ≤ s.nlive := by
  rcases hq.stage with ⟨-, h⟩ | ⟨h, -⟩
  · exact h
  · rw [hg] at h; cases h

theorem Queue.le_one {s : State} (hq : Queue s) (hg : s.stage ≠ .cQueue) : s.stage = .cTree ∧ s.nlive ≤ 1 :=
  hq.stage.resolve_left fun h => hg h.1

/-- A forest whose STAGE is that of a queue to be merged. -/
theorem queue_of_forest {s : State} (hs : s.Forest) (hwf : Sparse.wf s.node) (hg : s.stage = .cQueue)
    (htwo : 2 ≤ s.nlive) : Queue s := by
  obtain ⟨-, -, -, -, ⟨hcount, hocc, hnext⟩, -⟩ := id hs
  have hlen := occurring_length_le s
  refine ⟨hwf, fun i hi => ?_, hcount.trans (live_length s), by omega, .inl ⟨hg, htwo⟩⟩
  cases hn : s.nodeAt i with
  | none => rfl
  | some n => exact absurd (lt_next_of_valid hs hn) (not_lt.mpr hi)

theorem queue_of_runTinit {s t : State} (h : runTinit s = .ok t) : Queue t := by
  obtain ⟨hnode, hnext, hnlive⟩ := runTinit_store h
  have hlen := occurring_length_le s
  refine ⟨?_, fun i hi => ?_, ?_, by omega, ?_⟩
  · rw [hnode]
    exact (withLeaves_nodesFit s).1
  · have hnot : ¬ (i < 256 ∧ 0 < s.freqAt i) := by omega
    rw [State.nodeAt, hnode, ← State.nodeAt, nodeAt_withLeaves, if_neg hnot]
  · rw [hnode, ← live_length, live_withLeaves, hnlive]
  · rcases runTinit_root h with ⟨hk, -, -, hg⟩ | ⟨hk, -, -, hg⟩ | ⟨hk, -, -, hg⟩
    · exact .inr ⟨hg, by omega⟩
    · exact .inr ⟨hg, by omega⟩
    · exact .inl ⟨hg, hk⟩

/-- At C_QUEUE there are two nodes to merge and an identifier for the new one (R142, R144). -/
theorem Queue.runTmerge_ok {s : State} (hq : Queue s) (hg : s.stage = .cQueue) : ∃ t, runTmerge s = .ok t := by
  have htwo := hq.two_le hg
  have hcount := hq.counted
  have hroom := hq.room
  obtain ⟨a, na, ha⟩ := exists_minLive_of_sum_pos (m := s.node) (by omega)
  have hleft := sum_liveWeight_extract hq.wf ha
  obtain ⟨b, nb, hb⟩ := exists_minLive_of_sum_pos (m := Sparse.put s.node a { na with live := false }) (by omega)
  exact ⟨_, runTmerge_eq_ok.mpr ⟨a, na, b, nb, ha, hb, by omega, rfl⟩⟩

theorem runTmerge_stage {s t : State} (h : runTmerge s = .ok t) :
    t.stage = if s.nlive - 1 = 1 then .cTree else .cQueue := by
  obtain ⟨_, _, _, _, -, -, -, rfl⟩ := runTmerge_eq_ok.mp h
  rfl

/-- TMERGE keeps the queue (R143). -/
theorem Queue.of_runTmerge {s t : State} (hq : Queue s) (hg : s.stage = .cQueue) (h : runTmerge s = .ok t) : Queue t := by
  obtain ⟨a, b, na, nb, hm⟩ := merged_of_runTmerge h hq.wf
  have htwo := hq.two_le hg
  have hroom := hq.room
  have hnext := hm.next
  have hnlive := hm.nlive
  refine ⟨?_, fun i hi => ?_, ?_, by omega, ?_⟩
  · rw [hm.node]
    exact Sparse.put_wf (Sparse.put_wf (Sparse.put_wf hq.wf _ _) _ _) _ _
  · rw [hm.nodeAt, if_neg (by omega), hq.unused i (by omega), Option.map_none]
  · have hcount := hq.counted
    have hsum := sum_mergedNodes liveWeight hm.wf hm.ne hm.left hm.right (hq.unused s.next le_rfl)
    simp only [liveWeight, hm.leftLive, hm.rightLive, combine, if_true, Bool.false_eq_true, if_false] at hsum
    rw [hm.node]
    omega
  · rw [runTmerge_stage h, hnlive]
    split
    · exact .inr ⟨rfl, by omega⟩
    · exact .inl ⟨rfl, by omega⟩

/-- Each round takes a node off the queue, so `n` rounds are enough for `n + 1` nodes (R144). -/
theorem Queue.mergeLoop_ok {n : Nat} {s : State} (hq : Queue s) (hn : s.nlive ≤ n + 1) : ∃ t, mergeLoop n s = .ok t := by
  induction n generalizing s with
  | zero =>
    have hg : s.stage ≠ .cQueue := fun hg => by
      have := hq.two_le hg
      omega
    exact ⟨s, if_neg hg⟩
  | succ n ih =>
    rw [mergeLoop]
    split
    · rename_i hg
      obtain ⟨u, hu⟩ := hq.runTmerge_ok hg
      obtain ⟨a, b, na, nb, hm⟩ := merged_of_runTmerge hu hq.wf
      have hnlive := hm.nlive
      obtain ⟨t, ht⟩ := ih (hq.of_runTmerge hg hu) (by omega)
      exact ⟨t, bind_eq_ok.mpr ⟨u, hu, ht⟩⟩
    · exact ⟨s, rfl⟩

/-- TBUILD ends well in every state (R144). -/
theorem exists_runTbuild (s : State) : ∃ u t, runTinit s = .ok u ∧ mergeLoop 255 u = .ok t := by
  obtain ⟨u, hu⟩ := runTinit_ok s
  obtain ⟨-, -, hnlive⟩ := runTinit_store hu
  have hlen := occurring_length_le s
  obtain ⟨t, ht⟩ := (queue_of_runTinit hu).mergeLoop_ok (n := 255) (by omega)
  exact ⟨u, t, hu, ht⟩

/-! ### The invariants of the tree store (R143) -/

/-- Completion touches nothing the tree store's invariants speak of. -/
theorem forest_complete {s : State} (h : s.Forest) : (complete s).Forest := h

/-- TINIT of a histogram leaves a forest, and STAGE agrees with NLIVE (R143). -/
theorem runTinit_forest {s t : State} (h : runTinit s = .ok t) (hs : s.Histogram) :
    t.Forest ∧ (t.stage = .cQueue → 2 ≤ t.nlive) ∧ (t.stage = .cTree → t.TreeBuilt) := by
  obtain ⟨hg | hg, hm⟩ := runTinit_meaning h hs
  · rw [State.StageMeaning, hg] at hm
    obtain ⟨-, hforest, htree⟩ := hm
    exact ⟨hforest, fun h => absurd (hg.symm.trans h) (by decide), fun _ => htree⟩
  · rw [State.StageMeaning, hg] at hm
    obtain ⟨-, hforest, htwo, -⟩ := hm
    exact ⟨hforest, fun _ => htwo, fun h => absurd (hg.symm.trans h) (by decide)⟩

/-- The last merge makes its node the root (R142). -/
theorem runTmerge_root {s t : State} (h : runTmerge s = .ok t) (hg : t.stage = .cTree) :
    t.nlive = 1 ∧ t.rootV = true ∧ t.root.toNat = s.next := by
  obtain ⟨_, _, _, _, -, -, hnext, rfl⟩ := runTmerge_eq_ok.mp h
  dsimp only at hg ⊢
  split at hg
  · rename_i hone
    rw [if_pos hone, if_pos hone, BitVec.toNat_ofNat, Nat.mod_eq_of_lt (by omega)]
    exact ⟨hone, rfl, rfl⟩
  · cases hg

/-- Settles O26: TINIT of a histogram leaves a forest, and a merge of two live nodes keeps it one. -/
theorem treeStoreInvariants : Obligations.TreeStoreInvariants := by
  constructor
  · intro s hstage hhist
    obtain ⟨t, ht⟩ := runTinit_ok s
    obtain ⟨hforest, hqueue, htree⟩ := runTinit_forest ht hhist
    exact ⟨complete t, exec_of_ok (i := .tinit) (by decide) (by rw [hstage]; rfl) ht, hforest, hqueue, htree⟩
  · intro s hstage ⟨_, ⟨hwf, _⟩, _⟩ _ hforest htwo _
    have hq := queue_of_forest hforest hwf hstage htwo
    obtain ⟨t, ht⟩ := hq.runTmerge_ok hstage
    obtain ⟨a, b, na, nb, hm⟩ := merged_of_runTmerge ht hwf
    refine ⟨complete t, exec_of_ok (i := .tmerge) (by decide) (by rw [hstage]; rfl) ht,
      forest_complete (forest_of_merged hm hforest),
      (hq.of_runTmerge hstage ht).two_le, fun hg => ?_⟩
    obtain ⟨hone, hrootV, hroot⟩ := runTmerge_root ht hg
    exact ⟨hone, hrootV, (live_eq_of_merged hm hforest hone).trans (congrArg (fun i => [i]) hroot.symm)⟩

/-! ### TBUILD and the single steps (R144, R145) -/

/-- A merge does not depend on what completion touches, so it leaves alike what was alike (R145). -/
theorem runTmerge_of_completed {s s' t : State} (hs : Completed s s') (h : runTmerge s = .ok t) :
    ∃ t', runTmerge s' = .ok t' ∧ Completed t (complete t') := by
  obtain ⟨a, na, b, nb, ha, hb, hnext, rfl⟩ := runTmerge_eq_ok.mp h
  rw [Completed] at hs
  generalize s'.pend = pend, s'.delay = delay, s'.draws = draws at hs
  subst hs
  exact ⟨_, runTmerge_eq_ok.mpr ⟨a, na, b, nb, ha, hb, hnext, rfl⟩, rfl⟩

/-- The rounds of the merge loop are TMERGE commands issued one after the other, one fewer than the live nodes (R145). -/
theorem mergeRuns_of_mergeLoop {n : Nat} {s s' t : State} (hq : Queue s) (hs : Completed s s')
    (h : mergeLoop n s = .ok t) : ∃ v, MergeRuns (s.nlive - 1) s' v ∧ Completed t v ∧ t.stage = .cTree := by
  have hdone {s s' : State} (hq : Queue s) (hs : Completed s s') (hg : s.stage ≠ .cQueue) :
      ∃ v, MergeRuns (s.nlive - 1) s' v ∧ Completed s v ∧ s.stage = .cTree := by
    obtain ⟨hg, hone⟩ := hq.le_one hg
    rw [Nat.sub_eq_zero_of_le hone]
    exact ⟨s', rfl, hs, hg⟩
  induction n generalizing s s' with
  | zero =>
    rw [mergeLoop] at h
    split at h
    · cases h
    · cases h; exact hdone hq hs ‹_›
  | succ n ih =>
    rw [mergeLoop] at h
    split at h
    · rename_i hg
      obtain ⟨u, hu, h⟩ := bind_eq_ok.mp h
      obtain ⟨u', hu', hcomp⟩ := runTmerge_of_completed hs hu
      obtain ⟨v, hruns, hv⟩ := ih (hq.of_runTmerge hg hu) hcomp h
      obtain ⟨a, b, na, nb, hm⟩ := merged_of_runTmerge hu hq.wf
      have htwo := hq.two_le hg
      have hnlive := hm.nlive
      have hg' : s'.stage = .cQueue := by rw [hs]; exact hg
      have hcount : s.nlive - 1 = u.nlive - 1 + 1 := by omega
      rw [hcount]
      exact ⟨v, ⟨hg', complete u', exec_of_ok (i := .tmerge) (by decide) (by rw [hg']; rfl) hu', hruns⟩, hv⟩
    · cases h; exact hdone hq hs ‹_›

/-- Completed states of one state agree in everything the spec specifies. -/
theorem sameSpecified_of_completed {t u v : State} (hu : Completed t u) (hv : Completed t v) : SameSpecified u v := by
  rw [Completed] at hu hv
  generalize u.pend = pend, u.delay = delay, u.draws = draws at hu
  generalize v.pend = pend', v.delay = delay', v.draws = draws' at hv
  subst hu hv
  exact ⟨rfl, rfl, rfl, rfl, rfl, fun b => by cases b <;> exact ⟨rfl, rfl⟩, rfl, rfl, rfl, rfl, rfl, rfl, rfl, rfl, rfl,
    rfl⟩

/-- Settles O27: the merge loop of TBUILD is the TMERGE commands, as completion touches nothing they read. -/
theorem tbuildIsTinitAndMerges : Obligations.TbuildIsTinitAndMerges := by
  intro s hstage
  obtain ⟨u, t, hu, ht⟩ := exists_runTbuild s
  have hrun : runTbuild s = .ok t := bind_eq_ok.mpr ⟨u, hu, ht⟩
  obtain ⟨-, -, hnlive⟩ := runTinit_store hu
  obtain ⟨v, hruns, hv, hg⟩ := mergeRuns_of_mergeLoop (queue_of_runTinit hu) (completed_complete u) ht
  rw [hnlive] at hruns
  have hframe := (runTbuild_frame hrun).completed
  rw [hg] at hframe
  refine ⟨complete t, complete u, v, exec_of_ok (i := .tbuild) (by decide) (by rw [hstage]; rfl) hrun,
    exec_of_ok (i := .tinit) (by decide) (by rw [hstage]; rfl) hu, hruns, ?_,
    sameSpecified_of_completed (completed_complete t) hv, hframe⟩
  rw [hv]
  exact hg

end Sys2Proof.Machine

/-!
PROOFS. Code lengths that meet Kraft's inequality: every instantaneous code, one in which no word begins another, has
such lengths, and two lightest symbols can be made siblings at no cost (the exchange argument behind R148).
-/

namespace Sys2Proof.Machine

/-! ### Instantaneous codes meet Kraft's inequality -/

/-- A code without the empty word in which no word begins another is uniquely decodable. -/
theorem uniquelyDecodable_of_prefixFree {S : Set Bits} (hne : [] ∉ S) (hfree : ∀ u ∈ S, ∀ v ∈ S, u <+: v → u = v) :
    InformationTheory.UniquelyDecodable S := by
  intro l₁
  induction l₁ with
  | nil =>
    intro l₂ _ h₂ heq
    cases l₂ with
    | nil => rfl
    | cons v l₂ =>
      have hv : v = [] := (List.append_eq_nil_iff.mp heq.symm).1
      exact absurd (hv ▸ h₂ v List.mem_cons_self) hne
  | cons u l₁ ih =>
    intro l₂ h₁ h₂ heq
    have hu := h₁ u List.mem_cons_self
    cases l₂ with
    | nil => exact absurd ((List.append_eq_nil_iff.mp heq).1 ▸ hu) hne
    | cons v l₂ =>
      have hv := h₂ v List.mem_cons_self
      rw [List.flatten_cons, List.flatten_cons] at heq
      have huv : u = v := by
        rcases List.prefix_or_prefix_of_prefix (List.prefix_append u l₁.flatten)
          (heq ▸ List.prefix_append v l₂.flatten) with h | h
        · exact hfree u hu v hv h
        · exact (hfree v hv u hu h).symm
      subst huv
      rw [ih l₂ (fun w hw => h₁ w (List.mem_cons_of_mem _ hw)) (fun w hw => h₂ w (List.mem_cons_of_mem _ hw))
        (List.append_cancel_left heq)]

/-- The lengths `len` of the symbols in `S` meet Kraft's inequality, scaled by `2 ^ top`. -/
def Kraft (S : Finset Nat) (len : Nat → Nat) (top : Nat) : Prop :=
  (∀ i ∈ S, len i ≤ top) ∧ ∑ i ∈ S, 2 ^ (top - len i) ≤ 2 ^ top

/-- The weighted length of a code. -/
def weightedLength (S : Finset Nat) (weight len : Nat → Nat) : Nat := ∑ i ∈ S, weight i * len i

/-- The lengths of an instantaneous code without the empty word meet Kraft's inequality. -/
theorem exists_kraft_of_prefixFree {S : Finset Nat} {code : Nat → Bits} (hne : ∀ i ∈ S, code i ≠ [])
    (hfree : ∀ i ∈ S, ∀ j ∈ S, i ≠ j → ¬ code i <+: code j) : ∃ top, Kraft S (fun i => (code i).length) top := by
  have hinj : Set.InjOn code S := fun i hi j hj h => by
    by_contra hij
    exact hfree i hi j hj hij (h ▸ List.prefix_rfl)
  have hdec : InformationTheory.UniquelyDecodable (S.image code : Set Bits) := by
    refine uniquelyDecodable_of_prefixFree ?_ ?_
    · simpa using hne
    · simp only [Finset.coe_image, Set.forall_mem_image]
      intro i hi j hj hpre
      by_cases hij : i = j
      · rw [hij]
      · exact absurd hpre (hfree i hi j hj hij)
  have hsum := InformationTheory.kraft_mcmillan_inequality hdec
  rw [Finset.sum_image hinj, Fintype.card_bool] at hsum
  have hle : ∀ i ∈ S, (code i).length ≤ S.sup fun i => (code i).length := fun i hi =>
    Finset.le_sup (f := fun i => (code i).length) hi
  generalize (S.sup fun i => (code i).length) = top at hle
  refine ⟨top, hle, ?_⟩
  have hscale : ∀ i ∈ S, (2 : ℝ) ^ (top - (code i).length) = 2 ^ top * (1 / 2) ^ (code i).length := fun i hi => by
    rw [pow_sub₀ _ two_ne_zero (hle i hi), one_div, inv_pow]
  have hreal : ∑ i ∈ S, (2 : ℝ) ^ (top - (code i).length) ≤ 2 ^ top := by
    rw [Finset.sum_congr rfl hscale, ← Finset.mul_sum]
    exact mul_le_of_le_one_right (by positivity) (by exact_mod_cast hsum)
  exact_mod_cast hreal

/-! ### The exchange argument -/

section
variable {S : Finset Nat} {weight len : Nat → Nat} {top : Nat}

theorem swap_mem {T : Finset Nat} {a m i : Nat} (ha : a ∈ T) (hm : m ∈ T) (hi : i ∈ T) : Equiv.swap a m i ∈ T := by
  rw [Equiv.swap_apply_def]
  split_ifs
  · exact hm
  · exact ha
  · exact hi

/-- Exchanging the lengths of two symbols permutes the terms of Kraft's sum. -/
theorem Kraft.swap (h : Kraft S len top) {a m : Nat} (ha : a ∈ S) (hm : m ∈ S) :
    Kraft S (len ∘ Equiv.swap a m) top := by
  have hmoved : {i | Equiv.swap a m i ≠ i} ⊆ (S : Set Nat) := fun i hi => by
    by_contra hi'
    refine hi (Equiv.swap_apply_of_ne_of_ne ?_ ?_)
    · rintro rfl; exact hi' ha
    · rintro rfl; exact hi' hm
  exact ⟨fun i hi => h.1 _ (swap_mem ha hm hi),
    ((Equiv.swap a m).sum_comp S (fun i => 2 ^ (top - len i)) hmoved).trans_le h.2⟩

/-- Taking two symbols out of a sum. -/
theorem sum_eq_add_add_sum_erase (g : Nat → Nat) {a b : Nat} (ha : a ∈ S) (hb : b ∈ S.erase a) :
    ∑ i ∈ S, g i = g a + (g b + ∑ i ∈ (S.erase a).erase b, g i) := by
  rw [← Finset.add_sum_erase S g ha, ← Finset.add_sum_erase _ g hb]

/-- Giving the longer of two lengths to the lighter symbol costs nothing. -/
theorem weightedLength_swap_le {a m : Nat} (ha : a ∈ S) (hm : m ∈ S) (hw : weight a ≤ weight m) (hl : len a ≤ len m) :
    weightedLength S weight (len ∘ Equiv.swap a m) ≤ weightedLength S weight len := by
  by_cases ham : m = a
  · subst ham
    rw [Equiv.swap_self]
    rfl
  · have hm' : m ∈ S.erase a := Finset.mem_erase.mpr ⟨ham, hm⟩
    have hrest : ∑ i ∈ (S.erase a).erase m, weight i * len (Equiv.swap a m i) =
        ∑ i ∈ (S.erase a).erase m, weight i * len i := Finset.sum_congr rfl fun i hi => by
      obtain ⟨him, hia⟩ := Finset.mem_erase.mp hi
      rw [Equiv.swap_apply_of_ne_of_ne (Finset.ne_of_mem_erase hia) him]
    simp only [weightedLength, Function.comp_apply]
    rw [sum_eq_add_add_sum_erase _ ha hm', sum_eq_add_add_sum_erase _ ha hm', hrest, Equiv.swap_apply_left,
      Equiv.swap_apply_right]
    have := mul_add_mul_le_mul_add_mul hw hl
    omega

/-- A lightest symbol `a` of a part of the code can be given that part's greatest length. -/
theorem Kraft.exists_longest (h : Kraft S len top) {T : Finset Nat} (hT : T ⊆ S) {a : Nat} (ha : a ∈ T)
    (hmin : ∀ i ∈ T, weight a ≤ weight i) :
    ∃ len', Kraft S len' top ∧ weightedLength S weight len' ≤ weightedLength S weight len ∧
      (∀ i ∈ T, len' i ≤ len' a) ∧ (∀ i ∈ T, ∃ j ∈ T, len' i = len j) ∧ ∀ i, i ∉ T → len' i = len i := by
  obtain ⟨m, hm, hmax⟩ := T.exists_max_image len ⟨a, ha⟩
  refine ⟨len ∘ Equiv.swap a m, h.swap (hT ha) (hT hm),
    weightedLength_swap_le (hT ha) (hT hm) (hmin m hm) (hmax a ha), fun i hi => ?_,
    fun i hi => ⟨_, swap_mem ha hm hi, rfl⟩, fun i hi => ?_⟩
  · rw [Function.comp_apply, Function.comp_apply, Equiv.swap_apply_left]
    exact hmax _ (swap_mem ha hm hi)
  · rw [Function.comp_apply, Equiv.swap_apply_of_ne_of_ne (ne_of_mem_of_not_mem ha hi).symm (ne_of_mem_of_not_mem hm hi).symm]

/-- The two longest words can be taken to be siblings: without them there is room for a word one bit shorter than the
second longest. All other terms of Kraft's sum are multiples of the second longest word's, so no smaller gap is left. -/
theorem Kraft.room_for_parent (h : Kraft S len top) {a b : Nat} (ha : a ∈ S) (hb : b ∈ S.erase a)
    (hmax : ∀ i ∈ S.erase a, len i ≤ len b) :
    1 ≤ len b ∧ ∑ i ∈ (S.erase a).erase b, 2 ^ (top - len i) + 2 ^ (top - (len b - 1)) ≤ 2 ^ top := by
  obtain ⟨htop, hsum⟩ := h
  have hbtop := htop b (Finset.mem_of_mem_erase hb)
  rw [sum_eq_add_add_sum_erase _ ha hb] at hsum
  have hdvd : 2 ^ (top - len b) ∣ ∑ i ∈ (S.erase a).erase b, 2 ^ (top - len i) := Finset.dvd_sum fun i hi => by
    have := hmax i (Finset.mem_of_mem_erase hi)
    exact pow_dvd_pow 2 (by omega)
  have hpos : 0 < 2 ^ (top - len a) := by positivity
  have hfit : 2 ^ (top - len b) + ∑ i ∈ (S.erase a).erase b, 2 ^ (top - len i) + 2 ^ (top - len b) ≤ 2 ^ top :=
    Nat.le_of_lt_add_of_dvd (by omega) (Nat.dvd_add (Nat.dvd_add (dvd_refl _) hdvd) (dvd_refl _))
      (pow_dvd_pow 2 (Nat.sub_le top (len b)))
  have hone : 1 ≤ len b := by
    by_contra hzero
    rw [show len b = 0 by omega, Nat.sub_zero] at hfit
    have : 0 < 2 ^ top := by positivity
    omega
  refine ⟨hone, ?_⟩
  rw [show top - (len b - 1) = top - len b + 1 by omega, pow_succ]
  omega

/-- The exchange argument: once the two lightest symbols `a` and `b` have been replaced by one symbol `c` of their joint
weight, there are lengths that save at least that weight. -/
theorem Kraft.exists_merged (h : Kraft S len top) {a b : Nat} (ha : a ∈ S) (hb : b ∈ S.erase a)
    (hmina : ∀ i ∈ S, weight a ≤ weight i) (hminb : ∀ i ∈ S.erase a, weight b ≤ weight i) {c : Nat} {weight' : Nat → Nat}
    (hc : c ∉ (S.erase a).erase b) (hwc : weight' c = weight a + weight b)
    (hw : ∀ i ∈ (S.erase a).erase b, weight' i = weight i) :
    ∃ len', Kraft (insert c ((S.erase a).erase b)) len' top ∧
      weightedLength (insert c ((S.erase a).erase b)) weight' len' + weight' c ≤ weightedLength S weight len := by
  obtain ⟨len₁, hk₁, hcost₁, hmax₁, -, -⟩ := h.exists_longest subset_rfl ha hmina
  obtain ⟨len₂, hk₂, hcost₂, hmax₂, hvalues, hkept⟩ := hk₁.exists_longest (S.erase_subset a) hb hminb
  obtain ⟨hone, hroom⟩ := hk₂.room_for_parent ha hb hmax₂
  have hab : len₂ b ≤ len₂ a := by
    obtain ⟨j, hj, hbj⟩ := hvalues b hb
    rw [hbj, hkept a (Finset.notMem_erase a S)]
    exact hmax₁ j (Finset.mem_of_mem_erase hj)
  have hbtop : len₂ b ≤ top := hk₂.1 b (Finset.mem_of_mem_erase hb)
  have hother : ∀ i ∈ (S.erase a).erase b, Function.update len₂ c (len₂ b - 1) i = len₂ i := fun i hi =>
    Function.update_of_ne (ne_of_mem_of_not_mem hi hc) _ _
  refine ⟨Function.update len₂ c (len₂ b - 1), ⟨fun i hi => ?_, ?_⟩, ?_⟩
  · rcases Finset.mem_insert.mp hi with rfl | hi
    · rw [Function.update_self]
      omega
    · rw [hother i hi]
      exact hk₂.1 i (Finset.mem_of_mem_erase (Finset.mem_of_mem_erase hi))
  · rw [Finset.sum_insert hc, Function.update_self, Finset.sum_congr rfl fun i hi => by rw [hother i hi], Nat.add_comm]
    exact hroom
  · have hsplit : weightedLength S weight len₂ = _ := sum_eq_add_add_sum_erase _ ha hb
    have hlonger : weight a * len₂ b ≤ weight a * len₂ a := Nat.mul_le_mul_left _ hab
    rw [weightedLength, Finset.sum_insert hc, Function.update_self, hwc,
      Finset.sum_congr rfl fun i hi => by rw [hother i hi, hw i hi]]
    calc (weight a + weight b) * (len₂ b - 1) + ∑ i ∈ (S.erase a).erase b, weight i * len₂ i + (weight a + weight b)
        = (weight a + weight b) * (len₂ b - 1 + 1) + ∑ i ∈ (S.erase a).erase b, weight i * len₂ i := by ring
      _ ≤ weightedLength S weight len₂ := by rw [Nat.sub_add_cancel hone, Nat.add_mul]; omega
      _ ≤ weightedLength S weight len := hcost₂.trans hcost₁

end

end Sys2Proof.Machine

/-!
PROOFS. The merges of TBUILD never lead away from the best code: the bits any instantaneous code of the data needs are enough
for the tree they build (R142, R148).
-/

namespace Sys2Proof.Machine

/-! ### The live nodes and their weights -/

/-- The identifiers of LIVE, as a set (R26). -/
def liveSet (s : State) : Finset Nat := s.live.toFinset

/-- The frequency of a node, 0 where there is none. -/
def weightOf (s : State) (i : Nat) : Nat := ((s.nodeAt i).map Node.freq).getD 0

theorem weightOf_of_nodeAt {s : State} {i : Nat} {n : Node} (h : s.nodeAt i = some n) : weightOf s i = n.freq := by
  rw [weightOf, h, Option.map_some, Option.getD_some]

theorem mem_liveSet {s : State} (hwf : Sparse.wf s.node) {i : Nat} :
    i ∈ liveSet s ↔ ∃ n, s.nodeAt i = some n ∧ n.live = true := by
  simp only [liveSet, State.live, List.mem_toFinset, List.mem_map, List.mem_filter, State.nodeAt,
    ← Sparse.mem_iff_get hwf]
  constructor
  · rintro ⟨⟨j, n⟩, ⟨hmem, hlive⟩, rfl⟩
    exact ⟨n, hmem, hlive⟩
  · rintro ⟨n, hmem, hlive⟩
    exact ⟨(i, n), ⟨hmem, hlive⟩, rfl⟩

/-- TMERGE merges the two lightest live nodes (R141, R142). -/
theorem merged_lightest_of_runTmerge {s t : State} (h : runTmerge s = .ok t) (hwf : Sparse.wf s.node) :
    ∃ a b na nb, Merged s t a b na nb ∧ (∀ i ∈ liveSet s, weightOf s a ≤ weightOf s i) ∧
      ∀ i ∈ (liveSet s).erase a, weightOf s b ≤ weightOf s i := by
  obtain ⟨a, na, b, nb, ha, hb, hnext, rfl⟩ := runTmerge_eq_ok.mp h
  obtain ⟨hma, hla⟩ := minLive_mem ha
  obtain ⟨hmb, hlb⟩ := minLive_mem hb
  have hwf' := Sparse.put_wf hwf a { na with live := false }
  have hga := (Sparse.mem_iff_get hwf).mp hma
  have hgb := (Sparse.mem_iff_get hwf').mp hmb
  have hne : a ≠ b := by
    rintro rfl
    rw [Sparse.get_put_same] at hgb
    cases hgb
    cases hlb
  rw [Sparse.get_put_other _ _ hne.symm] at hgb
  refine ⟨a, b, na, nb, ⟨hwf, hne, hga, hla, hgb, hlb, hnext, rfl, rfl, rfl, rfl, rfl⟩, fun i hi => ?_, fun i hi => ?_⟩
  · obtain ⟨n, hn, hlive⟩ := (mem_liveSet hwf).mp hi
    have := minLive_min ha ((Sparse.mem_iff_get hwf).mpr hn) hlive
    rw [weightOf_of_nodeAt hga, weightOf_of_nodeAt hn]
    omega
  · obtain ⟨hia, hi⟩ := Finset.mem_erase.mp hi
    obtain ⟨n, hn, hlive⟩ := (mem_liveSet hwf).mp hi
    have := minLive_min hb ((Sparse.mem_iff_get hwf').mpr ((Sparse.get_put_other _ _ hia).trans hn)) hlive
    rw [weightOf_of_nodeAt hgb, weightOf_of_nodeAt hn]
    omega

/-! ### The bits spent so far and the bits still to be spent -/

/-- `below i` is enough for the codes below node `i`: an internal node adds one bit for each data byte under it. -/
def CountsBelow (s : State) (below : Nat → Nat) : Prop :=
  ∀ i n, s.nodeAt i = some n → n.leaf = false → n.freq + below n.left.toNat + below n.right.toNat ≤ below i

/-- A forest whose live nodes can still be given codes so that the data takes at most `bits` bits. -/
def Within (s : State) (bits : Nat) : Prop :=
  ∃ below len top, CountsBelow s below ∧ Kraft (liveSet s) len top ∧
    ∑ i ∈ liveSet s, below i + weightedLength (liveSet s) (weightOf s) len ≤ bits

section
variable {s t : State} {a b : Nat} {na nb : Node}

theorem Merged.mem_left (h : Merged s t a b na nb) : a ∈ liveSet s :=
  (mem_liveSet h.wf).mpr ⟨na, h.left, h.leftLive⟩

theorem Merged.mem_right (h : Merged s t a b na nb) : b ∈ (liveSet s).erase a :=
  Finset.mem_erase.mpr ⟨h.ne.symm, (mem_liveSet h.wf).mpr ⟨nb, h.right, h.rightLive⟩⟩

theorem lt_next_of_mem_liveSet (hs : s.Forest) (hwf : Sparse.wf s.node) {i : Nat} (hi : i ∈ liveSet s) : i < s.next := by
  obtain ⟨n, hn, -⟩ := (mem_liveSet hwf).mp hi
  exact lt_next_of_valid hs hn

/-- A merge replaces the two nodes it takes out of the queue by their combination (R142). -/
theorem Merged.liveSet_eq (h : Merged s t a b na nb) (hs : s.Forest) (hwf : Sparse.wf t.node) :
    liveSet t = insert s.next (((liveSet s).erase a).erase b) := by
  ext i
  simp only [Finset.mem_insert, Finset.mem_erase, mem_liveSet hwf, mem_liveSet h.wf]
  constructor
  · rintro ⟨n, hn, hlive⟩
    rcases h.cases_nodeAt hn with ⟨rfl, -⟩ | ⟨k, hi, hk, rfl⟩
    · exact .inl rfl
    · obtain ⟨hlive, hia, hib⟩ := (takenOut_live a b i k).mp hlive
      exact .inr ⟨hib, hia, k, hk, hlive⟩
  · rintro (rfl | ⟨hib, hia, k, hk, hlive⟩)
    · exact ⟨_, h.nodeAt_next, rfl⟩
    · exact ⟨_, h.nodeAt_old (lt_next_of_valid hs hk).ne hk, (takenOut_live a b i k).mpr ⟨hlive, hia, hib⟩⟩

theorem Merged.weightOf_next (h : Merged s t a b na nb) : weightOf t s.next = weightOf s a + weightOf s b := by
  rw [weightOf_of_nodeAt h.nodeAt_next, weightOf_of_nodeAt h.left, weightOf_of_nodeAt h.right, combine]

theorem Merged.weightOf_old (h : Merged s t a b na nb) {i : Nat} (hi : i ≠ s.next) : weightOf t i = weightOf s i := by
  rw [weightOf, h.nodeAt, if_neg hi, Option.map_map]
  rfl

/-- The new node adds its own weight to what is spent below the two nodes it combines. -/
theorem Merged.countsBelow (h : Merged s t a b na nb) (hs : s.Forest) {below : Nat → Nat} (hb : CountsBelow s below) :
    CountsBelow t (Function.update below s.next (weightOf t s.next + (below a + below b))) := by
  have hold {i : Nat} {n : Node} (hn : s.nodeAt i = some n) :
      Function.update below s.next (weightOf t s.next + (below a + below b)) i = below i :=
    Function.update_of_ne (lt_next_of_valid hs hn).ne _ _
  intro i n hn hleaf
  rcases h.cases_nodeAt hn with ⟨rfl, rfl⟩ | ⟨k, -, hk, rfl⟩
  · rw [h.left_toNat (lt_next_of_valid hs h.left), h.right_toNat (lt_next_of_valid hs h.right), hold h.left,
      hold h.right, Function.update_self, weightOf_of_nodeAt h.nodeAt_next, Nat.add_assoc]
  · obtain ⟨-, -, hint, -, -, -⟩ := id hs
    obtain ⟨-, -, -, l, r, hl, hr, -⟩ := hint i k hk hleaf
    rw [hold hk]
    change k.freq + Function.update below _ _ k.left.toNat + Function.update below _ _ k.right.toNat ≤ _
    rw [hold hl, hold hr]
    exact hb i k hk hleaf

/-- A merge of the two lightest live nodes loses nothing (R148): the exchange argument. -/
theorem Merged.within (h : Merged s t a b na nb) (hs : s.Forest) (hwf : Sparse.wf t.node)
    (hmina : ∀ i ∈ liveSet s, weightOf s a ≤ weightOf s i)
    (hminb : ∀ i ∈ (liveSet s).erase a, weightOf s b ≤ weightOf s i) {bits : Nat} (hw : Within s bits) :
    Within t bits := by
  obtain ⟨below, len, top, hbelow, hkraft, hbits⟩ := hw
  have hne : ∀ i ∈ ((liveSet s).erase a).erase b, i ≠ s.next := fun i hi =>
    (lt_next_of_mem_liveSet hs h.wf (Finset.mem_of_mem_erase (Finset.mem_of_mem_erase hi))).ne
  have hnew : s.next ∉ ((liveSet s).erase a).erase b := fun hi => hne _ hi rfl
  obtain ⟨len', hkraft', hsave⟩ := hkraft.exists_merged h.mem_left h.mem_right hmina hminb hnew h.weightOf_next
    fun i hi => h.weightOf_old (hne i hi)
  refine ⟨_, len', top, h.countsBelow hs hbelow, (h.liveSet_eq hs hwf).symm ▸ hkraft', ?_⟩
  rw [h.liveSet_eq hs hwf, Finset.sum_insert hnew, Function.update_self,
    Finset.sum_congr rfl fun i hi => Function.update_of_ne (hne i hi) _ _]
  rw [sum_eq_add_add_sum_erase below h.mem_left h.mem_right] at hbits
  omega

end

/-! ### TBUILD (R144) -/

theorem forest_of_queue {s : State} (hq : Queue s) (hm : s.StageMeaning) : s.Forest := by
  rw [State.StageMeaning] at hm
  rcases hq.stage with ⟨hg, -⟩ | ⟨hg, -⟩
  · rw [hg] at hm
    exact hm.2.1
  · rw [hg] at hm
    exact hm.2.1

/-- The data is as long as its histogram says, byte value by byte value (R131). -/
theorem sum_map_bytes (x : List Byte) (g : Byte → Nat) :
    (x.map g).sum = ∑ b ∈ Finset.range 256, x.count (BitVec.ofNat 8 b) * g (BitVec.ofNat 8 b) := by
  induction x with
  | nil => simp
  | cons a x ih =>
    have hone : ∑ b ∈ Finset.range 256, (if a == BitVec.ofNat 8 b then 1 else 0) * g (BitVec.ofNat 8 b) = g a := by
      rw [Finset.sum_eq_single a.toNat]
      · simp
      · intro b hb hne
        rw [if_neg, Nat.zero_mul]
        rw [beq_iff_eq, eq_ofNat_iff (Finset.mem_range.mp hb)]
        exact hne.symm
      · exact fun h => absurd (Finset.mem_range.mpr a.isLt) h
    simp only [List.count_cons, Nat.add_mul, Finset.sum_add_distrib]
    rw [← ih, hone, List.map_cons, List.sum_cons, Nat.add_comm]

theorem sum_map_data {s : State} (hs : s.Histogram) (g : Byte → Nat) :
    (s.data.map g).sum = ∑ b ∈ Finset.range 256, s.freqAt b * g (BitVec.ofNat 8 b) := by
  rw [sum_map_bytes]
  exact Finset.sum_congr rfl fun b hb => by rw [hs b (Finset.mem_range.mp hb)]

theorem mem_data_of_occurring {s : State} (hs : s.Histogram) {b : Nat} (hb : b ∈ occurring s) :
    BitVec.ofNat 8 b ∈ s.data := by
  obtain ⟨hlt, hpos⟩ := mem_occurring.mp hb
  rw [hs b hlt] at hpos
  exact List.count_pos_iff.mp hpos

theorem mem_occurring_of_mem_data {s : State} (hs : s.Histogram) {x : Byte} (hx : x ∈ s.data) :
    x.toNat ∈ occurring s := by
  refine mem_occurring.mpr ⟨x.isLt, ?_⟩
  rw [hs x.toNat x.isLt, BitVec.ofNat_toNat, BitVec.setWidth_eq]
  exact List.count_pos_iff.mpr hx

/-- The words of an instantaneous code of the data, by byte value, meet Kraft's inequality. -/
theorem exists_kraft_of_data {s : State} (hs : s.Histogram) {code : Byte → Bits}
    (htwo : ∃ x ∈ s.data, ∃ y ∈ s.data, x ≠ y) (hfree : ∀ x ∈ s.data, ∀ y ∈ s.data, x ≠ y → ¬ code x <+: code y) :
    ∃ top, Kraft (occurring s).toFinset (fun b => (code (BitVec.ofNat 8 b)).length) top := by
  refine exists_kraft_of_prefixFree (fun b hb hnil => ?_) fun b hb c hc hne => ?_
  · have hx := mem_data_of_occurring hs (List.mem_toFinset.mp hb)
    obtain ⟨y, hy, hxy⟩ : ∃ y ∈ s.data, BitVec.ofNat 8 b ≠ y := by
      obtain ⟨y, hy, z, hz, hyz⟩ := htwo
      by_cases h : BitVec.ofNat 8 b = y
      · exact ⟨z, hz, h ▸ hyz⟩
      · exact ⟨y, hy, h⟩
    exact hfree _ hx y hy hxy (hnil ▸ List.nil_prefix)
  · have hb := List.mem_toFinset.mp hb
    have hc := List.mem_toFinset.mp hc
    refine hfree _ (mem_data_of_occurring hs hb) _ (mem_data_of_occurring hs hc) fun h => hne ?_
    rw [eq_ofNat_iff (mem_occurring.mp hc).1, BitVec.toNat_ofNat, Nat.mod_eq_of_lt (mem_occurring.mp hb).1] at h
    exact h

/-- The leaves that TINIT makes are within the bits of any instantaneous code of the data (R140). -/
theorem within_of_runTinit {s t : State} (h : runTinit s = .ok t) (hs : s.Histogram) {code : Byte → Bits}
    (htwo : ∃ x ∈ s.data, ∃ y ∈ s.data, x ≠ y) (hfree : ∀ x ∈ s.data, ∀ y ∈ s.data, x ≠ y → ¬ code x <+: code y) :
    Within t (s.data.map fun x => (code x).length).sum := by
  obtain ⟨hnode, -, -⟩ := runTinit_store h
  have hnodeAt (i : Nat) : t.nodeAt i = (withLeaves s).nodeAt i := congrArg (Sparse.get · i) hnode
  have hlive : liveSet t = (occurring s).toFinset := by
    rw [liveSet, State.live, hnode, ← State.live, live_withLeaves]
  obtain ⟨top, hkraft⟩ := exists_kraft_of_data hs htwo hfree
  refine ⟨fun _ => 0, _, top, fun i n hn hleaf => ?_, hlive.symm ▸ hkraft, ?_⟩
  · obtain ⟨-, rfl⟩ := nodeAt_withLeaves_eq_some (hnodeAt i ▸ hn)
    cases hleaf
  · have hweight : ∀ i ∈ (occurring s).toFinset, weightOf t i = s.freqAt i := fun i hi => by
      have hn := nodeAt_withLeaves s i
      rw [if_pos (mem_occurring.mp (List.mem_toFinset.mp hi)), ← hnodeAt] at hn
      rw [weightOf_of_nodeAt hn, leafNode]
    have hsub : (occurring s).toFinset ⊆ Finset.range 256 := fun i hi =>
      Finset.mem_range.mpr (mem_occurring.mp (List.mem_toFinset.mp hi)).1
    rw [Finset.sum_const_zero, Nat.zero_add, sum_map_data hs, hlive, weightedLength,
      Finset.sum_congr rfl fun i hi => by rw [hweight i hi]]
    exact Finset.sum_le_sum_of_subset hsub

/-- What TINIT establishes and every TMERGE of a queue keeps holds after TBUILD, which ends in a built tree (R144). -/
theorem runTbuild_induction {P : State → Prop} {s t : State} (h : runTbuild s = .ok t) (hs : s.Histogram)
    (hinit : ∀ {u}, runTinit s = .ok u → P u)
    (hstep : ∀ {u v}, Queue u → Queue v → u.Forest → runTmerge u = .ok v → P u → P v) :
    P t ∧ Queue t ∧ t.stage = .cTree ∧ t.StageMeaning := by
  obtain ⟨u, hu, h⟩ := bind_eq_ok.mp h
  obtain ⟨⟨hP, hq, hm⟩, hne⟩ := mergeLoop_induction (P := fun v => P v ∧ Queue v ∧ v.StageMeaning)
    (fun ⟨hP, hq, hm⟩ hg hv => ⟨hstep hq (hq.of_runTmerge hg hv) (forest_of_queue hq hm) hv hP, hq.of_runTmerge hg hv,
      (runTmerge_meaning hv hq.wf hg hm).2⟩) h ⟨hinit hu, queue_of_runTinit hu, (runTinit_meaning hu hs).2⟩
  exact ⟨hP, hq, (hq.le_one hne).1, hm⟩

/-- The tree TBUILD leaves is within the bits of any instantaneous code of the data (R148). -/
theorem within_of_runTbuild {s t : State} (h : runTbuild s = .ok t) (hs : s.Histogram) {code : Byte → Bits}
    (htwo : ∃ x ∈ s.data, ∃ y ∈ s.data, x ≠ y) (hfree : ∀ x ∈ s.data, ∀ y ∈ s.data, x ≠ y → ¬ code x <+: code y) :
    Within t (s.data.map fun x => (code x).length).sum :=
  (runTbuild_induction (P := fun v => Within v (s.data.map fun x => (code x).length).sum) h hs
    (fun hu => within_of_runTinit hu hs htwo hfree)
    (fun hq hq' hf hv hw =>
      let ⟨_, _, _, _, hm, hmina, hminb⟩ := merged_lightest_of_runTmerge hv hq.wf
      hm.within hf hq'.wf hmina hminb hw)).1

end Sys2Proof.Machine

/-!
PROOFS. ASSIGN spends on the codes no more bits than the tree accounts for (R161).
-/

namespace Sys2Proof.Machine

/-- The number of bits a code table spends on the counted data. -/
def tableBits (s : State) (ct : Sparse Bits) : Nat :=
  ∑ b ∈ Finset.range 256, s.freqAt b * ((Sparse.get ct b).getD []).length

/-- Writing a code adds at most its length for each occurrence of its byte value. -/
theorem tableBits_put_le (s : State) (ct : Sparse Bits) {i : Nat} (hi : i < 256) (p : Bits) :
    tableBits s (Sparse.put ct i p) ≤ tableBits s ct + s.freqAt i * p.length := by
  have hterm : ∀ b ∈ Finset.range 256, s.freqAt b * ((Sparse.get (Sparse.put ct i p) b).getD []).length ≤
      s.freqAt b * ((Sparse.get ct b).getD []).length + if b = i then s.freqAt i * p.length else 0 := fun b _ => by
    rw [Sparse.get_put]
    by_cases hb : b = i
    · rw [if_pos hb, if_pos hb, hb, Option.getD_some]
      exact Nat.le_add_left _ _
    · rw [if_neg hb, if_neg hb, Nat.add_zero]
  refine (Finset.sum_le_sum hterm).trans_eq ?_
  rw [Finset.sum_add_distrib, Finset.sum_ite_eq', if_pos (Finset.mem_range.mpr hi), tableBits]

/-- The walk from node `i` after the bits `p` spends `p` on every data byte below `i`, and what is counted below `i`. -/
theorem tableBits_walk_le {s : State} (hs : s.Forest) {below : Nat → Nat} (hb : CountsBelow s below) {depth i : Nat}
    {n : Node} (hn : s.nodeAt i = some n) {p : Bits} {ct ct' : Sparse Bits} (h : walk s.node depth i p ct = .ok ct') :
    tableBits s ct' ≤ tableBits s ct + n.freq * p.length + below i := by
  obtain ⟨-, hleaves, hinternal, -⟩ := id hs
  induction depth generalizing i n p ct ct' with
  | zero => cases h
  | succ depth ih =>
    have hget : Sparse.get s.node i = some n := hn
    simp only [walk, hget] at h
    split at h
    · rename_i hleaf
      cases h
      obtain ⟨hlt, hfields⟩ := hleaves i n hn
      obtain ⟨hsym, hfreq, -⟩ := hfields hleaf
      rw [hsym, hfreq]
      exact (tableBits_put_le s ct (hlt.mp hleaf) p).trans (Nat.le_add_right _ _)
    · rename_i hleaf
      have hleaf : n.leaf = false := by simpa using hleaf
      obtain ⟨-, -, -, l, r, hl, hr, -, -, hfreq⟩ := hinternal i n hn hleaf
      obtain ⟨u, hu, h⟩ := except_bind_eq_ok.mp h
      have hleft := ih hl hu
      have hright := ih hr h
      have hbelow := hb i n hn hleaf
      rw [List.length_append, List.length_singleton, Nat.mul_succ] at hleft hright
      rw [hfreq] at hbelow ⊢
      rw [Nat.add_mul]
      omega

/-- A root that leads to two byte values is no leaf. -/
theorem root_internal {s : State} (hs : s.Forest) (ht : s.TreeBuilt) {b c : Nat} (hb : b ∈ occurring s)
    (hc : c ∈ occurring s) (hne : b ≠ c) {n : Node} (hn : s.nodeAt s.root.toNat = some n) : n.leaf = false := by
  by_contra hleaf
  have hleaf : n.leaf = true := by simpa using hleaf
  have hsym {b : Nat} (hb : b ∈ occurring s) : n.sym.toNat = b := by
    obtain ⟨hlt, hpos⟩ := mem_occurring.mp hb
    obtain ⟨-, q, hq⟩ := exists_path_of_occurs hs ht hlt hpos
    cases q with
    | nil => rw [followPath_nil_of_leaf hn hleaf] at hq; exact Option.some.inj hq
    | cons x q => rw [followPath_cons_of_leaf hn hleaf] at hq; cases hq
  exact hne ((hsym hb).symm.trans (hsym hc))

/-- The code table of a built tree with two leaves or more is within the bits the tree is within (R161, R148). -/
theorem tableBits_assignCodes_le {s : State} (hs : s.Forest) (ht : s.TreeBuilt) {b c : Nat} (hb : b ∈ occurring s)
    (hc : c ∈ occurring s) (hne : b ≠ c) {bits : Nat} (hw : Within s bits) {ct : Sparse Bits}
    (h : assignCodes s = .ok ct) : tableBits s ct ≤ bits := by
  obtain ⟨below, len, top, hbelow, -, hbits⟩ := hw
  obtain ⟨hroot, -⟩ := exists_path_of_occurs hs ht (mem_occurring.mp hb).1 (mem_occurring.mp hb).2
  obtain ⟨-, -, hlive, -⟩ := id ht
  rw [liveSet, hlive hroot, List.toFinset_cons, List.toFinset_nil, insert_empty_eq, Finset.sum_singleton] at hbits
  unfold assignCodes at h
  rw [if_pos hroot] at h
  split at h
  · cases h
  · rename_i n hn
    rw [root_internal hs ht hb hc hne hn, if_neg Bool.false_ne_true] at h
    have hwalk := tableBits_walk_le hs hbelow hn h
    have hempty : tableBits s [] = 0 := Finset.sum_eq_zero fun b _ => Nat.mul_zero _
    rw [hempty, List.length_nil, Nat.mul_zero] at hwalk
    omega

end Sys2Proof.Machine

/-!
PROOFS. COMPRESS ends well on every input that fits, whatever the arrays and buffers held before (R216); no instantaneous
code of the data needs fewer bits (R148).
-/

namespace Sys2Proof.Machine

/-! ### Each stage of COMPRESS ends well (R130 to R193) -/

/-- What COMPRESS relies on: capacities that meet R9, and lengths within them (R29). -/
structure Fitting (s : State) : Prop where
  cfg : s.cfg.ok
  lengths : s.LengthsFit

theorem Fitting.of_onlyTreeChanged {s t : State} (hs : Fitting s) (h : OnlyTreeChanged s t) : Fitting t := by
  obtain ⟨_, _, _, _, _, _, rfl⟩ := h
  exact ⟨hs.cfg, hs.lengths⟩

theorem Fitting.of_runFreq {s t : State} (hs : Fitting s) (h : runFreq s = .ok t) : Fitting t := by
  obtain ⟨-, rfl⟩ := runFreq_eq_ok.mp h
  exact ⟨hs.cfg, hs.lengths⟩

theorem Fitting.of_runAssign {s t : State} (hs : Fitting s) (h : runAssign s = .ok t) : Fitting t := by
  obtain ⟨_, -, rfl⟩ := runAssign_eq_ok.mp h
  exact ⟨hs.cfg, hs.lengths⟩

theorem Fitting.of_runEncode {s t : State} (hs : Fitting s) (h : runEncode s = .ok t) : Fitting t := by
  obtain ⟨p, -, -, hfit, rfl⟩ := runEncode_eq_ok.mp h
  have hlen := stored_lengthsFit (b := .pbuf) hs.lengths hfit
  have hcfg := stored_cfg .pbuf p.flushed s
  generalize stored .pbuf p.flushed s = u at *
  exact ⟨hcfg ▸ hs.cfg, hlen⟩

/-- The walk of a built tree ends well (R161). -/
theorem Queue.assignCodes_ok {s : State} (hq : Queue s) (hf : s.Forest) (ht : s.TreeBuilt) :
    ∃ ct, assignCodes s = .ok ct := by
  unfold assignCodes
  split
  · rename_i hroot
    obtain ⟨-, hone, hlive, -⟩ := ht
    have hmem : s.root.toNat ∈ liveSet s := by rw [liveSet, hlive hroot]; exact List.mem_toFinset.mpr List.mem_cons_self
    obtain ⟨n, hn, -⟩ := (mem_liveSet hq.wf).mp hmem
    have hlt := lt_next_of_valid hf hn
    have hroom := hq.room
    have hnlive := hone.mp hroot
    simp only [hn]
    split
    · exact ⟨_, rfl⟩
    · exact walk_ok hf hn (by decide) (by omega) [] []
  · exact ⟨[], rfl⟩

theorem pushCodes_ok {s : State} {x : List Byte} (h : ∀ b ∈ x, (s.codeAt b.toNat).isSome = true) (p : Packer) :
    ∃ q, pushCodes s.ct p x = .ok q := by
  induction x generalizing p with
  | nil => exact ⟨p, rfl⟩
  | cons b x ih =>
    obtain ⟨hb, hx⟩ := List.forall_mem_cons.mp h
    obtain ⟨c, hc⟩ := Option.isSome_iff_exists.mp hb
    have hc : Sparse.get s.ct b.toNat = some c := hc
    simp only [pushCodes, hc]
    exact ih hx _

/-- The payload of the data has at most 32 bytes for each data byte (R176). -/
theorem Fitting.payload_length_le {s : State} (hs : Fitting s) (hct : CodesFit s.ct) :
    (pack (s.encodedBits s.data)).1.length ≤ 32 * s.cfg.dMax := by
  have hbits := encodedBits_length_le hct s.data
  have hdata : s.data.length = s.dlen := bytes_length s .dbuf
  obtain ⟨hfit, -⟩ := hs.lengths
  rw [pack_length]
  omega

/-- ENCODE ends well when every data byte has a code (R172, R176). -/
theorem Fitting.runEncode_ok {s : State} (hs : Fitting s) (hct : CodesFit s.ct)
    (hcodes : ∀ b ∈ s.data, (s.codeAt b.toNat).isSome = true) : ∃ t, runEncode s = .ok t := by
  obtain ⟨p, hp⟩ := pushCodes_ok hcodes Packer.start
  have hpack : (pack (s.encodedBits s.data)).1 = p.flushed := by rw [pushCodes_eq_ok hp]; rfl
  have hlen := hpack ▸ hs.payload_length_le hct
  obtain ⟨-, -, -, hcap, -⟩ := hs.cfg
  exact ⟨_, runEncode_eq_ok.mpr ⟨p, hs.lengths.1, hp, by omega, rfl⟩⟩

/-- The container of a packed payload fits CBUF (R98, R193). -/
theorem Fitting.runSerialize_ok {s : State} (hs : Fitting s) (hct : CodesFit s.ct) (hp : s.Packed) :
    ∃ t, runSerialize s = .ok t := by
  obtain ⟨hpayload, hpadding⟩ := Prod.mk.inj hp.1
  have hpay : s.payload.length ≤ 32 * s.cfg.dMax := hpayload ▸ hs.payload_length_le hct
  obtain ⟨-, -, -, hbound⟩ := headerLength s.padding s.table s.name (hpadding ▸ pack_padding_le _)
  have hentries : s.table.length ≤ 256 := by
    simpa [State.table, Sparse.tabulate] using List.length_filterMap_le _ (List.range 256)
  have hheader := hbound hentries fun e he =>
    let ⟨hb, hc⟩ := mem_table.mp he
    ⟨Nat.le_of_lt_succ hb, (hct.2 _ (Sparse.mem_of_get hc)).2⟩
  have hname : s.name.length = s.nlen := bytes_length s .nbuf
  obtain ⟨-, -, -, hcap, -⟩ := hs.cfg
  obtain ⟨-, hnlen, -, hplen⟩ := hs.lengths
  rw [Config.hdrMax] at hcap
  refine ⟨_, runSerialize_eq_ok.mpr ⟨hnlen, hplen, ?_, rfl⟩⟩
  simp only [containerOf, List.length_append, List.length_singleton]
  omega

/-! ### COMPRESS (R216) -/

/-- Every data byte has a code once CT is assigned (R164). -/
theorem codeAt_isSome_of_mem_data {s : State} (hs : s.Histogram) (hc : s.CodesAssigned) {x : Byte} (hx : x ∈ s.data) :
    (s.codeAt x.toNat).isSome = true := by
  obtain ⟨hcodes, -⟩ := hc
  exact (hcodes x.toNat x.isLt).mpr (mem_occurring.mp (mem_occurring_of_mem_data hs hx)).2

/-- A run of COMPRESS that ends well, stage by stage (R216). -/
structure CompressRun (s a b c d t : State) : Prop where
  freq : runFreq s = .ok a
  tbuild : runTbuild a = .ok b
  assign : runAssign b = .ok c
  encode : runEncode c = .ok d
  serialize : runSerialize d = .ok t

/-- TBUILD of a histogram leaves a queue with one node or none, and a built tree (R144). -/
theorem runTbuild_built {s t : State} (h : runTbuild s = .ok t) (hs : s.Histogram) :
    Queue t ∧ t.stage = .cTree ∧ t.StageMeaning :=
  (runTbuild_induction (P := fun _ => True) h hs (fun _ => trivial) fun _ _ _ _ _ => trivial).2

theorem codesFit_of_runAssign {s t : State} (h : runAssign s = .ok t) : CodesFit t.ct := by
  obtain ⟨ct, hct, rfl⟩ := runAssign_eq_ok.mp h
  exact codesFit_assignCodes hct

theorem runEncode_ct {s t : State} (h : runEncode s = .ok t) : t.ct = s.ct := by
  obtain ⟨p, -, -, -, rfl⟩ := runEncode_eq_ok.mp h
  exact stored_ct .pbuf p.flushed s

theorem runSerialize_nbits {s t : State} (h : runSerialize s = .ok t) : t.nbits = s.nbits := by
  obtain ⟨x, rfl⟩ := runSerialize_frame h
  exact stored_nbits .cbuf x s

section
variable {s a b c d t : State}

theorem CompressRun.run (h : CompressRun s a b c d t) : runCompress s = .ok t :=
  runCompress_eq_ok.mpr ⟨a, b, c, d, h.freq, h.tbuild, h.assign, h.encode, h.serialize⟩

theorem CompressRun.built (h : CompressRun s a b c d t) : Queue b ∧ b.stage = .cTree ∧ b.StageMeaning :=
  runTbuild_built h.tbuild (runFreq_histogram h.freq)

end

/-- On every input that fits, COMPRESS ends well, whatever the arrays and the buffers held before (R216). -/
theorem Fitting.exists_compressRun {s : State} (hs : Fitting s) : ∃ a b c d t, CompressRun s a b c d t := by
  obtain ⟨a, ha⟩ : ∃ a, runFreq s = .ok a := ⟨_, runFreq_eq_ok.mpr ⟨hs.lengths.1, rfl⟩⟩
  obtain ⟨u, b, hu, hb⟩ := exists_runTbuild a
  have hb : runTbuild a = .ok b := bind_eq_ok.mpr ⟨u, hu, hb⟩
  obtain ⟨hq, hbg, hbm⟩ := runTbuild_built hb (runFreq_histogram ha)
  have hbt := hbm
  rw [State.StageMeaning, hbg] at hbt
  obtain ⟨-, hforest, htree⟩ := hbt
  obtain ⟨ct, hct⟩ := hq.assignCodes_ok hforest htree
  obtain ⟨c, hc⟩ : ∃ c, runAssign b = .ok c := ⟨_, runAssign_eq_ok.mpr ⟨ct, hct, rfl⟩⟩
  obtain ⟨hcg, hcm⟩ := runAssign_meaning hc hbg hbm
  have hcc := hcm
  rw [State.StageMeaning, hcg] at hcc
  obtain ⟨hhist, hcodes⟩ := hcc
  have hfit := codesFit_of_runAssign hc
  have hsc := ((hs.of_runFreq ha).of_onlyTreeChanged (runTbuild_frame hb)).of_runAssign hc
  obtain ⟨d, hd⟩ := hsc.runEncode_ok hfit fun x hx => codeAt_isSome_of_mem_data hhist hcodes hx
  obtain ⟨hdg, hdm⟩ := runEncode_meaning hd hcg hcm
  rw [State.StageMeaning, hdg] at hdm
  obtain ⟨-, -, hpacked⟩ := hdm
  obtain ⟨t, ht⟩ := (hsc.of_runEncode hd).runSerialize_ok (runEncode_ct hd ▸ hfit) hpacked
  exact ⟨a, b, c, d, t, ha, hb, hc, hd, ht⟩

/-! ### Optimality (R148) -/

/-- The code bits of the data are those the code table spends on its counts (R131, R172). -/
theorem encodedBits_length {s : State} (hs : s.Histogram) : (s.encodedBits s.data).length = tableBits s s.ct := by
  rw [State.encodedBits, List.length_flatMap, sum_map_data hs]
  refine Finset.sum_congr rfl fun b hb => ?_
  rw [BitVec.toNat_ofNat, Nat.mod_eq_of_lt (Finset.mem_range.mp hb), State.codeAt]

/-- The codes ASSIGN writes spend on the data what the walk's table spends on its counts (R160). -/
theorem runAssign_bits {s t : State} (h : runAssign s = .ok t) (hs : s.Histogram) :
    ∃ ct, assignCodes s = .ok ct ∧ (t.encodedBits t.data).length = tableBits s ct := by
  obtain ⟨ct, hct, rfl⟩ := runAssign_eq_ok.mp h
  exact ⟨ct, hct, encodedBits_length hs⟩

/-- NBITS counts the code bits of the data (R172). -/
theorem runEncode_nbits {s t : State} (h : runEncode s = .ok t) : t.nbits = (s.encodedBits s.data).length := by
  obtain ⟨p, -, hp, -, rfl⟩ := runEncode_eq_ok.mp h
  exact (congrArg Packer.nbits (pushCodes_eq_ok hp)).trans ((pushAll_nbits _ _).trans (Nat.zero_add _))

/-- COMPRESS of two byte values or more counts no more code bits than any instantaneous code needs (R148). -/
theorem CompressRun.nbits_le {s a b c d t : State} (h : CompressRun s a b c d t) {code : Byte → Bits}
    (htwo : ∃ x ∈ s.data, ∃ y ∈ s.data, x ≠ y) (hfree : ∀ x ∈ s.data, ∀ y ∈ s.data, x ≠ y → ¬ code x <+: code y) :
    t.nbits ≤ (s.data.map fun x => (code x).length).sum := by
  have hhist := runFreq_histogram h.freq
  have hdata : a.data = s.data := by
    obtain ⟨-, rfl⟩ := runFreq_eq_ok.mp h.freq
    rfl
  rw [← hdata] at htwo hfree ⊢
  have hwithin := within_of_runTbuild h.tbuild hhist htwo hfree
  obtain ⟨-, hg, hm⟩ := h.built
  rw [State.StageMeaning, hg] at hm
  obtain ⟨hbhist, hforest, htree⟩ := hm
  have hbdata : b.data = a.data := by
    obtain ⟨_, _, _, _, _, _, rfl⟩ := runTbuild_frame h.tbuild
    rfl
  obtain ⟨x, hx, y, hy, hxy⟩ := htwo
  rw [← hbdata] at hx hy
  obtain ⟨ct, hct, hbits⟩ := runAssign_bits h.assign hbhist
  rw [runSerialize_nbits h.serialize, runEncode_nbits h.encode, hbits]
  exact tableBits_assignCodes_le hforest htree (mem_occurring_of_mem_data hbhist hx)
    (mem_occurring_of_mem_data hbhist hy) (fun e => hxy (BitVec.eq_of_toNat_eq e)) hwithin hct

/-- Settles O54: Huffman's exchange argument, merge by merge: the tree stays within the bits of the given code, and ASSIGN
and ENCODE spend no more than the tree accounts for. -/
theorem compressIsOptimal : Obligations.CompressIsOptimal := by
  intro s code hcfg hlen htwo hfree
  obtain ⟨a, b, c, d, t, h⟩ := Fitting.exists_compressRun ⟨hcfg, hlen⟩
  exact ⟨complete t, exec_of_ok (i := .compress) (by decide) rfl h.run, h.nbits_le htwo hfree⟩

end Sys2Proof.Machine

/-!
PROOFS. ASSIGN of a built tree: the codes are exactly the paths to the leaves, and the table is prefix-free (R160 to R165).
-/

namespace Sys2Proof.Machine

/-! ### One path to each leaf (R143, R161) -/

/-- The node one level below node `i`, on the side of the bit `x`: left for '0', right for '1' (R161). -/
def childAt (s : State) (i : Nat) (x : Bool) : Option Nat :=
  match s.nodeAt i with
  | some n => if n.leaf then none else some (if x then n.right.toNat else n.left.toNat)
  | none => none

/-- The node the walk is at after the bits `q` below node `i`. -/
def nodeAlong (s : State) (i : Nat) (q : Bits) : Option Nat := q.foldlM (childAt s) i

section
variable {s : State}

theorem childAt_eq_some {i c : Nat} {x : Bool} :
    childAt s i x = some c ↔
      ∃ n, s.nodeAt i = some n ∧ n.leaf = false ∧ (if x then n.right.toNat else n.left.toNat) = c := by
  unfold childAt
  cases s.nodeAt i with
  | none => simp
  | some n => cases n.leaf <;> simp

theorem childOf_of_childAt {i c : Nat} {x : Bool} (h : childAt s i x = some c) :
    ∃ n, s.nodeAt i = some n ∧ State.ChildOf n c := by
  obtain ⟨n, hn, hleaf, rfl⟩ := childAt_eq_some.mp h
  refine ⟨n, hn, hleaf, ?_⟩
  cases x with
  | false => exact .inl rfl
  | true => exact .inr rfl

/-- The two sides of a node lead to different nodes (R143 item 2). -/
theorem childAt_side_inj (hs : s.Forest) {i c : Nat} {x y : Bool} (h : childAt s i x = some c)
    (h' : childAt s i y = some c) : x = y := by
  obtain ⟨-, -, hinternal, -⟩ := hs
  obtain ⟨n, hn, hleaf, hc⟩ := childAt_eq_some.mp h
  obtain ⟨m, hm, -, hc'⟩ := childAt_eq_some.mp h'
  obtain rfl := Option.some.inj (hn.symm.trans hm)
  obtain ⟨hne, -⟩ := hinternal i n hn hleaf
  have heq := hc.trans hc'.symm
  cases x with
  | false =>
    cases y with
    | false => rfl
    | true => exact absurd (BitVec.eq_of_toNat_eq heq) hne
  | true =>
    cases y with
    | false => exact absurd (BitVec.eq_of_toNat_eq heq.symm) hne
    | true => rfl

/-- A node is below one node only, and on one side of it (R143 items 2 and 3). -/
theorem childAt_inj (hs : s.Forest) {i j c : Nat} {x y : Bool} (h : childAt s i x = some c)
    (h' : childAt s j y = some c) : i = j ∧ x = y := by
  obtain ⟨-, -, -, ⟨hshared, -⟩, -⟩ := id hs
  obtain ⟨n, hn, hchild⟩ := childOf_of_childAt h
  obtain ⟨m, hm, hchild'⟩ := childOf_of_childAt h'
  obtain rfl := hshared i j n m c hn hm hchild hchild'
  exact ⟨rfl, childAt_side_inj hs h h'⟩

@[simp] theorem nodeAlong_nil (i : Nat) : nodeAlong s i [] = some i := rfl

theorem nodeAlong_cons (i : Nat) (x : Bool) (q : Bits) :
    nodeAlong s i (x :: q) = (childAt s i x).bind fun j => nodeAlong s j q := rfl

theorem nodeAlong_concat_eq_some {i k : Nat} {q : Bits} {x : Bool} :
    nodeAlong s i (q ++ [x]) = some k ↔ ∃ j, nodeAlong s i q = some j ∧ childAt s j x = some k := by
  simp [nodeAlong, List.foldlM_append, Option.bind_eq_some_iff]

/-- Identifiers fall with every bit on the way down (R143 item 2). -/
theorem add_length_le_of_nodeAlong (hs : s.Forest) {i k : Nat} {q : Bits} (h : nodeAlong s i q = some k) :
    k + q.length ≤ i := by
  induction q generalizing i with
  | nil => exact (Option.some.inj h).ge
  | cons x q ih =>
    rw [nodeAlong_cons] at h
    obtain ⟨j, hj, h⟩ := Option.bind_eq_some_iff.mp h
    obtain ⟨n, hn, hchild⟩ := childOf_of_childAt hj
    have hlt := (child_lt_and_not_live hs hn hchild).1
    have hle := ih h
    rw [List.length_cons]
    omega

/-- Read from its end, a path can go back up one way only. -/
theorem nodeAlong_inj (hs : s.Forest) {i k : Nat} {q q' : Bits} (h : nodeAlong s i q = some k)
    (h' : nodeAlong s i q' = some k) : q = q' := by
  induction q using List.reverseRecOn generalizing k q' with
  | nil =>
    obtain rfl := Option.some.inj h
    have hlen := add_length_le_of_nodeAlong hs h'
    exact (List.length_eq_zero_iff.mp (by omega)).symm
  | append_singleton q x ih =>
    cases q' using List.reverseRecOn with
    | nil =>
      obtain rfl := Option.some.inj h'
      have hlen := add_length_le_of_nodeAlong hs h
      rw [List.length_append, List.length_singleton] at hlen
      omega
    | append_singleton q' y =>
      obtain ⟨j, hj, hx⟩ := nodeAlong_concat_eq_some.mp h
      obtain ⟨j', hj', hy⟩ := nodeAlong_concat_eq_some.mp h'
      obtain ⟨rfl, rfl⟩ := childAt_inj hs hx hy
      rw [ih hj hj']

/-- In a forest the walk for a byte value ends at the node of that number (R25). -/
theorem nodeAlong_of_followPath (hs : s.Forest) {i b : Nat} {q : Bits} (h : s.followPath i q = some b) :
    nodeAlong s i q = some b := by
  induction q generalizing i with
  | nil =>
    obtain ⟨-, hleaves, -⟩ := hs
    cases hn : s.nodeAt i with
    | none => simp [State.followPath, hn] at h
    | some n =>
      cases hl : n.leaf with
      | false => rw [followPath_nil_of_internal hn hl] at h; cases h
      | true =>
        rw [followPath_nil_of_leaf hn hl] at h
        rw [nodeAlong_nil, ← h, ((hleaves i n hn).2 hl).1]
  | cons x q ih =>
    cases hn : s.nodeAt i with
    | none => simp [State.followPath, hn] at h
    | some n =>
      cases hl : n.leaf with
      | true => rw [followPath_cons_of_leaf hn hl] at h; cases h
      | false =>
        rw [followPath_cons_of_internal hn hl] at h
        rw [nodeAlong_cons, childAt_eq_some.mpr ⟨n, hn, hl, rfl⟩]
        exact ih h

/-- Each leaf is reached along one path only (R161). -/
theorem followPath_inj (hs : s.Forest) {i b : Nat} {q q' : Bits} (h : s.followPath i q = some b)
    (h' : s.followPath i q' = some b) : q = q' :=
  nodeAlong_inj hs (nodeAlong_of_followPath hs h) (nodeAlong_of_followPath hs h')

/-! ### The code table in the three cases of the root (R160) -/

theorem assignCodes_of_no_root (hroot : s.rootV = false) : assignCodes s = .ok [] := by
  simp [assignCodes, hroot]

theorem assignCodes_of_leaf_root {n : Node} (hroot : s.rootV = true) (hn : s.nodeAt s.root.toNat = some n)
    (hl : n.leaf = true) : assignCodes s = .ok [(n.sym.toNat, [false])] := by
  simp [assignCodes, hroot, hn, hl]

/-- Under a root that is no leaf the codes are the paths, all of them: each leaf has one path (R161). -/
theorem get_assignCodes_of_internal_root (hs : s.Forest) {ct : Sparse Bits} (h : assignCodes s = .ok ct) {n : Node}
    (hroot : s.rootV = true) (hn : s.nodeAt s.root.toNat = some n) (hl : n.leaf = false) {b : Nat} {c : Bits} :
    Sparse.get ct b = some c ↔ s.followPath s.root.toNat c = some b := by
  have hpath {c : Bits} (hc : Sparse.get ct b = some c) : s.followPath s.root.toNat c = some b := by
    obtain ⟨-, -, hc | ⟨hnil, -⟩⟩ := assignCodes_sound h hc
    · exact hc
    · rw [followPath_nil_of_internal hn hl] at hnil
      cases hnil
  refine ⟨hpath, fun hc => ?_⟩
  obtain ⟨c', hc'⟩ := Option.isSome_iff_exists.mp (assignCodes_complete h hroot hc)
  rw [hc', followPath_inj hs (hpath hc') hc]

/-! ### ASSIGN completes (R160) -/

/-- A built tree is a queue with no merge left to do (R143 item 6). -/
theorem queue_of_treeBuilt (hs : s.Forest) (hwf : Sparse.wf s.node) (hg : s.stage = .cTree) (ht : s.TreeBuilt) :
    Queue s := by
  obtain ⟨-, -, -, -, ⟨hcount, hocc, hnext⟩, -⟩ := id hs
  have hlen := occurring_length_le s
  refine ⟨hwf, fun i hi => Option.eq_none_iff_forall_ne_some.mpr fun n hn => ?_, hcount.trans (live_length s), by omega,
    .inr ⟨hg, ht.1⟩⟩
  exact absurd (lt_next_of_valid hs hn) (not_lt.mpr hi)

theorem exists_assignCodes (hg : s.stage = .cTree) (hwf : s.ArraysWf) (hs : s.Forest) (ht : s.TreeBuilt) :
    ∃ ct, assignCodes s = .ok ct := by
  obtain ⟨-, ⟨hnode, -⟩, -⟩ := hwf
  exact (queue_of_treeBuilt hs hnode hg ht).assignCodes_ok hs ht

theorem exec_assign_of_ok {t : State} (hg : s.stage = .cTree) (h : runAssign s = .ok t) :
    exec .assign s = .next (complete t) :=
  exec_of_ok (by decide) (by rw [hg]; rfl) h

end

/-- Settles O28: no root and a root that is a leaf are read off the table; under an internal root each leaf has one path,
and the walk writes it. -/
theorem assignWritesThePaths : Obligations.AssignWritesThePaths := by
  intro s hg hwf _ hs ht
  obtain ⟨ct, hct⟩ := exists_assignCodes hg hwf hs ht
  refine ⟨_, exec_assign_of_ok hg (runAssign_eq_ok.mpr ⟨ct, hct, rfl⟩), completed_complete _, ?_, ?_, ?_⟩
  · intro hroot b
    obtain rfl := Except.ok.inj (hct.symm.trans (assignCodes_of_no_root hroot))
    rfl
  · intro n hroot hn hl b
    obtain rfl := Except.ok.inj (hct.symm.trans (assignCodes_of_leaf_root hroot hn hl))
    rfl
  · intro n hroot hn hl b c
    exact get_assignCodes_of_internal_root hs hct hroot hn hl

/-- Settles O29: the codes ASSIGN leaves are a decodable table of the occurring byte values, and fit CT. -/
theorem assignedTableIsPrefixFree : Obligations.AssignedTableIsPrefixFree := by
  intro s hg hwf _ hs ht
  obtain ⟨ct, hct⟩ := exists_assignCodes hg hwf hs ht
  have hrun := runAssign_eq_ok.mpr ⟨ct, hct, rfl⟩
  obtain ⟨hoccur, hdec, -⟩ := runAssign_codesAssigned hrun hs ht
  obtain ⟨hne, hfree⟩ := decodable_table_iff.mp hdec
  have hfit {b : Nat} {c : Bits} (hc : Sparse.get ct b = some c) : b < 256 ∧ c.length ≤ 255 :=
    (codesFit_of_runAssign hrun).2 _ (Sparse.mem_of_get hc)
  exact ⟨_, exec_assign_of_ok hg hrun, hoccur, fun b c hc => ⟨hne b c (hfit hc).1 hc, (hfit hc).2⟩,
    fun b b' c c' hc hc' hbb => hfree b b' c c' (hfit hc).1 (hfit hc').1 hbb hc hc'⟩

end Sys2Proof.Machine

/-!
PROOFS. The packer spells the bits pushed so far, and the unpacker reads them back (R170, R171, R177, R181).
-/

namespace Sys2Proof.Machine

/-! ### The bits of a shifted byte (R61) -/

/-- Shifting a bit in at bit 0 drops the first bit and appends the new one. -/
theorem byteBits_shiftIn (a : Byte) (x : Bool) :
    byteBits (a <<< 1 ||| BitVec.setWidth 8 (BitVec.ofBool x)) = (byteBits a).drop 1 ++ [x] := by
  simp [byteBits]

/-- Left-aligning a byte drops its first bits and appends zero bits. -/
theorem byteBits_shiftLeft (a : Byte) {k : Nat} (h : k ≤ 8) :
    byteBits (a <<< k) = (byteBits a).drop k ++ List.replicate k false := by
  interval_cases k <;> simp [byteBits, List.replicate_succ]

@[simp] theorem payloadBits_nil : payloadBits [] = [] := rfl

@[simp] theorem payloadBits_append (p q : List Byte) : payloadBits (p ++ q) = payloadBits p ++ payloadBits q :=
  List.flatMap_append

@[simp] theorem payloadBits_singleton (b : Byte) : payloadBits [b] = byteBits b := List.append_nil _

/-! ### The bits a packer holds (R170) -/

namespace Packer

/-- The bits pushed so far: those of the stored bytes, then the low NACC bits of the accumulator. -/
def pushed (p : Packer) : Bits := payloadBits p.stored.reverse ++ (byteBits p.acc).drop (8 - p.nacc)

theorem Counted.pushed_push {p : Packer} (h : p.Counted) (x : Bool) : (p.push x).pushed = p.pushed ++ [x] := by
  obtain ⟨-, hacc⟩ := h
  unfold Packer.push
  dsimp only
  split
  · have hfull : p.nacc = 7 := by omega
    have hempty : (byteBits 0#8).drop 8 = [] := rfl
    simp [pushed, byteBits_shiftIn, hfull, hempty]
  · have hdrop : ((byteBits p.acc).drop 1 ++ [x]).drop (8 - (p.nacc + 1)) = (byteBits p.acc).drop (8 - p.nacc) ++ [x] := by
      rw [List.drop_append_of_le_length (by simp), List.drop_drop]
      congr 2
      omega
    simp only [pushed, byteBits_shiftIn, hdrop, List.append_assoc]

theorem Counted.pushed_pushAll {p : Packer} (h : p.Counted) (x : Bits) : (p.pushAll x).pushed = p.pushed ++ x := by
  induction x generalizing p with
  | nil => exact (List.append_nil _).symm
  | cons a x ih => rw [Packer.pushAll, ih (h.push a), h.pushed_push, List.append_assoc, List.singleton_append]

/-- `flush()` appends zero bits up to the next byte (R170). -/
theorem Counted.payloadBits_flushed {p : Packer} (h : p.Counted) :
    payloadBits p.flushed = p.pushed ++ List.replicate p.padding false := by
  obtain ⟨-, hacc⟩ := h
  unfold flushed
  split
  · have hpad : p.padding = 8 - p.nacc := Nat.mod_eq_of_lt (by omega)
    rw [List.reverse_cons, payloadBits_append, payloadBits_singleton, byteBits_shiftLeft _ (Nat.sub_le 8 _), hpad,
      pushed, List.append_assoc]
  · have hempty : p.nacc = 0 := by omega
    have hdrop : (byteBits p.acc).drop 8 = [] := rfl
    simp [pushed, padding, hempty, hdrop]

theorem Counted.padding_eq {p : Packer} (h : p.Counted) : p.padding = (8 - p.nbits % 8) % 8 := by
  obtain ⟨hbits, hacc⟩ := h
  rw [padding]
  omega

theorem counted_start : start.Counted := ⟨rfl, by decide⟩

theorem nbits_pushAll_start (x : Bits) : (start.pushAll x).nbits = x.length :=
  (pushAll_nbits _ _).trans (Nat.zero_add _)

end Packer

/-! ### The payload format (R87, R171) -/

theorem pack_padding (x : Bits) : (pack x).2 = (8 - x.length % 8) % 8 := by
  rw [pack, (Packer.counted_start.pushAll x).padding_eq, Packer.nbits_pushAll_start]

theorem payloadBits_pack (x : Bits) : payloadBits (pack x).1 = x ++ List.replicate (pack x).2 false := by
  have hpushed : (Packer.start.pushAll x).pushed = x := Packer.counted_start.pushed_pushAll x
  rw [pack, (Packer.counted_start.pushAll x).payloadBits_flushed, hpushed]

theorem pack_length_mul (x : Bits) : 8 * (pack x).1.length = x.length + (pack x).2 := by
  rw [pack_length, pack_padding]
  omega

/-- Settles O32: every push appends its bit to the bits held, and flushing appends the padding. -/
theorem packerMeetsThePayloadFormat : Obligations.PackerMeetsThePayloadFormat := fun x =>
  ⟨Packer.nbits_pushAll_start x, pack_padding x, pack_length_mul x, payloadBits_pack x⟩

/-- Settles O42: dropping as many bits as there is padding leaves the bits before the padding. -/
theorem unpackUndoesPack : Obligations.UnpackUndoesPack := by
  intro x
  have hlen := pack_length_mul x
  refine ⟨pack_padding_le x, by omega, ?_⟩
  rw [unpack, payloadBits_pack, hlen, Nat.add_sub_cancel, List.take_left]

end Sys2Proof.Machine

/-!
PROOFS. ENCODE and UNPACK in any state: completion and faults (R172, R173, R178).
-/

namespace Sys2Proof.Machine

/-- A command that is legal at STAGE and whose pseudocode raises an error ends in fault entry (R111, R246). -/
theorem endsInFault_of_raise {i : Instr} (hi : i ≠ .sreset) {s : State} {e : Err} (hl : legalAt i s.stage = true)
    (h : bodyOf i s = .error (.raise e)) : EndsInFault (exec i s) s e :=
  ⟨faultEntry e s, (exec_eq_runCommand hi s).trans (runCommand_of_raise hl h), faultEntry_faultedWith e s, rfl, rfl, rfl⟩

/-! ### ENCODE (R172, R173) -/

/-- The loop of ENCODE raises SequenceError at the first data byte without a code (R173). -/
theorem pushCodes_of_miss {s : State} {x : List Byte} (h : ∃ b ∈ x, s.codeAt b.toNat = none) (p : Packer) :
    pushCodes s.ct p x = .error (.raise .sequence) := by
  induction x generalizing p with
  | nil => simp at h
  | cons b x ih =>
    cases hb : Sparse.get s.ct b.toNat with
    | none => simp only [pushCodes, hb]
    | some c =>
      obtain ⟨y, hy, hmiss⟩ := h
      have hne : y ≠ b := by
        rintro rfl
        exact Option.some_ne_none c (hb.symm.trans hmiss)
      simp only [pushCodes, hb]
      exact ih ⟨y, List.mem_of_ne_of_mem hne hy, hmiss⟩ _

theorem runEncode_of_miss {s : State} (hd : s.dlen ≤ s.cfg.dMax) (h : ∃ x ∈ s.data, s.codeAt x.toNat = none) :
    runEncode s = .error (.raise .sequence) := by
  have hload : loadBuffer s .dbuf = .ok s.data := loadBuffer_of_fits hd
  simp [runEncode, hload, pushCodes_of_miss h, bind, Except.bind]

/-- Settles O31: the loop of ENCODE raises the error at the first such byte. -/
theorem encodeMissFaults : Obligations.EncodeMissFaults := by
  intro s hg hd hmiss
  exact endsInFault_of_raise (by decide) (by rw [hg]; rfl) (runEncode_of_miss hd hmiss)

/-- ENCODE ends well when every data byte has a code and the bits fit PBUF (R172, R173). -/
theorem runEncode_of_fits {s : State} (hd : s.dlen ≤ s.cfg.dMax)
    (hcodes : ∀ x ∈ s.data, (s.codeAt x.toNat).isSome = true) (hfit : (s.encodedBits s.data).length ≤ 8 * s.cfg.cMax) :
    ∃ t, runEncode s = .ok t := by
  obtain ⟨p, hp⟩ := pushCodes_ok hcodes Packer.start
  have hpack : p.flushed = (pack (s.encodedBits s.data)).1 := by rw [pushCodes_eq_ok hp]; rfl
  have hlen := hpack ▸ pack_length (s.encodedBits s.data)
  exact ⟨_, runEncode_eq_ok.mpr ⟨p, hd, hp, by omega, rfl⟩⟩

/-- ENCODE leaves `pack` of the codes of the data (R171, R172). -/
theorem runEncode_pack {s t : State} (h : runEncode s = .ok t) :
    t.payload = (pack (s.encodedBits s.data)).1 ∧ t.padding = (pack (s.encodedBits s.data)).2 := by
  obtain ⟨p, -, hp, -, rfl⟩ := runEncode_eq_ok.mp h
  obtain rfl := pushCodes_eq_ok hp
  exact ⟨stored_bytes_same .pbuf _ s, rfl⟩

/-- A completed ENCODE has written PBUF, PADDING, NBITS and STAGE alone (R52, R69, R112). -/
theorem runEncode_completed {s t : State} (h : runEncode s = .ok t) :
    Completed { s with pbuf := t.pbuf, plen := t.plen, padding := t.padding, nbits := t.nbits, stage := .cPacked }
        (complete t) ∧ BytesKept s (complete t) [.pbuf] := by
  obtain ⟨x, padding, nbits, rfl⟩ := runEncode_frame h
  refine ⟨rfl, bytesKept_of_buf fun b hb => ?_⟩
  rw [complete_buf]
  exact stored_buf_other x s (by simpa using hb)

/-- Settles O30: ENCODE stores `pack` of the codes of the data, which meets the payload format. -/
theorem encodePacksTheCodes : Obligations.EncodePacksTheCodes := by
  intro s hg hd hcodes hfit
  obtain ⟨-, hpad, hlen, hbits⟩ := packerMeetsThePayloadFormat (s.encodedBits s.data)
  obtain ⟨t, hrun⟩ := runEncode_of_fits hd hcodes hfit
  obtain ⟨hdone, hkept⟩ := runEncode_completed hrun
  obtain ⟨hpayload, hpadding⟩ := runEncode_pack hrun
  have hnbits := runEncode_nbits hrun
  have hplen : t.payload.length = t.plen := bytes_length t .pbuf
  rw [← hpadding, ← hnbits] at hpad
  rw [← hpayload, ← hpadding, ← hnbits, hplen] at hlen
  rw [← hpayload, ← hpadding] at hbits
  exact ⟨_, exec_of_ok (by decide) (by rw [hg]; rfl) hrun, hdone, hkept, hnbits, hpad, hlen, hbits⟩

/-! ### UNPACK (R178) -/

theorem runUnpack_of_bad_padding {s : State} (h : ¬(s.padding ≤ 7 ∧ s.padding ≤ 8 * s.plen)) :
    runUnpack s = .error (.raise .fmtPadding) := by
  unfold runUnpack
  split
  · rfl
  · exact if_pos (by omega)

/-- Settles O40: UNPACK checks the padding against 7 and against the bits of the payload. -/
theorem unpackCountsTheBits : Obligations.UnpackCountsTheBits := by
  intro s hg
  have hl : legalAt .unpack s.stage = true := by rw [hg]; rfl
  exact ⟨fun ⟨h7, hlen⟩ => ⟨_, exec_of_ok (by decide) hl (runUnpack_eq_ok.mpr ⟨h7, hlen, rfl⟩), completed_complete _⟩,
    fun h => endsInFault_of_raise (by decide) hl (runUnpack_of_bad_padding h)⟩

end Sys2Proof.Machine

/-!
PROOFS. SERIALIZE and PARSE in any state: completion and faults (R191, R194 to R197).
-/

namespace Sys2Proof.Machine

/-! ### SERIALIZE (R191) -/

/-- A completed SERIALIZE has written CBUF and STAGE alone (R52, R69, R112). -/
theorem runSerialize_completed {s t : State} (h : runSerialize s = .ok t) :
    Completed { s with cbuf := t.cbuf, clen := t.clen, stage := .cDone } (complete t) ∧
      BytesKept s (complete t) [.cbuf] := by
  obtain ⟨x, rfl⟩ := runSerialize_frame h
  refine ⟨rfl, bytesKept_of_buf fun b hb => ?_⟩
  rw [complete_buf]
  exact stored_buf_other x s (by simpa using hb)

/-- SERIALIZE leaves the container of R88 in CBUF (R191). -/
theorem runSerialize_container {s t : State} (h : runSerialize s = .ok t) :
    t.container = containerOf (serHeader s.padding s.table s.name) s.payload := by
  obtain ⟨-, -, -, rfl⟩ := runSerialize_eq_ok.mp h
  exact stored_bytes_same .cbuf _ s

/-- Settles O33: when header, delimiter and payload fit CBUF, SERIALIZE ends well and stores them. -/
theorem serializeWritesTheContainer : Obligations.SerializeWritesTheContainer := by
  intro s hg ⟨_, hname, _, hplen⟩ hfit
  have hlen : (containerOf (serHeader s.padding s.table s.name) s.payload).length ≤ s.cfg.cMax := by
    have hpay : s.payload.length = s.plen := bytes_length s .pbuf
    simp only [containerOf, List.length_append, List.length_singleton]
    omega
  obtain ⟨t, hrun⟩ : ∃ t, runSerialize s = .ok t := ⟨_, runSerialize_eq_ok.mpr ⟨hname, hplen, hlen, rfl⟩⟩
  obtain ⟨hdone, hkept⟩ := runSerialize_completed hrun
  have hcont := runSerialize_container hrun
  exact ⟨_, exec_of_ok (by decide) (by rw [hg]; rfl) hrun, hdone, hkept, hcont⟩

/-! ### The split at the delimiter (R194) -/

theorem splitContainer_of_no_delimiter {c : List Byte} (h : 0x00#8 ∉ c) : splitContainer c = none := by
  induction c with
  | nil => rfl
  | cons x c ih =>
    obtain ⟨hx, hc⟩ := List.ne_and_not_mem_of_not_mem_cons h
    rw [splitContainer, if_neg (Ne.symm hx), ih hc]
    rfl

/-- A container whose header has no zero byte is split into its header and its payload. -/
theorem splitContainer_containerOf {h : List Byte} (hz : 0x00#8 ∉ h) (p : List Byte) :
    splitContainer (containerOf h p) = some (h, p) := by
  induction h with
  | nil => rfl
  | cons x h ih =>
    obtain ⟨hx, hh⟩ := List.ne_and_not_mem_of_not_mem_cons hz
    have hcons : containerOf (x :: h) p = x :: containerOf h p := rfl
    rw [hcons, splitContainer, if_neg (Ne.symm hx), ih hh]
    rfl

/-- No header text holds the delimiter (R93). -/
theorem delimiter_not_mem_serHeader (v : Nat) (t : List (Nat × Bits)) (nm : List Byte) : 0x00#8 ∉ serHeader v t nm :=
  fun h => absurd (headerHasNoControlByte v t nm _ h) (by decide)

/-! ### PARSE of a container that fits (R195, R196) -/

/-- Without repeated keys the entry at a key is the listed one. -/
theorem Sparse.get_eq_some_iff_mem {α : Type} {m : Sparse α} (hm : (m.map Prod.fst).Nodup) {i : Nat} {v : α} :
    Sparse.get m i = some v ↔ (i, v) ∈ m := by
  refine ⟨Sparse.mem_of_get, fun h => ?_⟩
  induction m with
  | nil => cases h
  | cons e m ih =>
    obtain ⟨k, w⟩ := e
    obtain ⟨hk, hm⟩ := List.nodup_cons.mp hm
    rw [Sparse.get_cons]
    rcases List.mem_cons.mp h with heq | hmem
    · cases heq
      exact if_pos rfl
    · have hne : i ≠ k := fun hik => hk (List.mem_map.mpr ⟨(i, v), hmem, hik⟩)
      rw [if_neg hne]
      exact ih hm hmem

/-- PARSE stores to NBUF and PBUF alone (R69). -/
theorem runParse_buf {s t : State} (h : runParse s = .ok t) {b : BufId} (hb : b ∉ [BufId.nbuf, .pbuf]) :
    t.buf b = s.buf b := by
  obtain ⟨padding, ct, x, y, rfl⟩ := runParse_frame h
  dsimp only [stored, State.setBuf, State.setLen]
  cases b with
  | dbuf | cbuf => rfl
  | nbuf | pbuf => exact absurd hb (by decide)

/-- A completed PARSE has written PADDING, CT, NBUF, PBUF and STAGE alone (R52, R69, R112). -/
theorem runParse_completed {s t : State} (h : runParse s = .ok t) :
    Completed { s with padding := t.padding, ct := t.ct, nbuf := t.nbuf, nlen := t.nlen, pbuf := t.pbuf,
                       plen := t.plen, stage := .dParsed } (complete t) ∧
      BytesKept s (complete t) [.nbuf, .pbuf] := by
  refine ⟨?_, bytesKept_of_buf fun b hb => (complete_buf t b).trans (runParse_buf h hb)⟩
  obtain ⟨padding, ct, x, y, rfl⟩ := runParse_frame h
  dsimp only [complete, stored, State.setBuf, State.setLen]
  rfl

/-- PARSE leaves CBUF alone (R195). -/
theorem runParse_container {s t : State} (h : runParse s = .ok t) : t.container = s.container := by
  obtain ⟨hdone, -⟩ := runParse_completed h
  have hlen := congrArg State.clen hdone
  exact bytes_congr (runParse_buf h (by decide)) hlen

/-- PARSE leaves the four fields of the container it has split (R195). -/
theorem runParse_fields {s t : State} (h : runParse s = .ok t) {hdr p : List Byte} {hd : Header}
    (hsplit : splitContainer s.container = some (hdr, p)) (hparse : parseHeader hdr = some hd) :
    t.padding = min hd.padding 8 ∧ t.name = hd.name ∧ t.payload = p ∧ ∀ b, t.codeAt b = Sparse.get hd.codes b := by
  obtain ⟨hg, hm⟩ := runParse_meaning h
  rw [State.StageMeaning, hg] at hm
  obtain ⟨hdr', hd', hsplit', hparse', hpad, hname, hcodes⟩ := hm
  rw [runParse_container h, hsplit] at hsplit'
  obtain ⟨rfl, hpay⟩ := Prod.mk.inj (Option.some.inj hsplit')
  obtain rfl := Option.some.inj (hparse.symm.trans hparse')
  exact ⟨hpad, hname, hpay.symm, hcodes⟩

/-- Settles O37: the container splits behind its header text, which the parser reads back, and everything fits. -/
theorem parseReadsTheFourFields : Obligations.ParseReadsTheFourFields := by
  intro s v t nm p hclen hcont hcodes hnodup hname
  have hsplit : splitContainer s.container = some (serHeader v t nm, p) :=
    hcont ▸ splitContainer_containerOf (delimiter_not_mem_serHeader v t nm) p
  have hparse := parseHeader_serHeader v (keysOk_iff.mpr ⟨fun e he => (hcodes e he).1, hnodup⟩) nm
  have hp : p.length ≤ s.cfg.cMax := by
    have hlen : s.container.length = s.clen := bytes_length s .cbuf
    rw [hcont] at hlen
    simp only [List.length_append] at hlen
    omega
  obtain ⟨u, hrun⟩ : ∃ u, runParse s = .ok u :=
    ⟨_, runParse_eq_ok.mpr ⟨_, p, _, hclen, hsplit, hparse, fun e he => (hcodes e he).2, hname, hp, rfl⟩⟩
  obtain ⟨hdone, hkept⟩ := runParse_completed hrun
  obtain ⟨hpad, hnm, hpay, hct⟩ := runParse_fields hrun hsplit hparse
  rw [hpad] at hdone
  refine ⟨_, exec_of_ok (by decide) rfl hrun, hdone, hkept, hnm, hpay, fun b c => ?_⟩
  exact (hct b).symm ▸ Sparse.get_eq_some_iff_mem hnodup

/-! ### The faults of PARSE, in their order (R195, R197) -/

section
variable {s : State} (hfit : s.clen ≤ s.cfg.cMax)
include hfit

theorem loadBuffer_container : loadBuffer s .cbuf = .ok s.container := loadBuffer_of_fits hfit

theorem runParse_of_no_delimiter (h : 0x00#8 ∉ s.container) : runParse s = .error (.raise .fmtNoDelim) := by
  simp only [runParse, loadBuffer_container hfit, bind, Except.bind, splitContainer_of_no_delimiter h]

theorem runParse_of_malformed_header {h p : List Byte} (hsplit : splitContainer s.container = some (h, p))
    (hparse : parseHeader h = none) : runParse s = .error (.raise .fmtHeader) := by
  simp only [runParse, loadBuffer_container hfit, bind, Except.bind, hsplit, hparse]

theorem runParse_of_over_capacity {h p : List Byte} {hd : Header} (hsplit : splitContainer s.container = some (h, p))
    (hparse : parseHeader h = some hd) (hover : (∃ e ∈ hd.codes, 255 < e.2.length) ∨ s.cfg.nMax < hd.name.length) :
    runParse s = .error (.raise .capacity) := by
  simp only [runParse, loadBuffer_container hfit, bind, Except.bind, hsplit, hparse]
  rcases hover with hcode | hname
  · exact if_pos (by simpa using hcode)
  · rw [if_pos hname, ite_self]

end

/-- DECOMPRESS is abandoned at a fault of PARSE (R228). -/
theorem runDecompress_of_parse_raise {s : State} {e : Err} (h : runParse s = .error (.raise e)) :
    runDecompress s = .error (.raise e) := by
  rw [runDecompress, h]
  rfl

/-- Settles O38: each check of PARSE in its order, the later ones behind the split at the first zero byte. -/
theorem parseFaults : Obligations.ParseFaults := by
  intro s hfit
  refine ⟨fun hnone => ?_, fun h p hcont hz => ?_⟩
  · have hrun := runParse_of_no_delimiter hfit hnone
    exact ⟨endsInFault_of_raise (by decide) rfl hrun,
      endsInFault_of_raise (by decide) rfl (runDecompress_of_parse_raise hrun)⟩
  · have hsplit : splitContainer s.container = some (h, p) := hcont ▸ splitContainer_containerOf hz p
    exact ⟨fun hparse => endsInFault_of_raise (by decide) rfl (runParse_of_malformed_header hfit hsplit hparse),
      fun hd hparse hover => endsInFault_of_raise (by decide) rfl (runParse_of_over_capacity hfit hsplit hparse hover)⟩

end Sys2Proof.Machine

/-!
PROOFS. CHKTAB and DECODE in any state: completion and faults (R210 to R215, R222).
-/

namespace Sys2Proof.Machine

/-! ### CHKTAB (R210, R211) -/

theorem runChktab_of_not_decodable {s : State} (h : ¬ decodable s.table = true) :
    runChktab s = .error (.raise .fmtTable) := if_neg h

/-- Settles O39: the check of CHKTAB is the two conditions of R210. -/
theorem chktabPassesDecodableTables : Obligations.ChktabPassesDecodableTables := by
  intro s hg
  have hl : legalAt .chktab s.stage = true := by rw [hg]; rfl
  simp only [← decodable_table_iff]
  exact ⟨fun h => ⟨_, exec_of_ok (by decide) hl (runChktab_eq_ok.mpr ⟨h, rfl⟩), completed_complete _⟩,
    fun h => endsInFault_of_raise (by decide) hl (runChktab_of_not_decodable h)⟩

/-! ### The inverse of a decodable table (R212) -/

section
variable {s : State}

/-- The bits of some bytes begin with the code of the first (R172). -/
theorem encodedBits_cons {b : Byte} {c : Bits} (hc : s.codeAt b.toNat = some c) (x : List Byte) :
    s.encodedBits (b :: x) = c ++ s.encodedBits x := by
  rw [State.encodedBits, List.flatMap_cons, hc, Option.getD_some, State.encodedBits]

/-- In a decodable table a code that begins another entry's code is that entry's own (R210). -/
theorem eq_of_code_prefix (hdec : decodable s.table = true) {b b' : Nat} {c c' : Bits} (hb : b < 256) (hb' : b' < 256)
    (hc : s.codeAt b = some c) (hc' : s.codeAt b' = some c') (hpre : c <+: c') : b = b' := by
  obtain ⟨-, hfree⟩ := decodable_table_iff.mp hdec
  by_contra hne
  exact hfree b b' c c' hb hb' hne hc hc' hpre

theorem code_ne_nil (hdec : decodable s.table = true) {b : Byte} {c : Bits} (hc : s.codeAt b.toNat = some c) :
    c ≠ [] := by
  obtain ⟨hne, -⟩ := decodable_table_iff.mp hdec
  exact hne _ c b.isLt hc

/-- `INV` of a code is its byte value (R212). -/
theorem invert_code (hdec : decodable s.table = true) {b : Byte} {c : Bits} (hc : s.codeAt b.toNat = some c) :
    invert s.table c = some b.toNat := by
  have hmem : (b.toNat, c) ∈ s.table := mem_table.mpr ⟨b.isLt, hc⟩
  obtain ⟨k, hk⟩ : ∃ k, invert s.table c = some k := by
    rw [← Option.isSome_iff_exists, invert, Option.isSome_map, List.find?_isSome]
    exact ⟨_, hmem, beq_self_eq_true c⟩
  obtain ⟨hlt, hck⟩ := invert_eq_some hk
  rw [hk, eq_of_code_prefix hdec hlt b.isLt hck hc List.prefix_rfl]

/-- A proper beginning of a code has no byte value (R212). -/
theorem invert_of_proper_prefix (hdec : decodable s.table = true) {b : Byte} {p q : Bits}
    (hc : s.codeAt b.toNat = some (p ++ q)) (hq : q ≠ []) : invert s.table p = none := by
  refine Option.eq_none_iff_forall_ne_some.mpr fun k hk => hq ?_
  obtain ⟨hlt, hck⟩ := invert_eq_some hk
  have hkb : k = b.toNat := eq_of_code_prefix hdec hlt b.isLt hck hc (List.prefix_append p q)
  rw [hkb, hc, Option.some.injEq] at hck
  exact List.append_right_eq_self.mp hck

/-! ### The decode loop (R214) -/

/-- The loop reads the rest of a code and stores its byte, unless DBUF is full. -/
theorem decodeLoop_code (hdec : decodable s.table = true) {b : Byte} {p q : Bits}
    (hc : s.codeAt b.toNat = some (p ++ q)) (hq : q ≠ []) (dMax : Nat) (bits : Bits) (n : Nat) (out : List Byte) :
    decodeLoop s.table dMax (q ++ bits) p n out =
      if n = dMax then .error (.raise .capacity) else decodeLoop s.table dMax bits [] (n + 1) (b :: out) := by
  induction q generalizing p with
  | nil => exact absurd rfl hq
  | cons a q ih =>
    rw [List.append_cons] at hc
    rw [List.cons_append, decodeLoop]
    cases q with
    | nil =>
      rw [List.append_nil] at hc
      simp only [invert_code hdec hc, BitVec.ofNat_toNat, BitVec.setWidth_eq, List.nil_append]
    | cons a' q =>
      simp only [invert_of_proper_prefix hdec hc (List.cons_ne_nil a' q)]
      exact ih hc (List.cons_ne_nil a' q)

/-- The loop reads the codes of some bytes and stores the bytes, unless they are more than DBUF holds. -/
theorem decodeLoop_encodedBits (hdec : decodable s.table = true) {x : List Byte}
    (hx : ∀ y ∈ x, (s.codeAt y.toNat).isSome = true) {dMax n : Nat} (hn : n ≤ dMax) (r : Bits) (out : List Byte) :
    decodeLoop s.table dMax (s.encodedBits x ++ r) [] n out =
      if n + x.length ≤ dMax then decodeLoop s.table dMax r [] (n + x.length) (x.reverse ++ out)
      else .error (.raise .capacity) := by
  induction x generalizing n out with
  | nil => exact (if_pos hn).symm
  | cons b x ih =>
    obtain ⟨hb, hx⟩ := List.forall_mem_cons.mp hx
    obtain ⟨c, hc⟩ := Option.isSome_iff_exists.mp hb
    rw [encodedBits_cons hc, List.append_assoc, decodeLoop_code hdec (p := []) hc (code_ne_nil hdec hc),
      List.length_cons]
    by_cases hfull : n = dMax
    · rw [if_pos hfull, if_neg (by omega)]
    · rw [if_neg hfull, ih hx (by omega), Nat.add_assoc, Nat.add_comm 1, List.reverse_cons, List.append_assoc,
        List.singleton_append]

/-- Bits left over in which no code begins are an incomplete sequence (R214). -/
theorem decodeLoop_of_no_code {cand r : Bits} (hne : cand ++ r ≠ [])
    (hno : ∀ b c, s.codeAt b = some c → b < 256 → ¬ c <+: cand ++ r) (dMax n : Nat) (out : List Byte) :
    decodeLoop s.table dMax r cand n out = .error (.raise .decIncomplete) := by
  induction r generalizing cand with
  | nil =>
    rw [List.append_nil] at hne
    exact if_neg hne
  | cons a r ih =>
    rw [List.append_cons] at hne hno
    have hinv : invert s.table (cand ++ [a]) = none := Option.eq_none_iff_forall_ne_some.mpr fun k hk => by
      obtain ⟨hlt, hck⟩ := invert_eq_some hk
      exact hno k _ hck hlt (List.prefix_append _ r)
    simp only [decodeLoop, hinv]
    exact ih hne hno

/-! ### DECODE (R214, R215, R222) -/

/-- DECODE is the decode loop over the first NBITS payload bits; what the loop reads fits DBUF. -/
theorem runDecode_eq_loop (hplen : s.plen ≤ s.cfg.cMax) (hnbits : s.nbits ≤ 8 * s.plen) :
    runDecode s =
      decodeLoop s.table s.cfg.dMax ((payloadBits s.payload).take s.nbits) [] 0 [] >>= fun x =>
        .ok { stored .dbuf x s with stage := .dDone } := by
  have hload : loadBuffer s .pbuf = .ok s.payload := loadBuffer_of_fits hplen
  simp only [runDecode, hload, bind, Except.bind, if_pos hnbits]
  cases hx : decodeLoop s.table s.cfg.dMax ((payloadBits s.payload).take s.nbits) [] 0 [] with
  | error e => rfl
  | ok x =>
    have hfit : x.length ≤ capacity s.cfg .dbuf := decodeLoop_length_le (out := []) hx (Nat.zero_le _)
    simp only [storeBuffer_of_fits hfit]

/-- A completed DECODE has written DBUF and STAGE alone (R52, R69, R112). -/
theorem runDecode_completed {t : State} (h : runDecode s = .ok t) :
    Completed { s with dbuf := t.dbuf, dlen := t.dlen, stage := .dDone } (complete t) ∧
      BytesKept s (complete t) [.dbuf] := by
  obtain ⟨x, rfl⟩ := runDecode_frame h
  refine ⟨rfl, bytesKept_of_buf fun b hb => ?_⟩
  rw [complete_buf]
  exact stored_buf_other x s (by simpa using hb)

section
variable (hplen : s.plen ≤ s.cfg.cMax) (hnbits : s.nbits ≤ 8 * s.plen) (hdec : decodable s.table = true)
  {x : List Byte} (hx : ∀ y ∈ x, (s.codeAt y.toNat).isSome = true)
include hplen hnbits hdec hx

/-- DECODE of the codes of bytes that fit DBUF (R215). -/
theorem runDecode_of_codes (hfit : x.length ≤ s.cfg.dMax)
    (hbits : (payloadBits s.payload).take s.nbits = s.encodedBits x) : ∃ t, runDecode s = .ok t ∧ t.data = x := by
  refine ⟨{ stored .dbuf x s with stage := .dDone }, ?_, stored_bytes_same .dbuf x s⟩
  rw [runDecode_eq_loop hplen hnbits, hbits, ← List.append_nil (s.encodedBits x),
    decodeLoop_encodedBits hdec hx (Nat.zero_le _), if_pos (by omega), decodeLoop, if_pos rfl, List.append_nil,
    List.reverse_reverse]
  rfl

/-- DECODE of codes and of bits in which no further code begins (R222). -/
theorem runDecode_of_leftover {r : Bits} (hfit : x.length ≤ s.cfg.dMax)
    (hbits : (payloadBits s.payload).take s.nbits = s.encodedBits x ++ r) (hr : r ≠ [])
    (hno : ∀ b c, s.codeAt b = some c → b < 256 → ¬ c <+: r) : runDecode s = .error (.raise .decIncomplete) := by
  rw [runDecode_eq_loop hplen hnbits, hbits, decodeLoop_encodedBits hdec hx (Nat.zero_le _), if_pos (by omega),
    decodeLoop_of_no_code (cand := []) hr hno]
  rfl

/-- DECODE of the codes of more bytes than DBUF holds (R222). -/
theorem runDecode_of_over_capacity {r : Bits} (hover : s.cfg.dMax < x.length)
    (hbits : (payloadBits s.payload).take s.nbits = s.encodedBits x ++ r) :
    runDecode s = .error (.raise .capacity) := by
  rw [runDecode_eq_loop hplen hnbits, hbits, decodeLoop_encodedBits hdec hx (Nat.zero_le _), if_neg (by omega)]
  rfl

end

end

/-- Settles O43: the loop reads off exactly the given bytes. -/
theorem decodeRecoversTheBytes : Obligations.DecodeRecoversTheBytes := by
  intro s x hg hplen hnbits hdec hx hfit hbits
  obtain ⟨t, hrun, hdata⟩ := runDecode_of_codes hplen hnbits hdec hx hfit hbits
  obtain ⟨hdone, hkept⟩ := runDecode_completed hrun
  exact ⟨_, exec_of_ok (by decide) (by rw [hg]; rfl) hrun, hdone, hkept, hdata⟩

/-- Settles O44: after the given bytes the loop meets bits that are no code, or a full DBUF on the way. -/
theorem decodeFaults : Obligations.DecodeFaults := by
  intro s x r hg hplen hnbits hdec hx hbits
  have hl : legalAt .decode s.stage = true := by rw [hg]; rfl
  exact ⟨fun hfit hr hno =>
      endsInFault_of_raise (by decide) hl (runDecode_of_leftover hplen hnbits hdec hx hfit hbits hr hno),
    fun hover => endsInFault_of_raise (by decide) hl (runDecode_of_over_capacity hplen hnbits hdec hx hover hbits)⟩

end Sys2Proof.Machine

/-!
PROOFS. DECOMPRESS of a conforming container, whoever made it (R218, R221).
-/

namespace Sys2Proof.Machine

/-- A command that leaves another STAGE than EMPTY has completed its pseudocode (R112, R246). -/
theorem exists_body_of_exec {i : Instr} (hi : i ≠ .sreset) {s t : State} (h : exec i s = .next t)
    (hg : t.stage ≠ .empty) : ∃ u, bodyOf i s = .ok u ∧ t = complete u := by
  rw [exec_eq_runCommand hi] at h
  rcases runCommand_next h with ⟨-, h⟩ | ⟨-, e, -, rfl⟩ | ⟨-, rfl⟩
  · exact h
  · exact absurd rfl hg
  · exact absurd rfl hg

/-- Whether a table is decodable does not depend on the order of its entries (R210). -/
theorem decodable_congr {t t' : List (Nat × Bits)} (h : ∀ e, e ∈ t ↔ e ∈ t') : decodable t = decodable t' := by
  have hall (p : Nat × Bits → Bool) : t.all p = t'.all p := by
    rw [Bool.eq_iff_iff, List.all_eq_true, List.all_eq_true]
    simp only [h]
  simp only [decodable, hall]

/-! ### The container and the state before DECODE -/

/-- CBUF holds a header with a decodable table, the delimiter, and a payload, and the name fits NBUF (R221). -/
structure Conforming (s : State) (v : Nat) (t : List (Nat × Bits)) (nm p : List Byte) : Prop where
  fits : s.clen ≤ s.cfg.cMax
  container : s.container = serHeader v t nm ++ [0x00#8] ++ p
  codes : ∀ e ∈ t, e.1 ≤ 255 ∧ e.2.length ≤ 255
  keys : (t.map Prod.fst).Nodup
  name : nm.length ≤ s.cfg.nMax
  decodable : decodable t = true

/-- What PARSE and CHKTAB leave of a conforming container in state `b` (R195, R211). -/
structure Checked (s b : State) (v : Nat) (t : List (Nat × Bits)) (nm p : List Byte) : Prop where
  cfg : b.cfg = s.cfg
  fits : b.plen ≤ b.cfg.cMax
  padding : b.padding = min v 8
  payload : b.payload = p
  name : b.name = nm
  codeAt : b.codeAt = Sparse.get t
  decodable : decodable b.table = true

/-- What DECODE finds in state `c`: a decodable table, and the bits `bits` below NBITS (R214). -/
structure ReadyToDecode (s c : State) (t : List (Nat × Bits)) (nm : List Byte) (bits : Bits) : Prop where
  cfg : c.cfg = s.cfg
  fits : c.plen ≤ c.cfg.cMax
  nbits : c.nbits ≤ 8 * c.plen
  name : c.name = nm
  codeAt : c.codeAt = Sparse.get t
  decodable : decodable c.table = true
  bits : (payloadBits c.payload).take c.nbits = bits

section
variable {s : State} {v : Nat} {t : List (Nat × Bits)} {nm p : List Byte}

theorem Conforming.payload_fits (h : Conforming s v t nm p) : p.length ≤ s.cfg.cMax := by
  have hfits := h.fits
  have hlen : s.container.length = s.clen := bytes_length s .cbuf
  rw [h.container] at hlen
  simp only [List.length_append] at hlen
  omega

/-- PARSE and CHKTAB of a conforming container end well. -/
theorem Conforming.exists_checked (h : Conforming s v t nm p) :
    ∃ a b, runParse s = .ok a ∧ runChktab a = .ok b ∧ Checked s b v t nm p := by
  obtain ⟨u, hexec, hdone, -, hname, hpay, hct⟩ :=
    parseReadsTheFourFields s v t nm p h.fits h.container h.codes h.keys h.name
  have hpad : u.padding = min v 8 := congrArg State.padding hdone
  have hg : u.stage = .dParsed := congrArg State.stage hdone
  obtain ⟨a, ha, rfl⟩ := exists_body_of_exec (by decide) hexec (by rw [hg]; decide)
  obtain ⟨hcfg, -⟩ := bodyOf_fixed ha
  have hcodeAt : a.codeAt = Sparse.get t := funext fun b => Option.ext fun c =>
    (hct b c).trans (Sparse.get_eq_some_iff_mem h.keys).symm
  have hdec : Machine.decodable a.table = true := by
    rw [← h.decodable]
    refine decodable_congr fun e => mem_table.trans ?_
    rw [hcodeAt, Sparse.get_eq_some_iff_mem h.keys]
    exact and_iff_right_of_imp fun he => Nat.lt_succ_of_le (h.codes e he).1
  have hplen : a.plen = p.length := (bytes_length a .pbuf).symm.trans (congrArg List.length hpay)
  exact ⟨a, _, ha, runChktab_eq_ok.mpr ⟨hdec, rfl⟩, hcfg, hplen ▸ hcfg ▸ h.payload_fits,
    hpad, hpay, hname, hcodeAt, hdec⟩

/-- UNPACK of a conforming container with a padding in range ends well too (R178). -/
theorem Conforming.exists_ready (h : Conforming s v t nm p) (hv : v ≤ 7) (hvp : v ≤ 8 * p.length) :
    ∃ a b c, runParse s = .ok a ∧ runChktab a = .ok b ∧ runUnpack b = .ok c ∧
      ReadyToDecode s c t nm (unpack p v) ∧ c.padding = v ∧ c.nbits = 8 * p.length - v := by
  obtain ⟨a, b, ha, hb, hk⟩ := h.exists_checked
  have hplen : b.plen = p.length := (bytes_length b .pbuf).symm.trans (congrArg List.length hk.payload)
  have hpad : b.padding = v := hk.padding.trans (min_eq_left (by omega))
  refine ⟨a, b, _, ha, hb, runUnpack_eq_ok.mpr ⟨by omega, by omega, rfl⟩,
    ⟨hk.cfg, hk.fits, Nat.sub_le _ _, hk.name, hk.codeAt, hk.decodable, ?_⟩, hpad, by rw [hplen, hpad]⟩
  change (payloadBits b.payload).take (8 * b.plen - b.padding) = unpack p v
  rw [hk.payload, hplen, hpad, unpack]

/-- A padding above 7 or above the bits of the payload ends DECOMPRESS in bad padding (R178, R219). -/
theorem Conforming.runDecompress_of_bad_padding (h : Conforming s v t nm p) (hv : ¬(v ≤ 7 ∧ v ≤ 8 * p.length)) :
    runDecompress s = .error (.raise .fmtPadding) := by
  obtain ⟨a, b, ha, hb, hk⟩ := h.exists_checked
  have hplen : b.plen = p.length := (bytes_length b .pbuf).symm.trans (congrArg List.length hk.payload)
  have hpad := hk.padding
  rw [runDecompress, bind_eq_ok.mpr ⟨a, ha, hb⟩]
  change runUnpack b >>= runDecode = _
  rw [runUnpack_of_bad_padding (by omega)]
  rfl

/-! ### DECOMPRESS (R218) -/

/-- A completed DECOMPRESS has written DBUF, NBUF, PBUF and the registers of R218 alone (R52, R69, R112). -/
theorem runDecompress_completed {u : State} (h : runDecompress s = .ok u) :
    Completed { s with padding := u.padding, ct := u.ct, nbuf := u.nbuf, nlen := u.nlen, pbuf := u.pbuf,
                       plen := u.plen, nbits := u.nbits, dbuf := u.dbuf, dlen := u.dlen,
                       stage := .dDone } (complete u) ∧
      BytesKept s (complete u) [.dbuf, .nbuf, .pbuf] := by
  obtain ⟨a, b, c, ha, hb, hc, hu⟩ := runDecompress_eq_ok.mp h
  obtain ⟨_, _, _, _, rfl⟩ := runParse_frame ha
  obtain ⟨-, rfl⟩ := runChktab_eq_ok.mp hb
  obtain ⟨-, -, rfl⟩ := runUnpack_eq_ok.mp hc
  obtain ⟨_, rfl⟩ := runDecode_frame hu
  dsimp only [complete, stored, State.setBuf, State.setLen]
  exact ⟨rfl, bytesKept_of_buf fun
    | .dbuf, hb => absurd hb (by decide)
    | .nbuf, hb => absurd hb (by decide)
    | .cbuf, _ => rfl
    | .pbuf, hb => absurd hb (by decide)⟩

/-- The registers and the name DECODE leaves alone. -/
theorem runDecode_kept {c u : State} (h : runDecode c = .ok u) :
    u.padding = c.padding ∧ u.nbits = c.nbits ∧ u.name = c.name := by
  obtain ⟨x, rfl⟩ := runDecode_frame h
  exact ⟨stored_padding _ _ _, stored_nbits _ _ _, stored_bytes_other (b := .dbuf) (c := .nbuf) x c (by decide)⟩

/-- The code bits of some bytes under a table that CT holds. -/
theorem ReadyToDecode.encodedBits {c : State} {bits : Bits} (h : ReadyToDecode s c t nm bits) (x : List Byte) :
    c.encodedBits x = x.flatMap fun y => (Sparse.get t y.toNat).getD [] := by
  rw [State.encodedBits, h.codeAt]

end

/-- Settles O47: PARSE, CHKTAB and UNPACK of a conforming container make the state ready for DECODE, which reads off the
data. -/
theorem decompressRecoversDataAndName : Obligations.DecompressRecoversDataAndName := by
  intro s v t nm p x hclen hcont hcodes hkeys hname hdec hv hvp hx hall hbits
  have hconf : Conforming s v t nm p := ⟨hclen, hcont, hcodes, hkeys, hname, hdec⟩
  obtain ⟨a, b, c, ha, hb, hc, hready, hpad, hnbits⟩ := hconf.exists_ready hv hvp
  obtain ⟨u, hu, hdata⟩ := runDecode_of_codes hready.fits hready.nbits hready.decodable
    (by rw [hready.codeAt]; exact hall) (by rw [hready.cfg]; exact hx)
    (by rw [hready.bits, hbits, hready.encodedBits])
  have hrun : runDecompress s = .ok u := runDecompress_eq_ok.mpr ⟨a, b, c, ha, hb, hc, hu⟩
  obtain ⟨hdone, hkept⟩ := runDecompress_completed hrun
  obtain ⟨hupad, hunbits, huname⟩ := runDecode_kept hu
  rw [hupad, hpad, hunbits, hnbits] at hdone
  exact ⟨_, exec_of_ok (by decide) rfl hrun, hdata, huname.trans hready.name, hkept, hdone⟩

end Sys2Proof.Machine

/-!
PROOFS. What COMPRESS leaves on every input that fits, and the round trip (R216, R223, R254).
-/

namespace Sys2Proof.Machine

/-! ### The state after COMPRESS (R216) -/

/-- What is valid in the state `u` that COMPRESS of `s` ends in (R23, R216). -/
structure Compressed (s u : State) : Prop where
  cfg : u.cfg = s.cfg
  lengths : u.LengthsFit
  stage : u.stage = .cDone
  data : u.data = s.data
  name : u.name = s.name
  codesFit : CodesFit u.ct
  histogram : u.Histogram
  codes : u.CodesAssigned
  packed : u.Packed
  serialized : u.Serialized

theorem Fitting.of_runSerialize {s t : State} (hs : Fitting s) (h : runSerialize s = .ok t) : Fitting t := by
  obtain ⟨-, -, hfit, rfl⟩ := runSerialize_eq_ok.mp h
  generalize containerOf (serHeader s.padding s.table s.name) s.payload = x at *
  have hlen := stored_lengthsFit (b := .cbuf) hs.lengths hfit
  have hcfg := stored_cfg .cbuf x s
  generalize stored .cbuf x s = u at *
  exact ⟨hcfg ▸ hs.cfg, hlen⟩

/-- The bytes of a buffer that is left alone, with its length. -/
theorem bytes_of_kept {s t : State} {written : List BufId} (h : BytesKept s t written) {b : BufId} (hb : b ∉ written)
    (hl : t.len b = s.len b) : t.bytes b = s.bytes b := by
  rw [State.bytes, State.bytes, hl]
  exact List.map_congr_left fun i _ => h b hb i

section
variable {s a b c d t : State}

theorem CompressRun.fitting (h : CompressRun s a b c d t) (hs : Fitting s) : Fitting t :=
  ((((hs.of_runFreq h.freq).of_onlyTreeChanged (runTbuild_frame h.tbuild)).of_runAssign h.assign).of_runEncode
    h.encode).of_runSerialize h.serialize

/-- CT does not change after ASSIGN (R216). -/
theorem CompressRun.ct (h : CompressRun s a b c d t) : t.ct = c.ct := by
  obtain ⟨x, rfl⟩ := runSerialize_frame h.serialize
  exact (stored_ct .cbuf x d).trans (runEncode_ct h.encode)

/-- A completed COMPRESS has written PBUF, CBUF and the registers of R216 alone, and discarded the tree. -/
theorem CompressRun.completed (h : CompressRun s a b c d t) :
    BytesKept s (complete t) [.pbuf, .cbuf] ∧
      Completed { s with freq := t.freq, node := [], root := 0#9, rootV := false, next := 256, nlive := 0,
                         ct := t.ct, pbuf := t.pbuf, plen := t.plen, padding := t.padding, nbits := t.nbits,
                         cbuf := t.cbuf, clen := t.clen, stage := .cDone } (complete t) := by
  obtain ⟨hfreq, htbuild, hassign, hencode, hserialize⟩ := h
  obtain ⟨-, rfl⟩ := runFreq_eq_ok.mp hfreq
  generalize countBytes [] s.data = f at *
  obtain ⟨_, _, _, _, _, _, rfl⟩ := runTbuild_frame htbuild
  obtain ⟨_, -, rfl⟩ := runAssign_eq_ok.mp hassign
  obtain ⟨_, _, _, rfl⟩ := runEncode_frame hencode
  obtain ⟨_, rfl⟩ := runSerialize_frame hserialize
  dsimp only [complete, stored, State.setBuf, State.setLen]
  exact ⟨bytesKept_of_buf fun
    | .dbuf, _ => rfl
    | .nbuf, _ => rfl
    | .cbuf, hb => absurd hb (by decide)
    | .pbuf, hb => absurd hb (by decide), rfl⟩

/-- What STAGE says after COMPRESS is valid (R23). -/
theorem CompressRun.meaning (h : CompressRun s a b c d t) : t.stage = .cDone ∧ t.StageMeaning := by
  obtain ⟨-, hbg, hbm⟩ := h.built
  obtain ⟨hcg, hcm⟩ := runAssign_meaning h.assign hbg hbm
  obtain ⟨hdg, hdm⟩ := runEncode_meaning h.encode hcg hcm
  exact runSerialize_meaning h.serialize hdg hdm

theorem CompressRun.compressed (h : CompressRun s a b c d t) (hs : Fitting s) : Compressed s (complete t) := by
  obtain ⟨hkept, hdone⟩ := h.completed
  obtain ⟨hg, hm⟩ := h.meaning
  rw [State.StageMeaning, hg] at hm
  obtain ⟨hhist, hcodes, hpacked, hserialized⟩ := hm
  exact ⟨(congrArg State.cfg hdone :), (h.fitting hs).lengths, hg,
    bytes_of_kept hkept (by decide) (congrArg State.dlen hdone :),
    bytes_of_kept hkept (by decide) (congrArg State.nlen hdone :),
    h.ct ▸ codesFit_of_runAssign h.assign, hhist, hcodes, hpacked, hserialized⟩

theorem CompressRun.exec (h : CompressRun s a b c d t) : exec .compress s = .next (complete t) :=
  exec_of_ok (by decide) rfl h.run

end

/-- Settles O45: every stage ends well, the chain keeps the lengths in range, and its frame is that of its stages. -/
theorem compressNeverFaults : Obligations.CompressNeverFaults := by
  intro s hcfg hlen
  have hs : Fitting s := ⟨hcfg, hlen⟩
  obtain ⟨a, b, c, d, t, h⟩ := hs.exists_compressRun
  obtain ⟨hkept, hdone⟩ := h.completed
  exact ⟨_, h.exec, (congrArg State.stage hdone :), (congrArg State.fault hdone :), (congrArg State.err hdone :),
    (h.compressed hs).lengths, hkept, hdone⟩

/-! ### The container of COMPRESS is a conforming one (R223) -/

/-- The table of a state reads as CT on byte values. -/
theorem get_table (s : State) (b : Byte) : Sparse.get s.table b.toNat = s.codeAt b.toNat :=
  (Sparse.get_tabulate 256 s.codeAt b.toNat).trans (if_pos b.isLt)

theorem encodedBits_eq_table (s : State) (x : List Byte) :
    s.encodedBits x = x.flatMap fun y => (Sparse.get s.table y.toNat).getD [] := by
  simp only [State.encodedBits, get_table]

/-- A packed payload is `pack` of the codes of the data, and NBITS counts them (R171, R172). -/
theorem fields_of_packed {s : State} (h : s.Packed) :
    s.payload = (pack (s.encodedBits s.data)).1 ∧ s.padding = (pack (s.encodedBits s.data)).2 ∧
      s.nbits = (s.encodedBits s.data).length :=
  ⟨congrArg Prod.fst h.1, congrArg Prod.snd h.1, h.2⟩

section
variable {s u r : State}

theorem Compressed.container (h : Compressed s u) :
    u.container = serHeader u.padding u.table u.name ++ [0x00#8] ++ u.payload := h.serialized

/-- The payload of COMPRESS expands to the codes of the data (R181). -/
theorem Compressed.payload (h : Compressed s u) :
    u.padding ≤ 7 ∧ u.padding ≤ 8 * u.payload.length ∧ unpack u.payload u.padding = u.encodedBits s.data := by
  obtain ⟨hpayload, hpadding, -⟩ := fields_of_packed h.packed
  rw [hpayload, hpadding, ← h.data]
  exact unpackUndoesPack _

theorem Compressed.codeAt_isSome (h : Compressed s u) {x : Byte} (hx : x ∈ s.data) : (u.codeAt x.toNat).isSome = true :=
  codeAt_isSome_of_mem_data h.histogram h.codes (h.data ▸ hx)

/-- A container with the header of COMPRESS is conforming, whatever its payload is. -/
theorem Compressed.conforming (h : Compressed s u) {p : List Byte} (hfits : r.clen ≤ r.cfg.cMax)
    (hcont : r.container = serHeader u.padding u.table u.name ++ [0x00#8] ++ p) (hname : u.name.length ≤ r.cfg.nMax) :
    Conforming r u.padding u.table u.name p := by
  obtain ⟨-, hdec, -⟩ := h.codes
  refine ⟨hfits, hcont, fun e he => ?_, (Sparse.tabulate_wf 256 u.codeAt).imp Nat.ne_of_lt, hname, hdec⟩
  obtain ⟨hb, hc⟩ := mem_table.mp he
  exact ⟨Nat.le_of_lt_succ hb, (h.codesFit.2 _ (Sparse.mem_of_get hc)).2⟩

/-- A conforming container whose payload is the codes of some of the data is decompressed to that data (R221). -/
theorem Compressed.decompress (h : Compressed s u) {p x : List Byte}
    (hr : Conforming r u.padding u.table u.name p) (hp : u.padding ≤ 8 * p.length) (hx : x.length ≤ r.cfg.dMax)
    (hdata : ∀ y ∈ x, y ∈ s.data) (hbits : unpack p u.padding = u.encodedBits x) :
    ∃ v, exec .decompress r = .next v ∧ v.fault = r.fault ∧ v.err = r.err ∧ v.stage = .dDone ∧ v.data = x ∧
      v.name = s.name := by
  obtain ⟨hseven, -⟩ := h.payload
  obtain ⟨v, hv, hvdata, hvname, -, hdone⟩ := decompressRecoversDataAndName r u.padding u.table u.name p x hr.fits
    hr.container hr.codes hr.keys hr.name hr.decodable hseven hp hx
    (fun y hy => by rw [get_table]; exact h.codeAt_isSome (hdata y hy)) (by rw [hbits, encodedBits_eq_table])
  exact ⟨v, hv, (congrArg State.fault hdone :), (congrArg State.err hdone :), (congrArg State.stage hdone :), hvdata,
    hvname.trans h.name⟩

/-- The container of COMPRESS is decompressed to the data on every core it fits (R223). -/
theorem Compressed.roundTrip (h : Compressed s u) (hcont : r.container = u.container) (hr : r.LengthsFit)
    (hd : u.dlen ≤ r.cfg.dMax) (hn : u.nlen ≤ r.cfg.nMax) :
    ∃ v, exec .decompress r = .next v ∧ v.fault = r.fault ∧ v.err = r.err ∧ v.stage = .dDone ∧ v.data = s.data ∧
      v.name = s.name := by
  obtain ⟨-, -, hclen, -⟩ := hr
  obtain ⟨-, hpad, hbits⟩ := h.payload
  have hname : u.name.length = u.nlen := bytes_length u .nbuf
  have hdata : u.data.length = u.dlen := bytes_length u .dbuf
  exact h.decompress (h.conforming hclen (hcont.trans h.container) (by omega)) hpad (by rw [← h.data]; omega)
    (fun _ => id) hbits

end

/-- On every input that fits COMPRESS completes (R216). -/
theorem Fitting.exec_compress {s : State} (hs : Fitting s) : ∃ u, exec .compress s = .next u ∧ Compressed s u := by
  obtain ⟨a, b, c, d, t, h⟩ := hs.exists_compressRun
  exact ⟨_, h.exec, h.compressed hs⟩

/-- Settles O49: the container of COMPRESS is a conforming one, and its payload is the codes of the data. -/
theorem roundTripRecoversDataAndName : Obligations.RoundTripRecoversDataAndName := by
  intro s hcfg hlen
  obtain ⟨u, hu, h⟩ := Fitting.exec_compress ⟨hcfg, hlen⟩
  obtain ⟨hd, hn, -, -⟩ := h.lengths
  rw [h.cfg] at hd hn
  exact ⟨u, hu, h.lengths, fun r hcont hr hdMax hnMax =>
    h.roundTrip hcont hr (hd.trans hdMax) (hn.trans hnMax)⟩

end Sys2Proof.Machine

/-!
PROOFS. COMPRESS on two inputs of a special shape: no byte, and one byte value repeated (R224, R225).
-/

namespace Sys2Proof.Machine

/-! ### The empty input (R224) -/

/-- COMPRESS of the empty data assigns no code (R147, R164). -/
theorem Compressed.codeAt_of_empty {s u : State} (h : Compressed s u) (hs : s.data = []) (b : Nat) :
    u.codeAt b = none := by
  obtain ⟨hcodes, -⟩ := h.codes
  refine Option.eq_none_iff_forall_ne_some.mpr fun c hc => ?_
  obtain ⟨hb, -⟩ := h.codesFit.2 _ (Sparse.mem_of_get hc)
  have hpos := (hcodes b hb).mp (by rw [hc]; rfl)
  rw [h.histogram b hb, h.data, hs] at hpos
  exact absurd hpos (by simp)

/-- Settles O50: no byte value occurs, so there is no code and no bit, and the round trip gives the empty data back. -/
theorem emptyInputCompresses : Obligations.EmptyInputCompresses := by
  intro s hcfg hlen hempty
  obtain ⟨u, hu, h⟩ := Fitting.exec_compress ⟨hcfg, hlen⟩
  have hdata : s.data = [] := List.length_eq_zero_iff.mp ((bytes_length s .dbuf).trans hempty)
  have hcodes := h.codeAt_of_empty hdata
  have htable : u.table = [] := List.eq_nil_iff_forall_not_mem.mpr fun ⟨b, c⟩ he => by
    obtain ⟨-, hc⟩ := mem_table.mp he
    rw [hcodes] at hc
    cases hc
  have hnil : u.encodedBits u.data = [] := by rw [h.data, hdata]; rfl
  obtain ⟨hpayload, hpadding, hnbits⟩ := fields_of_packed h.packed
  rw [hnil, show pack [] = ([], 0) by decide] at hpayload hpadding
  rw [hnil] at hnbits
  have hplen : u.payload.length = u.plen := bytes_length u .pbuf
  have hcont := h.container
  obtain ⟨hd, hn, -, -⟩ := h.lengths
  obtain ⟨v, hv, -, -, hg, hvdata, hvname⟩ := h.roundTrip rfl h.lengths hd hn
  rw [hpayload] at hplen
  rw [hpayload, hpadding, htable, h.name, List.append_nil] at hcont
  exact ⟨u, hu, hpadding, hnbits, hplen.symm, hcodes, hcont, v, hv, hg, hvdata.trans hdata, hvname⟩

/-! ### One byte value (R146, R162, R225) -/

/-- The data is one byte value repeated, so that value alone occurs (R131). -/
theorem occurring_of_replicate {s : State} (hs : s.Histogram) {x : Byte} {n : Nat} (hn : 0 < n)
    (hdata : s.data = List.replicate n x) : occurring s = [x.toNat] := by
  refine List.perm_singleton.mp ((List.perm_ext_iff_of_nodup ((occurring_pairwise s).imp Nat.ne_of_lt)
    (List.nodup_singleton _)).mpr fun b => ?_)
  rw [List.mem_singleton]
  refine ⟨fun hb => ?_, fun hb => ?_⟩
  · have hlt := (mem_occurring.mp hb).1
    have hmem := mem_data_of_occurring hs hb
    rw [hdata] at hmem
    exact ((eq_ofNat_iff hlt).mp (List.eq_of_mem_replicate hmem).symm).symm
  · rw [hb]
    exact mem_occurring_of_mem_data hs (hdata ▸ List.mem_replicate.mpr ⟨by omega, rfl⟩)

theorem mergeLoop_of_no_queue (n : Nat) {s : State} (h : s.stage ≠ .cQueue) : mergeLoop n s = .ok s := by
  cases n with
  | zero => exact if_neg h
  | succ n => exact if_neg h

/-- TBUILD of one byte value makes its leaf the root, which gets the code "0" (R146, R162). -/
theorem assignCodes_of_one_value {s t : State} (h : runTbuild s = .ok t) {b : Nat} (ho : occurring s = [b]) :
    assignCodes t = .ok [(b, [false])] := by
  obtain ⟨hb, hpos⟩ := mem_occurring.mp (ho ▸ List.mem_singleton_self b)
  have hsym : (leafNode s b).sym.toNat = b := by rw [leafNode, BitVec.toNat_ofNat, Nat.mod_eq_of_lt hb]
  obtain ⟨u, hu, h⟩ := bind_eq_ok.mp h
  obtain ⟨hnode, -, hnlive⟩ := runTinit_store hu
  rw [ho, List.length_singleton] at hnlive
  obtain ⟨hzero, -⟩ | ⟨-, hrootV, hroot, hg⟩ | ⟨htwo, -⟩ := runTinit_root hu
  · omega
  · rw [mergeLoop_of_no_queue 255 (by rw [hg]; decide)] at h
    obtain rfl := Except.ok.inj h
    have hn : u.nodeAt u.root.toNat = some (leafNode s b) := by
      rw [ho, List.mem_singleton] at hroot
      rw [State.nodeAt, hroot, hnode]
      exact (nodeAt_withLeaves s b).trans (if_pos ⟨hb, hpos⟩)
    rw [assignCodes_of_leaf_root hrootV hn rfl, hsym]
  · omega

/-- A payload without a bit set is zero bytes. -/
theorem eq_zeros_of_payloadBits {p : List Byte} {k : Nat} (h : payloadBits p = List.replicate k false) :
    p = List.replicate p.length 0x00#8 := by
  refine List.eq_replicate_iff.mpr ⟨rfl, fun b hb => BitVec.eq_of_getLsbD_eq fun i hi => ?_⟩
  have hbit : b.getLsbD i ∈ byteBits b := by
    have hget := byteBits_getElem? b (i := 7 - i) (by omega)
    rw [show 7 - (7 - i) = i by omega] at hget
    exact List.mem_of_getElem? hget
  have hmem : b.getLsbD i ∈ payloadBits p := List.mem_flatMap.mpr ⟨b, hb, hbit⟩
  rw [h] at hmem
  rw [List.eq_of_mem_replicate hmem, BitVec.getLsbD_zero]

/-- Settles O51: the tree is one leaf, so each data byte is one zero bit. -/
theorem oneByteValueCompresses : Obligations.OneByteValueCompresses := by
  intro s x n hcfg hlen hn hdata
  have hs : Fitting s := ⟨hcfg, hlen⟩
  obtain ⟨a, b, c, d, t, h⟩ := hs.exists_compressRun
  have hcomp := h.compressed hs
  have hadata : a.data = s.data := by
    obtain ⟨-, rfl⟩ := runFreq_eq_ok.mp h.freq
    rfl
  have hassign := assignCodes_of_one_value h.tbuild
    (occurring_of_replicate (runFreq_histogram h.freq) hn (hadata.trans hdata))
  have hct : (complete t).ct = [(x.toNat, [false])] := by
    obtain ⟨ct, hct, hc⟩ := runAssign_eq_ok.mp h.assign
    cases hassign.symm.trans hct
    exact h.ct.trans (congrArg State.ct hc)
  have hcodeAt (b : Nat) : (complete t).codeAt b = if b = x.toNat then some [false] else none := by
    rw [State.codeAt, hct, Sparse.get_cons, Sparse.get_nil]
  have hbits : (complete t).encodedBits (complete t).data = List.replicate n false := by
    rw [hcomp.data, hdata, State.encodedBits, List.flatMap_replicate, hcodeAt, if_pos rfl]
    exact List.flatten_replicate_singleton
  obtain ⟨hpayload, hpadding, hnbits⟩ := fields_of_packed hcomp.packed
  rw [hbits] at hpayload hpadding hnbits
  have hlen := pack_length (List.replicate n false)
  rw [← hpayload, List.length_replicate] at hlen
  rw [pack_padding, List.length_replicate] at hpadding
  refine ⟨_, h.exec, hcodeAt, hnbits.trans List.length_replicate, hpadding, ?_⟩
  rw [← hlen]
  refine eq_zeros_of_payloadBits (k := n + (pack (List.replicate n false)).2) ?_
  rw [hpayload, payloadBits_pack, List.replicate_append_replicate]

end Sys2Proof.Machine

/-!
PROOFS. COMPRESS is a function of the data and the name: the tree depends on FREQ alone, CT on the tree, and the rest
on CT, the data and the name (R229).
-/

namespace Sys2Proof.Machine

/-! ### TBUILD reads FREQ alone (R144) -/

/-- The state `r` with the tree store and the STAGE of `t`. -/
def graft (t r : State) : State :=
  { r with node := t.node, root := t.root, rootV := t.rootV, next := t.next, nlive := t.nlive, stage := t.stage }

theorem OnlyTreeChanged.graft_eq {s t : State} (h : OnlyTreeChanged s t) : graft t s = t := by
  obtain ⟨_, _, _, _, _, _, rfl⟩ := h
  rfl

section
variable {s t r : State}

theorem runTinit_graft (hf : r.freq = s.freq) (h : runTinit s = .ok t) : runTinit r = .ok (graft t r) := by
  have hfreq := freqAt_congr hf
  have hocc : occurring r = occurring s := by rw [occurring, occurring, hfreq]
  unfold runTinit at h ⊢
  rw [hfreq, hocc]
  generalize Sparse.tabulate 511 _ = nodes at *
  revert h
  generalize occurring s = o
  match o with
  | [] => rintro ⟨⟩; rfl
  | [b] => rintro ⟨⟩; rfl
  | b :: b' :: o => rintro ⟨⟩; rfl

theorem runTmerge_graft (h : runTmerge s = .ok t) (r : State) : runTmerge (graft s r) = .ok (graft t r) := by
  obtain ⟨a, na, b, nb, ha, hb, hnext, rfl⟩ := runTmerge_eq_ok.mp h
  exact runTmerge_eq_ok.mpr ⟨a, na, b, nb, ha, hb, hnext, rfl⟩

theorem mergeLoop_graft {n : Nat} (h : mergeLoop n s = .ok t) (r : State) :
    mergeLoop n (graft s r) = .ok (graft t r) := by
  have hg : (graft s r).stage = s.stage := rfl
  induction n generalizing s with
  | zero =>
    rw [mergeLoop] at h ⊢
    rw [hg]
    split at h
    · cases h
    · rw [if_neg ‹_›]; cases h; rfl
  | succ n ih =>
    rw [mergeLoop] at h ⊢
    rw [hg]
    split at h
    · obtain ⟨u, hu, h⟩ := bind_eq_ok.mp h
      rw [if_pos ‹_›]
      exact bind_eq_ok.mpr ⟨_, runTmerge_graft hu r, ih h rfl⟩
    · rw [if_neg ‹_›]; cases h; rfl

/-- States with the same FREQ get the same tree from TBUILD. -/
theorem runTbuild_graft (hf : r.freq = s.freq) (h : runTbuild s = .ok t) : runTbuild r = .ok (graft t r) := by
  obtain ⟨u, hu, h⟩ := bind_eq_ok.mp h
  exact bind_eq_ok.mpr ⟨_, runTinit_graft hf hu, mergeLoop_graft h r⟩

/-- ASSIGN reads the tree alone (R160). -/
theorem assignCodes_graft (t r : State) : assignCodes (graft t r) = assignCodes t := rfl

end

/-! ### The container (R229) -/

/-- The same data gets the same code table. -/
theorem CompressRun.ct_eq {s a b c d t s' a' b' c' d' t' : State} (h : CompressRun s a b c d t)
    (h' : CompressRun s' a' b' c' d' t') (hdata : s.data = s'.data) : t.ct = t'.ct := by
  obtain ⟨-, ha⟩ := runFreq_eq_ok.mp h.freq
  obtain ⟨-, ha'⟩ := runFreq_eq_ok.mp h'.freq
  have hfreq : a'.freq = a.freq := by rw [ha, ha', hdata]
  have hb : b' = graft b a' := Except.ok.inj (h'.tbuild.symm.trans (runTbuild_graft hfreq h.tbuild))
  obtain ⟨ct, hct, hc⟩ := runAssign_eq_ok.mp h.assign
  obtain ⟨ct', hct', hc'⟩ := runAssign_eq_ok.mp h'.assign
  rw [hb, assignCodes_graft, hct] at hct'
  obtain rfl := Except.ok.inj hct'
  rw [h.ct, h'.ct, hc, hc']

/-- The same data, name and code table give the same container. -/
theorem Compressed.container_eq {s u s' u' : State} (h : Compressed s u) (h' : Compressed s' u') (hct : u.ct = u'.ct)
    (hdata : s.data = s'.data) (hname : s.name = s'.name) : u.container = u'.container := by
  obtain ⟨hpayload, hpadding, -⟩ := fields_of_packed h.packed
  obtain ⟨hpayload', hpadding', -⟩ := fields_of_packed h'.packed
  rw [h.data, hdata, encodedBits_congr hct] at hpayload hpadding
  rw [h'.data] at hpayload' hpadding'
  rw [h.container, h'.container, hpayload, hpadding, hpayload', hpadding', h.name, h'.name, hname, table_congr hct]

/-- Settles O53: the same data gets the same histogram, so the same tree, codes, payload and container. -/
theorem compressDependsOnDataAndNameAlone : Obligations.CompressDependsOnDataAndNameAlone := by
  intro s s' hcfg hcfg' hlen hlen' hdata hname
  have hs : Fitting s := ⟨hcfg, hlen⟩
  have hs' : Fitting s' := ⟨hcfg', hlen'⟩
  obtain ⟨a, b, c, d, t, h⟩ := hs.exists_compressRun
  obtain ⟨a', b', c', d', t', h'⟩ := hs'.exists_compressRun
  exact ⟨_, _, h.exec, h'.exec, (h.compressed hs).container_eq (h'.compressed hs') (h.ct_eq h' hdata :) hdata hname⟩

end Sys2Proof.Machine

/-!
PROOFS. The composite commands and their stages: no stage depends on what completion touches, nor on the bytes above a
length (R217, R219).
-/

namespace Sys2Proof.Machine

/-! ### States that differ in unspecified parts only -/

/-- The state `s` with other values in BUSY, PEND, the buffers and the model's own `delay` and `draws`. -/
def revoid (s : State) (busy : Bool) (pend : BitVec 8) (dbuf nbuf cbuf pbuf : Buffer) (delay draws : Nat) : State :=
  { s with busy := busy, pend := pend, dbuf := dbuf, nbuf := nbuf, cbuf := cbuf, pbuf := pbuf, delay := delay,
           draws := draws }

/-- `t` is `s` but for BUSY, PEND, the bytes above the lengths, and the model's own `delay` and `draws`: what a command
and a composite command that runs it as a stage may leave different (R217). -/
def Alike (s t : State) : Prop :=
  (∃ busy pend dbuf nbuf cbuf pbuf delay draws, t = revoid s busy pend dbuf nbuf cbuf pbuf delay draws) ∧
    ∀ b, t.bytes b = s.bytes b

theorem Alike.refl (s : State) : Alike s s := ⟨⟨_, _, _, _, _, _, _, _, rfl⟩, fun _ => rfl⟩

/-- Two runs that end alike: well, in states that are alike, or with the same error. -/
inductive RunAlike : Run → Run → Prop where
  | ok {t t' : State} (h : Alike t t') : RunAlike (.ok t) (.ok t')
  | error (e : Stop) : RunAlike (.error e) (.error e)

theorem RunAlike.bind {r r' : Run} {f f' : State → Run} (h : RunAlike r r')
    (hf : ∀ t t', Alike t t' → RunAlike (f t) (f' t')) : RunAlike (r >>= f) (r' >>= f') := by
  cases h with
  | ok h => exact hf _ _ h
  | error e => exact .error e

theorem RunAlike.refl (r : Run) : RunAlike r r := by
  cases r with
  | ok t => exact .ok (.refl t)
  | error e => exact .error e

/-- Two chains that begin with the same computation. -/
theorem RunAlike.bind_same {α : Type} (r : Except Stop α) {f f' : α → Run} (hf : ∀ x, RunAlike (f x) (f' x)) :
    RunAlike (r >>= f) (r >>= f') := by
  cases r with
  | ok x => exact hf x
  | error e => exact .error e

section
variable {s t : State}

/-- Completion leaves a state alike. -/
theorem Alike.completed (h : Alike s t) : Alike s (complete t) := by
  obtain ⟨⟨_, _, _, _, _, _, _, _, rfl⟩, hbytes⟩ := h
  exact ⟨⟨_, _, _, _, _, _, _, _, rfl⟩, fun b => (bytes_congr (complete_buf _ b) (complete_len _ b)).trans (hbytes b)⟩

theorem Alike.sameSpecified (h : Alike s t) : SameSpecified (complete s) (complete t) := by
  obtain ⟨⟨_, _, _, _, _, _, _, _, rfl⟩, hbytes⟩ := h
  refine ⟨rfl, rfl, rfl, rfl, rfl, fun b => ⟨by cases b <;> rfl, ?_⟩, rfl, rfl, rfl, rfl, rfl, rfl, rfl, rfl, rfl, rfl⟩
  rw [bytes_congr (complete_buf _ b) (complete_len _ b), bytes_congr (complete_buf _ b) (complete_len _ b), hbytes b]

/-- An update of registers that reads none of the parts left open keeps states alike. -/
theorem Alike.map (h : Alike s t) (f : State → State)
    (hf : ∀ s busy pend dbuf nbuf cbuf pbuf delay draws,
      f (revoid s busy pend dbuf nbuf cbuf pbuf delay draws) = revoid (f s) busy pend dbuf nbuf cbuf pbuf delay draws)
    (hbytes : ∀ s b, (f s).bytes b = s.bytes b) : Alike (f s) (f t) := by
  obtain ⟨⟨_, _, _, _, _, _, _, _, rfl⟩, hb⟩ := h
  exact ⟨⟨_, _, _, _, _, _, _, _, hf _ _ _ _ _ _ _ _ _⟩, fun b => by rw [hbytes, hbytes, hb]⟩

theorem Alike.withStage (h : Alike s t) (g : Stage) : Alike { s with stage := g } { t with stage := g } :=
  h.map (fun s => { s with stage := g }) (fun _ _ _ _ _ _ _ _ _ => rfl) fun _ b => by cases b <;> rfl

theorem Alike.stored (h : Alike s t) (b : BufId) (x : List Byte) : Alike (stored b x s) (stored b x t) := by
  obtain ⟨⟨_, _, _, _, _, _, _, _, rfl⟩, hbytes⟩ := h
  refine ⟨by cases b <;> exact ⟨_, _, _, _, _, _, _, _, rfl⟩, fun c => ?_⟩
  by_cases hc : c = b
  · rw [hc, stored_bytes_same, stored_bytes_same]
  · rw [stored_bytes_other x _ hc, stored_bytes_other x _ hc, hbytes]

/-- States that are alike agree in the registers the stages read. -/
theorem Alike.registers (h : Alike s t) :
    t.cfg = s.cfg ∧ t.stage = s.stage ∧ t.fault = s.fault ∧ t.freq = s.freq ∧ t.ct = s.ct ∧ t.padding = s.padding ∧
      t.nbits = s.nbits ∧ t.plen = s.plen := by
  obtain ⟨⟨_, _, _, _, _, _, _, _, rfl⟩, -⟩ := h
  exact ⟨rfl, rfl, rfl, rfl, rfl, rfl, rfl, rfl⟩

theorem Alike.stage (h : Alike s t) : t.stage = s.stage := by
  obtain ⟨-, hstage, -⟩ := h.registers
  exact hstage

theorem Alike.load (h : Alike s t) (b : BufId) : loadBuffer t b = loadBuffer s b := by
  obtain ⟨⟨_, _, _, _, _, _, _, _, rfl⟩, hbytes⟩ := h
  rw [loadBuffer, hbytes]
  cases b <;> rfl

theorem Alike.store (h : Alike s t) (b : BufId) (x : List Byte) :
    RunAlike (storeBuffer b x s) (storeBuffer b x t) := by
  obtain ⟨hcfg, -⟩ := h.registers
  unfold storeBuffer
  rw [hcfg]
  split
  · exact .ok (h.stored b x)
  · exact .error _

/-! ### No stage tells such states apart -/

theorem Alike.tbuild (h : Alike s t) : RunAlike (runTbuild s) (runTbuild t) := by
  obtain ⟨-, -, -, hfreq, -⟩ := h.registers
  obtain ⟨u, v, hu, hv⟩ := exists_runTbuild s
  have hrun : runTbuild s = .ok v := bind_eq_ok.mpr ⟨u, hu, hv⟩
  rw [runTbuild_graft hfreq hrun, hrun, ← (runTbuild_frame hrun).graft_eq]
  exact .ok (h.map (graft v) (fun _ _ _ _ _ _ _ _ _ => rfl) fun _ b => by cases b <;> rfl)

theorem Alike.assign (h : Alike s t) : RunAlike (runAssign s) (runAssign t) := by
  have hcodes : assignCodes t = assignCodes s := by
    obtain ⟨⟨_, _, _, _, _, _, _, _, rfl⟩, -⟩ := h
    rfl
  unfold runAssign
  rw [hcodes]
  exact .bind_same _ fun ct => .ok (h.map (fun s => { s with
    ct := ct, node := [], root := 0#9, rootV := false, next := 256, nlive := 0, stage := .cCodes })
    (fun _ _ _ _ _ _ _ _ _ => rfl) fun _ b => by cases b <;> rfl)

theorem Alike.encode (h : Alike s t) : RunAlike (runEncode s) (runEncode t) := by
  obtain ⟨-, -, -, -, hct, -⟩ := h.registers
  unfold runEncode
  rw [h.load, hct]
  exact .bind_same _ fun _ => .bind_same _ fun p => .bind (h.store _ _) fun _ _ ht => .ok
    (ht.map (fun s => { s with padding := p.padding, nbits := p.nbits, stage := .cPacked })
      (fun _ _ _ _ _ _ _ _ _ => rfl) fun _ b => by cases b <;> rfl)

theorem Alike.serialize (h : Alike s t) : RunAlike (runSerialize s) (runSerialize t) := by
  obtain ⟨-, -, -, -, hct, hpad, -⟩ := h.registers
  unfold runSerialize
  rw [h.load, h.load, table_congr hct, hpad]
  exact .bind_same _ fun _ => .bind_same _ fun _ => .bind (h.store _ _) fun _ _ ht => .ok (ht.withStage _)

theorem Alike.chktab (h : Alike s t) : RunAlike (runChktab s) (runChktab t) := by
  obtain ⟨-, -, -, -, hct, -⟩ := h.registers
  unfold runChktab
  rw [table_congr hct]
  split
  · exact .ok (h.withStage _)
  · exact .error _

theorem Alike.unpack (h : Alike s t) : RunAlike (runUnpack s) (runUnpack t) := by
  obtain ⟨-, -, -, -, -, hpad, -, hplen⟩ := h.registers
  have hseven : (t.padding > 7) = (s.padding > 7) := by rw [hpad]
  have hbits : (t.padding > 8 * t.plen) = (s.padding > 8 * s.plen) := by rw [hpad, hplen]
  unfold runUnpack
  simp only [hseven, hbits]
  split
  · exact .error _
  · split
    · exact .error _
    · exact .ok (h.map (fun s => { s with nbits := 8 * s.plen - s.padding, stage := .dUnpacked })
        (fun _ _ _ _ _ _ _ _ _ => rfl) fun _ b => by cases b <;> rfl)

theorem Alike.decode (h : Alike s t) : RunAlike (runDecode s) (runDecode t) := by
  obtain ⟨hcfg, -, -, -, hct, -, hnbits, hplen⟩ := h.registers
  unfold runDecode
  rw [h.load, hcfg, table_congr hct, hnbits, hplen]
  refine .bind_same _ fun _ => ?_
  split
  · exact .bind_same _ fun _ => .bind (h.store _ _) fun _ _ ht => .ok (ht.withStage _)
  · exact .error _

end

/-! ### COMPRESS and its stages (R217) -/

/-- A stage that ends well in a state ends well, and alike, as a command in a state that is alike. -/
theorem exec_of_alike {i : Instr} (hi : i ≠ .sreset) {s s' t : State} (h : Alike s s')
    (hrun : RunAlike (bodyOf i s) (bodyOf i s')) (hl : legalAt i s.stage = true) (ht : bodyOf i s = .ok t) :
    ∃ t', exec i s' = .next (complete t') ∧ Alike t t' := by
  rw [ht] at hrun
  generalize hr : bodyOf i s' = r at hrun
  cases hrun with
  | ok halike => exact ⟨_, exec_of_ok hi (by rw [h.stage, hl]) hr, halike⟩

/-- Settles O46: each command meets a state alike to the one its stage meets in COMPRESS. -/
theorem compressEqualsItsStages : Obligations.CompressEqualsItsStages := by
  intro s hcfg hlen
  obtain ⟨a, b, c, d, t, h⟩ := Fitting.exists_compressRun ⟨hcfg, hlen⟩
  have hag := (runFreq_meaning h.freq).1
  obtain ⟨-, hbg, hbm⟩ := h.built
  obtain ⟨hcg, hcm⟩ := runAssign_meaning h.assign hbg hbm
  obtain ⟨hdg, -⟩ := runEncode_meaning h.encode hcg hcm
  have ha := (Alike.refl a).completed
  obtain ⟨b', hexecb, hb⟩ := exec_of_alike (i := .tbuild) (by decide) ha ha.tbuild (by rw [hag]; rfl) h.tbuild
  have hb := hb.completed
  obtain ⟨c', hexecc, hc⟩ := exec_of_alike (i := .assign) (by decide) hb hb.assign (by rw [hbg]; rfl) h.assign
  have hc := hc.completed
  obtain ⟨d', hexecd, hd⟩ := exec_of_alike (i := .encode) (by decide) hc hc.encode (by rw [hcg]; rfl) h.encode
  have hd := hd.completed
  obtain ⟨t', hexect, ht⟩ := exec_of_alike (i := .serialize) (by decide) hd hd.serialize (by rw [hdg]; rfl) h.serialize
  exact ⟨_, _, _, _, _, _, h.exec, exec_of_ok (i := .freq) (by decide) rfl h.freq, hexecb, hexecc, hexecd, hexect,
    ht.sameSpecified⟩

/-! ### DECOMPRESS is not stuck when the container fits (R228) -/

/-- PARSE of a container that fits ends well or raises an error. -/
theorem runParse_notStuck_of_fits {s : State} (hfit : s.clen ≤ s.cfg.cMax) : NotStuck (runParse s) := by
  cases hsplit : splitContainer s.container with
  | none =>
    simp only [runParse, loadBuffer_container hfit, bind, Except.bind, hsplit]
    exact .raise _
  | some q =>
    obtain ⟨h, p⟩ := q
    cases hparse : parseHeader h with
    | none =>
      rw [runParse_of_malformed_header hfit hsplit hparse]
      exact .raise _
    | some hd =>
      by_cases hover : (∃ e ∈ hd.codes, 255 < e.2.length) ∨ s.cfg.nMax < hd.name.length
      · rw [runParse_of_over_capacity hfit hsplit hparse hover]
        exact .raise _
      · have hp : p.length ≤ s.cfg.cMax := by
          have hlen : s.container.length = s.clen := bytes_length s .cbuf
          rw [eq_containerOf_of_splitContainer hsplit, containerOf, List.length_append] at hlen
          omega
        exact .of_exists ⟨_, runParse_eq_ok.mpr ⟨h, p, hd, hfit, hsplit, hparse,
          fun e he => not_lt.mp fun hlt => hover (.inl ⟨e, he, hlt⟩), not_lt.mp fun hlt => hover (.inr hlt), hp, rfl⟩⟩

/-- The payload PARSE leaves fits PBUF (R195). -/
theorem runParse_plen_le {s t : State} (h : runParse s = .ok t) : t.plen ≤ t.cfg.cMax := by
  obtain ⟨_, p, hd, -, -, -, -, -, hp, rfl⟩ := runParse_eq_ok.mp h
  have hcfg : (parsed hd p s).cfg = s.cfg := (stored_cfg _ _ _).trans (stored_cfg _ _ _)
  rw [hcfg]
  exact hp

theorem runDecode_notStuck_of_fits {s : State} (hplen : s.plen ≤ s.cfg.cMax) (hnbits : s.nbits ≤ 8 * s.plen) :
    NotStuck (runDecode s) := by
  rw [runDecode_eq_loop hplen hnbits]
  exact .bind (decodeLoop_notStuck _ _ _ _ _ _) fun _ _ => .ok _

theorem runDecompress_notStuck_of_fits {s : State} (hfit : s.clen ≤ s.cfg.cMax) : NotStuck (runDecompress s) := by
  refine .bind (.bind (.bind (runParse_notStuck_of_fits hfit) fun a _ => runChktab_notStuck a)
    fun b _ => runUnpack_notStuck b) fun c hc => ?_
  obtain ⟨b, hb, hc⟩ := bind_eq_ok.mp hc
  obtain ⟨a, ha, hb⟩ := bind_eq_ok.mp hb
  have hplen := runParse_plen_le ha
  obtain ⟨-, rfl⟩ := runChktab_eq_ok.mp hb
  obtain ⟨-, -, rfl⟩ := runUnpack_eq_ok.mp hc
  exact runDecode_notStuck_of_fits hplen (Nat.sub_le _ _)

/-! ### DECOMPRESS and its stages (R219) -/

/-- One stage of a composite command issued in `s`, and the same stage as a command in a state `a'` alike to the state
`a` the stage meets: when the stage raises an error, both end in it; when it ends well, `Q` is to follow from the
rest. -/
theorem stage_of_composite {i : Instr} (hi : i ≠ .sreset) {s u a a' : State} {rest : State → Run} {Q : State → Prop}
    (hrun : RunAlike (bodyOf i a) (bodyOf i a')) (hl : legalAt i a'.stage = true) (hf : a'.fault = false)
    (hu : settle s (bodyOf i a >>= rest) = .next u)
    (hQ : ∀ b b', bodyOf i a = .ok b → Alike b b' → b'.fault = false → settle s (rest b) = .next u → Q (complete b')) :
    ∃ b, exec i a' = .next b ∧ (b.fault = true → FaultedWith b.err u) ∧ (b.fault = false → Q b) := by
  generalize hr : bodyOf i a = r at *
  generalize hr' : bodyOf i a' = r' at *
  cases hrun with
  | @ok b b' hb =>
    obtain ⟨-, hfault, -⟩ := bodyOf_fixed hr'
    have hbf : b'.fault = false := hfault.trans hf
    refine ⟨complete b', exec_of_ok hi hl hr', fun h => ?_, fun _ => hQ b b' rfl hb hbf hu⟩
    rw [complete_fault, hbf] at h
    cases h
  | error e =>
    obtain ⟨_, hok, -⟩ | ⟨e', he, rfl⟩ := settle_next hu
    · cases hok
    · cases he
      exact ⟨faultEntry e' a', (exec_eq_runCommand hi a').trans (runCommand_of_raise hl hr'),
        fun _ => faultEntry_faultedWith e' s, nofun⟩

/-- Settles O48: stage by stage, each command meets a state alike to the one its stage meets in DECOMPRESS. -/
theorem decompressEqualsItsStages : Obligations.DecompressEqualsItsStages := by
  intro s hf hfit
  obtain ⟨u, hu⟩ := exists_next_of_notStuck (i := .decompress) (by decide) (runDecompress_notStuck_of_fits hfit)
  have hchain : settle s (runParse s >>= fun a => runChktab a >>= fun b => runUnpack b >>= runDecode) = .next u := by
    rw [← hu]
    simp only [← bind_assoc]
    rfl
  refine ⟨u, exists_and_left.mpr ⟨hu, ?_⟩⟩
  refine stage_of_composite (i := .parse) (by decide) (RunAlike.refl _) rfl hf hchain fun a a' ha hal haf hchain => ?_
  have hag : a'.stage = .dParsed := hal.stage.trans (runParse_meaning ha).1
  refine stage_of_composite (i := .chktab) (by decide) hal.completed.chktab (by rw [complete_stage, hag]; rfl)
    haf hchain fun b b' hb hbl hbf hchain => ?_
  have hbg : b'.stage = .dTable := by
    obtain ⟨-, rfl⟩ := runChktab_eq_ok.mp hb
    exact hbl.stage
  refine stage_of_composite (i := .unpack) (by decide) hbl.completed.unpack (by rw [complete_stage, hbg]; rfl)
    hbf hchain fun c c' hc hcl hcf hchain => ?_
  have hcg : c'.stage = .dUnpacked := by
    obtain ⟨-, -, rfl⟩ := runUnpack_eq_ok.mp hc
    exact hcl.stage
  rw [← bind_pure (runDecode c)] at hchain
  refine stage_of_composite (i := .decode) (by decide) hcl.completed.decode (by rw [complete_stage, hcg]; rfl)
    hcf hchain fun d d' hd hdl _ hchain => ?_
  cases hchain
  exact hdl.sameSpecified

end Sys2Proof.Machine

/-!
PROOFS. A container of COMPRESS cut by one byte (R227).
-/

namespace Sys2Proof.Machine

/-! ### Bits cut short -/

theorem payloadBits_length (p : List Byte) : (payloadBits p).length = 8 * p.length := by
  induction p with
  | nil => rfl
  | cons b p ih => rw [payloadBits_cons, List.length_append, byteBits_length, ih, List.length_cons]; omega

/-- Without its last byte a payload expands to eight bits fewer (R177). -/
theorem unpack_dropLast (p : List Byte) (v : Nat) : unpack p.dropLast v = (unpack p v).take (8 * p.length - v - 8) := by
  have hpre : payloadBits p.dropLast = (payloadBits p).take (8 * (p.length - 1)) := by
    rcases List.eq_nil_or_concat' p with rfl | ⟨q, b, rfl⟩
    · rfl
    · rw [List.dropLast_concat, payloadBits_append, List.take_left' (by simp [payloadBits_length])]
  rw [unpack, unpack, hpre, List.take_take, List.take_take, List.length_dropLast]
  congr 1
  omega

section
variable {s : State}

theorem encodedBits_append (x y : List Byte) : s.encodedBits (x ++ y) = s.encodedBits x ++ s.encodedBits y :=
  List.flatMap_append

/-- A cut at the end of a code leaves the codes of the first bytes. -/
theorem encodedBits_take {x : List Byte} {j n : Nat} (hn : (s.encodedBits (x.take j)).length = n) :
    (s.encodedBits x).take n = s.encodedBits (x.take j) := by
  conv_lhs => rw [← List.take_append_drop j x, encodedBits_append, List.take_left' hn]

/-- A cut through the codes of some bytes leaves the codes of the first of them and a part of the next code. -/
theorem exists_code_cut {x : List Byte} (hx : ∀ y ∈ x, (s.codeAt y.toNat).isSome = true) {n : Nat}
    (hn : n < (s.encodedBits x).length) :
    ∃ y b z r c, x = y ++ b :: z ∧ (s.encodedBits x).take n = s.encodedBits y ++ r ∧
      s.codeAt b.toNat = some c ∧ r <+: c ∧ r.length < c.length := by
  induction x generalizing n with
  | nil => cases hn
  | cons b x ih =>
    obtain ⟨hb, hx⟩ := List.forall_mem_cons.mp hx
    obtain ⟨c, hc⟩ := Option.isSome_iff_exists.mp hb
    rw [encodedBits_cons hc, List.length_append] at hn
    by_cases hcut : n < c.length
    · refine ⟨[], b, x, c.take n, c, rfl, ?_, hc, List.take_prefix n c, by rw [List.length_take]; omega⟩
      rw [encodedBits_cons hc, List.take_append_of_le_length hcut.le]
      rfl
    · obtain ⟨y, b', z, r, c', hsplit, htake, hrest⟩ := ih hx (n := n - c.length) (by omega)
      refine ⟨b :: y, b', z, r, c', by rw [hsplit, List.cons_append], ?_, hrest⟩
      rw [encodedBits_cons hc, encodedBits_cons hc, List.take_append, List.take_of_length_le (not_lt.mp hcut), htake,
        List.append_assoc]

end

/-! ### DECOMPRESS of a payload that ends inside a code (R222) -/

/-- A payload that goes on, after the codes of some bytes, with bits in which no code begins. -/
theorem Conforming.runDecompress_of_leftover {s : State} {v : Nat} {t : List (Nat × Bits)} {nm p x : List Byte}
    {r : Bits} (h : Conforming s v t nm p) (hv : v ≤ 7) (hvp : v ≤ 8 * p.length)
    (hx : ∀ y ∈ x, (Sparse.get t y.toNat).isSome = true)
    (hfit : x.length ≤ s.cfg.dMax) (hbits : unpack p v = (x.flatMap fun y => (Sparse.get t y.toNat).getD []) ++ r)
    (hr : r ≠ []) (hno : ∀ b c, Sparse.get t b = some c → ¬ c <+: r) :
    runDecompress s = .error (.raise .decIncomplete) := by
  obtain ⟨a, b, c, ha, hb, hc, hready, -, -⟩ := h.exists_ready hv hvp
  have hchain : runParse s >>= runChktab >>= runUnpack = .ok c := bind_eq_ok.mpr ⟨b, bind_eq_ok.mpr ⟨a, ha, hb⟩, hc⟩
  rw [runDecompress, hchain]
  exact runDecode_of_leftover hready.fits hready.nbits hready.decodable (by rw [hready.codeAt]; exact hx)
    (by rw [hready.cfg]; exact hfit) (by rw [hready.bits, hbits, hready.encodedBits]) hr
    fun k q hq _ => hno k q (by rw [← hready.codeAt]; exact hq)

/-! ### The container without its last byte (R227) -/

/-- With CLEN decreased by one CBUF holds the container without its last byte. -/
theorem container_dropLast (t : State) : State.container { t with clen := t.clen - 1 } = t.container.dropLast := by
  change (List.range (t.clen - 1)).map (t.byteAt .cbuf) = ((List.range t.clen).map (t.byteAt .cbuf)).dropLast
  rw [List.dropLast_eq_take, ← List.map_take, List.take_range, List.length_map, List.length_range,
    min_eq_left (Nat.sub_le _ _)]

section
variable {s t : State}

/-- A container without a payload byte loses its delimiter. -/
theorem Compressed.cut_of_no_payload (h : Compressed s t) (hplen : t.plen = 0) :
    EndsInFault (exec .decompress { t with clen := t.clen - 1 }) t .fmtNoDelim := by
  obtain ⟨-, -, hclen, -⟩ := h.lengths
  have hpayload : t.payload = [] := List.length_eq_zero_iff.mp ((bytes_length t .pbuf).trans hplen)
  have hcont : State.container { t with clen := t.clen - 1 } = serHeader t.padding t.table t.name := by
    rw [container_dropLast, h.container, hpayload, List.append_nil, List.dropLast_concat]
  have hnone : 0x00#8 ∉ State.container { t with clen := t.clen - 1 } := hcont ▸ delimiter_not_mem_serHeader _ _ _
  exact endsInFault_of_raise (by decide) rfl
    (runDecompress_of_parse_raise (runParse_of_no_delimiter ((Nat.sub_le _ _).trans hclen) hnone))

/-- A container with a payload byte stays conforming, with a payload that is one byte shorter. -/
theorem Compressed.cut_conforming (h : Compressed s t) (hplen : 1 ≤ t.plen) :
    Conforming { t with clen := t.clen - 1 } t.padding t.table t.name t.payload.dropLast := by
  obtain ⟨-, hnlen, hclen, -⟩ := h.lengths
  have hne : t.payload ≠ [] := List.ne_nil_of_length_pos (by rw [State.payload, bytes_length]; exact hplen)
  refine h.conforming ((Nat.sub_le _ _).trans hclen) ?_ ((bytes_length t .nbuf).trans_le hnlen)
  rw [container_dropLast, h.container, List.dropLast_append_of_ne_nil hne]

/-- The payload has no bits but the code bits and the padding (R171). -/
theorem Compressed.nbits_add_padding (h : Compressed s t) : t.nbits + t.padding = 8 * t.payload.length := by
  obtain ⟨hpayload, hpadding, hnbits⟩ := fields_of_packed h.packed
  rw [hpayload, hpadding, hnbits, pack_length_mul]

/-- What is left of the code bits of the data. -/
theorem Compressed.unpack_cut (h : Compressed s t) :
    unpack t.payload.dropLast t.padding = (t.encodedBits s.data).take (t.nbits - 8) := by
  obtain ⟨-, -, hbits⟩ := h.payload
  rw [unpack_dropLast, hbits, ← h.nbits_add_padding, Nat.add_sub_cancel]

/-- A cut inside a code is an incomplete sequence. -/
theorem Compressed.cut_inside_code (h : Compressed s t) (hplen : 1 ≤ t.plen)
    (hpad : t.padding ≤ 8 * t.payload.dropLast.length) (hpos : 0 < t.nbits)
    (hnone : ∀ j, j ≤ s.dlen → (t.encodedBits (s.data.take j)).length ≠ t.nbits - 8) :
    EndsInFault (exec .decompress { t with clen := t.clen - 1 }) t .decIncomplete := by
  obtain ⟨-, -, hnbits⟩ := fields_of_packed h.packed
  have hdlen : s.data.length = s.dlen := bytes_length s .dbuf
  rw [h.data] at hnbits
  obtain ⟨y, b, z, r, c, hsplit, htake, hc, hpre, hlt⟩ := exists_code_cut (x := s.data) (s := t) (n := t.nbits - 8)
    (fun x hx => h.codeAt_isSome hx) (by omega)
  have hfirst : s.data.take y.length = y := by rw [hsplit, List.take_left]
  have hylen : y.length ≤ s.dlen := by rw [← hdlen, hsplit, List.length_append]; omega
  have hr : r ≠ [] := by
    rintro rfl
    have hlen := congrArg List.length htake
    rw [List.length_take, List.append_nil] at hlen
    exact hnone y.length hylen (by rw [hfirst]; omega)
  obtain ⟨-, hdec, -⟩ := h.codes
  obtain ⟨hseven, -⟩ := h.payload
  refine endsInFault_of_raise (by decide) rfl ((h.cut_conforming hplen).runDecompress_of_leftover hseven hpad
    (x := y) (r := r) (fun x hx => ?_) ?_ (by rw [h.unpack_cut, htake, encodedBits_eq_table]) hr fun k q hq hqr => ?_)
  · rw [get_table]
    exact h.codeAt_isSome (hsplit ▸ List.mem_append_left _ hx)
  · obtain ⟨hdmax, -⟩ := h.lengths
    have htdlen : t.data.length = t.dlen := bytes_length t .dbuf
    rw [h.data] at htdlen
    exact (hylen.trans_eq (hdlen.symm.trans htdlen)).trans hdmax
  · obtain ⟨hk, hkq⟩ := mem_table.mp (Sparse.mem_of_get hq)
    have hkb := eq_of_code_prefix hdec hk b.isLt hkq hc (hqr.trans hpre)
    rw [hkb, hc, Option.some.injEq] at hkq
    have := hkq ▸ hqr.length_le
    omega

/-- A cut at the end of a code leaves a proper beginning of the data. -/
theorem Compressed.cut_at_code_end (h : Compressed s t) (hplen : 1 ≤ t.plen)
    (hpad : t.padding ≤ 8 * t.payload.dropLast.length) (hpos : 0 < t.nbits) {j : Nat} (hj : j ≤ s.dlen)
    (hend : (t.encodedBits (s.data.take j)).length = t.nbits - 8) :
    ∃ u, exec .decompress { t with clen := t.clen - 1 } = .next u ∧ u.stage = .dDone ∧ u.data = s.data.take j ∧
      j < s.dlen := by
  obtain ⟨-, -, hnbits⟩ := fields_of_packed h.packed
  have hdlen : s.data.length = s.dlen := bytes_length s .dbuf
  obtain ⟨hdmax, -⟩ := h.lengths
  have htdlen : t.data.length = t.dlen := bytes_length t .dbuf
  rw [h.data] at hnbits htdlen
  have hfit : (s.data.take j).length ≤ t.cfg.dMax := by rw [List.length_take]; omega
  obtain ⟨u, hu, -, -, hg, hdata, -⟩ := h.decompress (h.cut_conforming hplen) hpad hfit
    (fun y hy => List.mem_of_mem_take hy) (by rw [h.unpack_cut, encodedBits_take hend])
  refine ⟨u, hu, hg, hdata, lt_of_le_of_ne hj fun hall => ?_⟩
  rw [List.take_of_length_le (by omega)] at hend
  omega

end

/-- Settles O52: the cut takes the delimiter, or a payload byte that the padding needs, or it ends at the end of a code,
or inside one. -/
theorem truncatedContainerOutcome : Obligations.TruncatedContainerOutcome := by
  intro s t hcfg hlen hexec
  obtain ⟨u, hu, h⟩ := Fitting.exec_compress ⟨hcfg, hlen⟩
  obtain rfl : t = u := Host.Outcome.next.inj (hexec.symm.trans hu)
  have hplen : t.payload.length = t.plen := bytes_length t .pbuf
  have hcut : t.payload.dropLast.length = t.plen - 1 := by rw [List.length_dropLast, hplen]
  refine ⟨h.cut_of_no_payload, fun ⟨hone, hpad⟩ => ?_, fun hone hnot => ?_⟩
  · exact endsInFault_of_raise (by decide) rfl
      ((h.cut_conforming hone.ge).runDecompress_of_bad_padding (by omega))
  · obtain ⟨hseven, -⟩ := h.payload
    have hbits := h.nbits_add_padding
    have hpad : t.padding ≤ 8 * t.payload.dropLast.length := by omega
    have hpos : 0 < t.nbits := by omega
    exact ⟨fun j hj hend => h.cut_at_code_end hone hpad hpos hj hend,
      fun hnone => h.cut_inside_code hone hpad hpos hnone⟩

end Sys2Proof.Machine

/-!
PROOFS. The faults raised at command issue, and a core that is busy or faulted ignores the host (R244 to R247, R253).
-/

namespace Sys2Proof.Machine

/-! ### Moves that leave the core alone (R66, R67, R247, R253) -/

/-- The move changed nothing of the core: at most the host read a value, which the model may have drawn. -/
def OnlyAnswered (s t : State) : Prop := t = { s with answers := t.answers, draws := t.draws }

theorem hostReadReg_onlyAnswered (off : Nat) (s : State) : OnlyAnswered s (hostReadReg off s) := by
  unfold hostReadReg
  split
  · rfl
  · rfl

theorem hostWrite_of_not_idle {s : State} (h : ¬ idle s = true) (b : BufId) (i : Nat) (v : Byte) :
    hostWrite b i v s = s :=
  hostWrite_of_not_taken (fun ⟨hbusy, hfault, _⟩ => h (idle_iff.mpr ⟨hbusy, hfault⟩)) v

/-- A busy or faulted core ignores every word written to CMD but SRESET's (R110, R253). -/
theorem issue_of_not_idle {s : State} {w : Word} (h : ¬ idle s = true) (hw : w ≠ 0x00000001#32) :
    issue w s = .done (.next s) := by
  have hflags : (s.busy || s.fault) = true := by
    rwa [idle_iff, ← Bool.or_eq_false_iff, Bool.not_eq_false] at h
  rw [issue, if_neg hw, if_pos hflags]

/-- A busy or faulted core ignores every move the spec gives the host, but SRESET and reset (R65 to R67, R247). -/
theorem hostMove_of_not_idle {s : State} {m : HostMove} (h : ¬ idle s = true) (hwf : m.wf = true)
    (hreset : m ≠ .reset) (hsreset : ∀ v, m = .regWrite .word 0 v → v ≠ 0x00000001#32) :
    ∃ t, hostMove m s = .done (.next t) ∧ OnlyAnswered s t := by
  cases m with
  | regWrite width off v =>
    rw [hostMove, if_pos hwf]
    by_cases h0 : off = 0
    · subst h0
      have hwidth : width = .word := by simpa [HostMove.wf] using hwf
      rw [if_pos rfl, issue_of_not_idle h (hsreset v (by rw [hwidth]))]
      exact ⟨s, rfl, rfl⟩
    · rw [if_neg h0, writeReg_of_not_idle h]
      exact ⟨s, rfl, rfl⟩
  | regRead width off => exact ⟨_, if_pos hwf, hostReadReg_onlyAnswered off s⟩
  | bufWrite width b i v => exact ⟨s, (if_pos hwf).trans (by rw [hostWrite_of_not_idle h]), rfl⟩
  | bufRead width b i => exact ⟨answerFree 8 s, (if_pos hwf).trans (by rw [hostReadBuf_of_not_idle h]), rfl⟩
  | wait => exact ⟨_, rfl, rfl⟩
  | reset => exact absurd rfl hreset

/-- Settles O13: the host's move is next, and a core that is not idle only answers it. -/
theorem busyOrFaultedIgnoresTheHost : Obligations.BusyOrFaultedIgnoresTheHost := by
  intro s m rest hstate hh hwf hreset hwait hsreset
  have hidle : ¬ idle (hostTook rest s) = true := by
    rw [hostTook_idle, idle_iff]
    rintro ⟨hb, hf⟩
    rcases hstate with ⟨hb', -⟩ | ⟨-, hf'⟩
    · exact absurd (hb'.symm.trans hb) (by decide)
    · exact absurd (hf'.symm.trans hf) (by decide)
  have hturn : turn s = hostMove m (hostTook rest s) := by
    refine turn_eq_hostMove hh fun hb => ⟨?_, hwait hb⟩
    rcases hstate with ⟨-, hd⟩ | ⟨hb', -⟩
    · exact hd
    · exact absurd (hb.symm.trans hb') (by decide)
  obtain ⟨t, ht, honly⟩ := hostMove_of_not_idle hidle hwf hreset hsreset
  exact ⟨t, step_eq_of_done (hturn.trans ht), honly⟩

/-! ### The faults of command issue (R244, R245) -/

/-- A write to CMD whose issue is fault entry faults in its own step; the capacities and the host are kept (R246). -/
theorem step_cmdWrite_of_faultEntry {s : State} {w : Word} {rest : List HostMove} {e : Err} (hb : s.busy = false)
    (hh : s.host = .regWrite .word 0 w :: rest)
    (h : issue w (hostTook rest s) = .done (.next (faultEntry e (hostTook rest s)))) :
    ∃ t, step s = .next t ∧ FaultedWith e t ∧ OutsideKept { s with host := rest } t :=
  ⟨_, step_eq_of_done ((turn_cmdWrite hh (by simp [hb])).trans h), faultEntry_faultedWith e _, rfl, rfl, rfl⟩

/-- A word that is no command's encoding is rejected by the decoder (R83). -/
theorem decode_of_ne_encode {w : Word} (h : ∀ i, w ≠ encode i) : ∃ e, decode w = .error e := by
  cases hd : decode w with
  | error e => exact ⟨e, rfl⟩
  | ok i => exact absurd (eq_encode_of_decode hd) (h i)

/-- An idle core faults on a word that is no command (R244). -/
theorem issue_of_ne_encode {s : State} {w : Word} (hidle : idle s = true) (h : ∀ i, w ≠ encode i) :
    issue w s = .done (.next (faultEntry .illegalCmd s)) := by
  obtain ⟨hb, hf⟩ := idle_iff.mp hidle
  obtain ⟨e, hd⟩ := decode_of_ne_encode h
  have hw : w ≠ 0x00000001#32 := h .sreset
  simp [issue, hw, hb, hf, hd]

/-- An idle core faults on a command that is not legal at its STAGE (R245). -/
theorem issue_of_not_legal {s : State} {i : Instr} (hidle : idle s = true) (hl : legalAt i s.stage = false) :
    issue (encode i) s = .done (.next (faultEntry .sequence s)) := by
  obtain ⟨hb, hf⟩ := idle_iff.mp hidle
  have hw : encode i ≠ 0x00000001#32 := by
    intro hw
    cases (decode_encode i).symm.trans (congrArg decode hw)
    cases hl
  simp [issue, hw, hb, hf, decode_encode, hl]

/-- Settles O6: the decoder rejects the word, and issue enters the fault. -/
theorem illegalWordFaults : Obligations.IllegalWordFaults := fun _ _ _ hb hf hh hw =>
  step_cmdWrite_of_faultEntry hb hh (issue_of_ne_encode (idle_iff.mpr ⟨hb, hf⟩) hw)

/-- Settles O7: the word decodes to a command that is not legal at STAGE, and issue enters the fault. -/
theorem wrongStageFaults : Obligations.WrongStageFaults := fun _ _ _ hb hf hh hl =>
  step_cmdWrite_of_faultEntry hb hh (issue_of_not_legal (idle_iff.mpr ⟨hb, hf⟩) hl)

/-! ### Fault entry (R246) -/

/-- STATUS of a faulted core: FAULT is bit 1, the error's code is from bit 4 on, and all else is 0 (R35, R246). -/
theorem statusWord_of_faultedWith {e : Err} {s : State} (h : FaultedWith e s) :
    statusWord s = 0x00000002#32 + 16#32 * e.code.setWidth 32 := by
  obtain ⟨hbusy, hfault, herr, hstage⟩ := h
  rw [statusWord, hbusy, hfault, herr, hstage]
  cases e <;> rfl

/-- Settles O12: the four flags are those of `FaultedWith`, which fix the STATUS word. -/
theorem faultEntrySetsFlags : Obligations.FaultEntrySetsFlags := fun e s =>
  ⟨faultEntry_faultedWith e s, ⟨rfl, rfl, rfl⟩, statusWord_of_faultedWith (faultEntry_faultedWith e s)⟩

end Sys2Proof.Machine

/-!
PROOFS. The host's reset event and the SRESET command have the same effect on the state (R270, R271).
-/

namespace Sys2Proof.Machine

/-- The host's reset event, when the host's move is next, is the reset operation, whatever the flags are (R270). -/
theorem turn_reset {s : State} {rest : List HostMove} (hh : s.host = .reset :: rest)
    (hd : s.busy = true → s.delay ≠ 0) : turn s = .done (.next (hardReset (hostTook rest s))) :=
  turn_eq_hostMove hh fun hb => ⟨hd hb, nofun⟩

/-- Settles O10: the reset event and SRESET are both the reset operation, here on the state with the event taken. -/
theorem hardwareResetIsSreset : Obligations.HardwareResetIsSreset := fun s rest hh hd =>
  calc step s = .next (hardReset (hostTook rest s)) := step_eq_of_done (turn_reset hh hd)
    _ = exec .sreset (hostTook rest s) := (exec_sreset _).symm

end Sys2Proof.Machine
